-- ==== Sys2Proof/Word.lean ====
section
/-! DEFINITION. The two word types: a byte (u8, 8 bits) and a word (the 64-bit pattern of an s64 or an f64), 00_scope.md R10 to R12. -/
namespace Sys2Proof

/-- A byte value, bits 7:0 (R10, R11). -/
abbrev Byte := BitVec 8

/-- A 64-bit pattern: an int value, address, offset or return address (read as two's complement), or a
binary64 pattern (R10, R12). -/
abbrev Word := BitVec 64

end Sys2Proof
end

