-- ==== Sys2Proof/Config.lean ====
section
/-! DEFINITION. What a construction fixes and what the spec leaves open: the bound on M, the sizes of the reset engine, and the parameter nanResult (00_scope.md R6 to R9). -/
namespace Sys2Proof

/-- The largest legal M, 2^63 - 1 (R6). -/
def Config.maxMemSize : Nat := 2 ^ 63 - 1

/-- M of `State.reset`. DESIGN CHOICE (log 1): the sizes of every vector of 95_test_vectors.md. -/
def Config.resetMemSize : Nat := 256

/-- S of `State.reset`. DESIGN CHOICE (log 1). -/
def Config.resetStackSize : Nat := 64

/-- TRACE of `State.reset`. DESIGN CHOICE (log 2): the optional port is present. -/
def Config.resetTrace : Bool := true

/-- The four float operations that `nanResult` distinguishes (R8). -/
inductive FloatOp where
  | fadd
  | fsub
  | fmul
  | fdiv
deriving DecidableEq, Repr

/-- A NaN pattern and nothing else (R8): the sign, and the fraction less one, so that the fraction runs
over 1 .. 2^52 - 1. The type has exactly as many members as there are NaN patterns. -/
abbrev NanPattern := Bool × Fin 4503599627370495

/-- The parameter `nanResult` of R8: OPEN in 92_eei_decisions.md D16. A free value (log 4): nothing in Lean
can evaluate it, and all that is known of it is that it is a NaN pattern. -/
opaque Config.nanPattern : FloatOp → Word → Word → NanPattern

end Sys2Proof
end

