-- ==== Sys2Proof/Machine/Float.lean ====
section
/-! DEFINITION. IEEE-754 binary64 on bit patterns: classes, rounding to nearest with ties to even, the four operations, equality and order (41_arithmetic.md R174; 42_compare_logic.md R202). Finite values are exact integers in units of 2^-1074, the least positive value. -/
namespace Sys2Proof.Machine

/-- The value a pattern stands for (R8's layout: sign bit 63, exponent bits 62:52, fraction bits 51:0). A finite value is
its sign and its magnitude in units of 2^-1074. -/
inductive FloatVal where
  | nan
  | inf (neg : Bool)
  | fin (neg : Bool) (units : Nat)
deriving DecidableEq, Repr

/-- Exponent bits 62:52. -/
def floatExponent (p : Word) : Nat := p.toNat / 2 ^ 52 % 2 ^ 11

/-- Fraction bits 51:0. -/
def floatFraction (p : Word) : Nat := p.toNat % 2 ^ 52

/-- f64of(p) (R12). Subnormals are kept as they are (R174). -/
def floatVal (p : Word) : FloatVal :=
  if floatExponent p = 2047 then
    if floatFraction p = 0 then .inf p.msb else .nan
  else if floatExponent p = 0 then .fin p.msb (floatFraction p)
  else .fin p.msb ((2 ^ 52 + floatFraction p) * 2 ^ (floatExponent p - 1))

/-- All exponent bits one and the fraction not all zero (R8). -/
def isNaN (p : Word) : Bool :=
  floatExponent p == 2047 && floatFraction p != 0

/-- Bits 62:0 of an infinity. -/
def infMagnitude : Nat := 2047 * 2 ^ 52

/-- The pattern with sign bit `neg` and bits 62:0 `mag`. -/
def floatPattern (neg : Bool) (mag : Nat) : Word :=
  BitVec.ofNat 64 ((if neg then 2 ^ 63 else 0) + mag)

/-- `nanResult(op, pat(A), pat(B))` (R8): a NaN pattern of which nothing more is known (log 4). -/
def nanResult (op : FloatOp) (a b : Word) : Word :=
  floatPattern (Config.nanPattern op a b).1 (infMagnitude + ((Config.nanPattern op a b).2.val + 1))

/-- The integer nearest to num / den, the even one of two equally near (D15). -/
def roundHalfEven (num den : Nat) : Nat :=
  if 2 * (num % den) < den then num / den
  else if den < 2 * (num % den) then num / den + 1
  else num / den + num / den % 2

/-- Bits 62:0 of the binary64 value nearest to num / den units, ties to even, infinity from the overflow threshold up. With
`k` the exponent field less one, the significand is rounded at granularity 2^k units; a significand that rounds up to
2^53 carries into the exponent field. -/
def roundMagnitude (num den : Nat) : Nat :=
  let k := Nat.log2 (num / den) - 52
  min (k * 2 ^ 52 + roundHalfEven num (den * 2 ^ k)) infMagnitude

/-- The signed value of a finite float, in units. -/
def signedUnits (neg : Bool) (units : Nat) : Int :=
  if neg then -(units : Int) else units

/-- The rounded sum of two finite floats. An exact zero is +0 unless both operands are negative (log 13). -/
def addFinite (na : Bool) (ua : Nat) (nb : Bool) (ub : Nat) : Word :=
  let x := signedUnits na ua + signedUnits nb ub
  if x = 0 then floatPattern (na && nb) 0
  else floatPattern (decide (x < 0)) (roundMagnitude x.natAbs 1)

/-- IEEE addition of two values; `nan` is the pattern of a NaN result. -/
def addValues (nan : Word) : FloatVal → FloatVal → Word
  | .nan, _ => nan
  | .inf _, .nan => nan
  | .fin _ _, .nan => nan
  | .inf na, .inf nb => if na = nb then floatPattern na infMagnitude else nan
  | .inf na, .fin _ _ => floatPattern na infMagnitude
  | .fin _ _, .inf nb => floatPattern nb infMagnitude
  | .fin na ua, .fin nb ub => addFinite na ua nb ub

/-- The value with the other sign. -/
def FloatVal.negate : FloatVal → FloatVal
  | .nan => .nan
  | .inf n => .inf (!n)
  | .fin n u => .fin (!n) u

/-- IEEE multiplication of two values; the sign is the XOR of the signs. -/
def mulValues (nan : Word) : FloatVal → FloatVal → Word
  | .nan, _ => nan
  | .inf _, .nan => nan
  | .fin _ _, .nan => nan
  | .inf na, .inf nb => floatPattern (xor na nb) infMagnitude
  | .inf na, .fin nb ub => if ub = 0 then nan else floatPattern (xor na nb) infMagnitude
  | .fin na ua, .inf nb => if ua = 0 then nan else floatPattern (xor na nb) infMagnitude
  | .fin na ua, .fin nb ub => floatPattern (xor na nb) (roundMagnitude (ua * ub) (2 ^ 1074))

/-- IEEE division of two values; the sign is the XOR of the signs. -/
def divValues (nan : Word) : FloatVal → FloatVal → Word
  | .nan, _ => nan
  | .inf _, .nan => nan
  | .fin _ _, .nan => nan
  | .inf _, .inf _ => nan
  | .inf na, .fin nb _ => floatPattern (xor na nb) infMagnitude
  | .fin na _, .inf nb => floatPattern (xor na nb) 0
  | .fin na ua, .fin nb ub =>
    if ub = 0 then
      if ua = 0 then nan else floatPattern (xor na nb) infMagnitude
    else floatPattern (xor na nb) (roundMagnitude (ua * 2 ^ 1074) ub)

/-- fadd_RNE on patterns (R174, R177). -/
def fadd (a b : Word) : Word := addValues (nanResult .fadd a b) (floatVal a) (floatVal b)

/-- fsub_RNE on patterns (R174, R180): A + (−B), a NaN result taking its pattern from A and B themselves. -/
def fsub (a b : Word) : Word := addValues (nanResult .fsub a b) (floatVal a) (floatVal b).negate

/-- fmul_RNE on patterns (R174, R183). -/
def fmul (a b : Word) : Word := mulValues (nanResult .fmul a b) (floatVal a) (floatVal b)

/-- fdiv_RNE on patterns (R174, R186). -/
def fdiv (a b : Word) : Word := divValues (nanResult .fdiv a b) (floatVal a) (floatVal b)

/-- IEEE equality of values: false with a NaN, true for +0 and −0 (R202). -/
def FloatVal.eq : FloatVal → FloatVal → Bool
  | .nan, _ => false
  | .inf _, .nan => false
  | .fin _ _, .nan => false
  | .inf na, .inf nb => na == nb
  | .inf _, .fin _ _ => false
  | .fin _ _, .inf _ => false
  | .fin na ua, .fin nb ub => decide (signedUnits na ua = signedUnits nb ub)

/-- IEEE ordered less-than of values: false with a NaN (R202). -/
def FloatVal.lt : FloatVal → FloatVal → Bool
  | .nan, _ => false
  | .inf _, .nan => false
  | .fin _ _, .nan => false
  | .inf na, .inf nb => na && !nb
  | .inf na, .fin _ _ => na
  | .fin _ _, .inf nb => !nb
  | .fin na ua, .fin nb ub => decide (signedUnits na ua < signedUnits nb ub)

/-- feq (R205). -/
def feq (a b : Word) : Bool := (floatVal a).eq (floatVal b)

/-- flt (R214). -/
def flt (a b : Word) : Bool := (floatVal a).lt (floatVal b)

/-- fgt (R211). -/
def fgt (a b : Word) : Bool := (floatVal b).lt (floatVal a)

end Sys2Proof.Machine
end

