-- ==== Sys2Proof/Machine/State.lean ====
section
/-! DEFINITION. The architectural state (10_state.md R30 to R36), the reasons a step could stop, and the state after construction (R45). -/
namespace Sys2Proof.Machine

/-- MEM (R31): the bytes that differ from 0x00, as (address, byte) pairs at strictly rising addresses. An address that is
not listed reads as 0x00, its value at reset (R45, log 5). -/
abbrev Memory := List Host.Cell

/-- LATCH, the Stack's sticky latch (R34). -/
inductive Latch where
  | active
  | overflowed
  | underflowed
deriving DecidableEq, Repr

/-- RUNSTATE, the engine's state machine (R35). -/
inductive RunState where
  | running
  | haltedClean
  | haltedError
deriving DecidableEq, Repr

/-- The seven run-time errors (60_exceptions.md R270). -/
inductive ErrorCode where
  /-- An access of width w at address a with a < 0 or a + w > M; a peek or poke outside the window (R271). -/
  | memoryError
  /-- A push with SP + w > S (R272). -/
  | stackOverflow
  /-- A pop with SP - w < 0 (R273). -/
  | stackUnderflow
  /-- A Stack operation while LATCH is not ACTIVE (R274). -/
  | blocked
  /-- A jump, call or return target t with t < 0 or t ≥ M (R275). -/
  | illegalAddress
  /-- The fetched opcode is one of the 187 undefined values (R276). -/
  | unknownOpcode
  /-- Byte or int division by zero (R277). -/
  | arithmeticError
deriving DecidableEq, Repr

/-- The architectural state: the six elements of R30, and the parameters M, S and TRACE that construction fixed for this
engine (R6, R7, R9, R41; log 3). -/
structure State where
  /-- MEM (R31). -/
  mem : Memory
  /-- PC, an s64: the address of the next opcode to fetch (R32; log 7). -/
  pc : Word
  /-- SP: one past the topmost occupied stack slot (R33). -/
  sp : Nat
  /-- LATCH (R34). -/
  latch : Latch
  /-- RUNSTATE (R35). -/
  runState : RunState
  /-- ERR, `none` being NONE (R36). -/
  err : Option ErrorCode
  /-- The parameter M (R6). -/
  memSize : Nat
  /-- The parameter S (R7). -/
  stackSize : Nat
  /-- The parameter TRACE (R9). -/
  traceOn : Bool
deriving DecidableEq, Repr

/-- The reasons a step could stop with a fault. There is none: every error of the spec is an error halt whose entry the
spec describes (R279), and the step takes it as a next state (log 6). -/
inductive Fault where
deriving DecidableEq, Repr

/-- The reasons a step could refuse. -/
inductive Refusal where
  /-- An instruction that has no meaning yet; raised by an arm of `exec` only. Safe: nothing runs. No arm raises it: every
  instruction of the table has its meaning. -/
  | notModelled (mnemonic : String)
deriving DecidableEq, Repr

/-- The state a construction with sizes M and S leaves (R45, R300). -/
def State.initial (memSize stackSize : Nat) (traceOn : Bool) : State where
  mem := []
  pc := 0
  sp := 0
  latch := .active
  runState := .running
  err := none
  memSize := memSize
  stackSize := stackSize
  traceOn := traceOn

/-- The state right after reset (R45), of an engine with the sizes of `Config` (logs 1 and 2). -/
def State.reset : State :=
  State.initial Config.resetMemSize Config.resetStackSize Config.resetTrace

end Sys2Proof.Machine
end

