-- ==== Sys2Proof/Machine/Ops.lean ====
section
/-! DEFINITION. The named operations: one byte of Memory, the Memory unit, the Stack unit (20_memory.md R61 to R76), the target check, the error halt, and the commit of an instruction (R112, R113, R279). -/
namespace Sys2Proof.Machine

/-! ### One byte of Memory -/

/-- What an address that is not listed reads as: the reset value 0x00 (R45; log 5). -/
def unlistedByte : Byte := 0

/-- The byte at an address. -/
def Memory.read : Memory → Nat → Byte
  | [], _ => unlistedByte
  | (c, v) :: m, a => if c = a then v else Memory.read m a

/-- Put a cell in front, unless it says what an unlisted address reads as. -/
def Memory.cons (a : Nat) (b : Byte) (m : Memory) : Memory :=
  if b = unlistedByte then m else (a, b) :: m

/-- Write one byte, keeping the canonical form. -/
def Memory.write : Memory → Nat → Byte → Memory
  | [], a, b => Memory.cons a b []
  | (c, v) :: m, a, b =>
    if a < c then Memory.cons a b ((c, v) :: m)
    else if a = c then Memory.cons a b m
    else (c, v) :: Memory.write m a b

/-- The cells lie at strictly rising addresses from `lo` up, below `hi`, and none says what an unlisted address reads as. -/
def Memory.wfBetween (lo hi : Nat) : Memory → Bool
  | [] => true
  | (c, v) :: m => decide (lo ≤ c) && decide (c < hi) && decide (v ≠ unlistedByte) && Memory.wfBetween (c + 1) hi m

/-- The canonical form of a Memory of `memSize` bytes: equal contents are equal lists. -/
def Memory.wf (memSize : Nat) (m : Memory) : Bool :=
  Memory.wfBetween 0 memSize m

/-- The value of the `n` bytes from address `a` up, little-endian (R62, R65). -/
def Memory.readLE (m : Memory) (a : Nat) : Nat → Nat
  | 0 => 0
  | n + 1 => (m.read a).toNat + 256 * Memory.readLE m (a + 1) n

/-- Write the low `n` bytes of `v` from address `a` up, little-endian (R63, R65). -/
def Memory.writeLE (m : Memory) (a : Nat) : Nat → Nat → Memory
  | 0, _ => m
  | n + 1, v => Memory.writeLE (m.write a (BitVec.ofNat 8 v)) (a + 1) n (v / 256)

/-- Write a byte sequence from address `a` up. -/
def Memory.writeBytes (m : Memory) (a : Nat) : List Byte → Memory
  | [] => m
  | b :: bs => Memory.writeBytes (m.write a b) (a + 1) bs

/-! ### Steps of an instruction's pseudocode -/

/-- What a piece of pseudocode gives (R14): a value and the state so far, or the error raised and the state at the raise,
of which only LATCH is kept (R279). -/
inductive Res (α : Type) where
  | ok (a : α) (s : State)
  | raised (e : ErrorCode) (s : State)
deriving DecidableEq, Repr

/-- Statements execute in the order written, and the first raise reached ends the instruction (R14). -/
def Res.bind {α β : Type} (r : Res α) (f : α → State → Res β) : Res β :=
  match r with
  | .ok a s => f a s
  | .raised e s => .raised e s

/-! ### The Memory unit -/

/-- The bounds rule (R61), on unbounded integers (D8). -/
abbrev inBounds (s : State) (a : Int) (n : Nat) : Prop :=
  0 ≤ a ∧ a + n ≤ s.memSize

/-- MemRead(a, n) (R62): the unsigned 8n-bit value at a. No side effect (R85). -/
def memRead (a : Int) (n : Nat) (s : State) : Res Nat :=
  if inBounds s a n then .ok (s.mem.readLE a.toNat n) s
  else .raised .memoryError s

/-- MemWrite(a, n, v) (R63): all or nothing. -/
def memWrite (a : Int) (n : Nat) (v : Nat) (s : State) : Res Unit :=
  if inBounds s a n then .ok () { s with mem := s.mem.writeLE a.toNat n v }
  else .raised .memoryError s

/-! ### The Stack unit -/

/-- The absolute address of stack slot `i`, M - S + i (R38, R70). -/
def slotAddress (s : State) (i : Int) : Int :=
  s.memSize - s.stackSize + i

/-- Push(n, v) (R71). -/
def push (n : Nat) (v : Nat) (s : State) : Res Unit :=
  if s.latch ≠ .active then .raised .blocked s
  else if s.stackSize < s.sp + n then .raised .stackOverflow { s with latch := .overflowed }
  else (memWrite (slotAddress s s.sp) n v s).bind fun _ s' => .ok () { s' with sp := s.sp + n }

/-- Pop(n) (R72). The popped bytes stay in MEM (R76). -/
def pop (n : Nat) (s : State) : Res Nat :=
  if s.latch ≠ .active then .raised .blocked s
  else if s.sp < n then .raised .stackUnderflow { s with latch := .underflowed }
  else memRead (slotAddress s (s.sp - n : Nat)) n { s with sp := s.sp - n }

/-- The whole window bounds a peek or poke at slot `i` (R73, R74; D9). -/
abbrev inWindow (s : State) (i : Int) (n : Nat) : Prop :=
  0 ≤ i ∧ i + n ≤ s.stackSize

/-- Peek(off, n) (R73). SP does not move, and no failure touches LATCH (R75). -/
def peek (off : Int) (n : Nat) (s : State) : Res Nat :=
  if s.latch ≠ .active then .raised .blocked s
  else if inWindow s (s.sp + off) n then memRead (slotAddress s (s.sp + off)) n s
  else .raised .memoryError s

/-- Poke(off, n, v) (R74). SP does not move, and no failure touches LATCH (R75). -/
def poke (off : Int) (n : Nat) (v : Nat) (s : State) : Res Unit :=
  if s.latch ≠ .active then .raised .blocked s
  else if inWindow s (s.sp + off) n then memWrite (slotAddress s (s.sp + off)) n v s
  else .raised .memoryError s

/-! ### Redirecting the program counter -/

/-- How an instruction leaves PC (R113). -/
inductive Flow where
  /-- The default advance past the opcode and its operand. -/
  | advance
  /-- `PC <- t`. -/
  | redirect (t : Word)
deriving DecidableEq, Repr

/-- A legal target: 0 ≤ t < M (R230). -/
abbrev legalTarget (s : State) (t : Word) : Prop :=
  0 ≤ t.toInt ∧ t.toInt < s.memSize

/-- `CheckTarget(t); PC <- t` (R230). -/
def redirectTo (t : Word) (s : State) : Res Flow :=
  if legalTarget s t then .ok (.redirect t) s
  else .raised .illegalAddress s

/-! ### Halt entry and commit -/

/-- The error halt, the only trap of this hardware (R279): MEM, SP and PC are as the step found them in `s0`, LATCH keeps
what the step gave it, and ERR records the error. No instruction returns from it (R281). -/
def haltError (s0 : State) (latch : Latch) (e : ErrorCode) : State :=
  { s0 with latch := latch, runState := .haltedError, err := some e }

/-- The end of an instruction with `opw` operand bytes that began in `s0` (R112): commit with the default advance or the
redirect (R113), or roll back into the error halt. -/
def commit (opw : Nat) (s0 : State) : Res Flow → Host.Outcome State Fault Refusal
  | .ok .advance s => .next { s with pc := BitVec.ofInt 64 (s0.pc.toInt + 1 + opw) }
  | .ok (.redirect t) s => .next { s with pc := t }
  | .raised e s => .next (haltError s0 s.latch e)

/-- The last statement of a body that takes the default advance. -/
def Res.thenAdvance {α : Type} (r : Res α) : Res Flow :=
  r.bind fun _ s => .ok .advance s

end Sys2Proof.Machine
end

