-- ==== Sys2Proof/Machine/Operands.lean ====
section
/-! DEFINITION. Values and operand forms: the three types and their widths (00_scope.md R13), typed pops and pushes (20_memory.md R71, R72), and the addressing modes (40_data_movement.md R130). -/
namespace Sys2Proof.Machine

/-- The three types of typed instructions (R13). -/
inductive Ty where
  | byte
  | int
  | float
deriving DecidableEq, Repr

/-- w(T), the width of a type in bytes (R13). -/
def Ty.width : Ty → Nat
  | .byte => 1
  | .int => 8
  | .float => 8

/-- `sext_64(p)`: a 64-bit pattern read as a two's complement s64 (R12). -/
def sext64 (p : Word) : Int := p.toInt

/-- `pat64(wrap64(x))`: the pattern of the s64 congruent to x mod 2^64 (R12). -/
def wrap64 (x : Int) : Word := BitVec.ofInt 64 x

/-- `wrap8(x) = x mod 256` (R12). -/
def wrap8 (x : Int) : Byte := BitVec.ofInt 8 x

/-- Pop(1) as a byte value (R72). -/
def popByte (s : State) : Res Byte :=
  (pop 1 s).bind fun v s => .ok (BitVec.ofNat 8 v) s

/-- Pop(8) as a 64-bit pattern (R72). -/
def popWord (s : State) : Res Word :=
  (pop 8 s).bind fun v s => .ok (BitVec.ofNat 64 v) s

/-- Push(1, b) (R71). -/
def pushByte (b : Byte) (s : State) : Res Unit := push 1 b.toNat s

/-- Push(8, p) (R71). -/
def pushWord (p : Word) (s : State) : Res Unit := push 8 p.toNat s

/-- Pop B, the top, and then A, the deeper value, of one byte each, and go on with A and B (R16, R170). -/
def withBytes {α : Type} (s : State) (f : Byte → Byte → State → Res α) : Res α :=
  (popByte s).bind fun b s => (popByte s).bind fun a s => f a b s

/-- Pop B, the top, and then A, the deeper value, of eight bytes each, and go on with A and B (R16, R170). -/
def withWords {α : Type} (s : State) (f : Word → Word → State → Res α) : Res α :=
  (popWord s).bind fun b s => (popWord s).bind fun a s => f a b s

/-! ### Addressing modes -/

/-- The bodies of get-T and get-T-address after their address is known (R137, R143): read Memory, then push. -/
def getFrom (t : Ty) (a : Int) (s : State) : Res Flow :=
  (memRead a t.width s).bind fun v s => (push t.width v s).thenAdvance

/-- The bodies of put-T and put-T-address after their address is known (R140, R146): pop the value, then write Memory. -/
def putTo (t : Ty) (a : Int) (s : State) : Res Flow :=
  (pop t.width s).bind fun v s => (memWrite a t.width v s).thenAdvance

/-- Indirect mode: the address is popped from the Stack (R130). -/
def withPoppedAddress (s : State) (f : Int → State → Res Flow) : Res Flow :=
  (popWord s).bind fun p s => f (sext64 p) s

/-- The body of get-T-stack (R149): peek relative to SP before the push. -/
def getAtOffset (t : Ty) (off : Word) (s : State) : Res Flow :=
  (peek (sext64 off) t.width s).bind fun v s => (push t.width v s).thenAdvance

/-- The body of put-T-stack (R152): pop, then poke relative to SP after the pop (D10). -/
def putAtOffset (t : Ty) (off : Word) (s : State) : Res Flow :=
  (pop t.width s).bind fun v s => (poke (sext64 off) t.width v s).thenAdvance

end Sys2Proof.Machine
end

