-- ==== Sys2Proof/Syntax.lean ====
section
/-! DEFINITION. The instruction syntax: one constructor per row of spec/opcode_table.json (30_encoding.md R108). An operand is the bit pattern its format carries (R101, R105): a byte for imm8; a word for an int immediate, a float pattern, an absolute address, a stack offset or a jump target. -/
namespace Sys2Proof

/-- The 69 instructions of the opcode table (R108). The operand of a `Word` constructor is the 64-bit pattern of
bytes 1..8; an int, address, offset or target is read from it by `sext_64` where it is used (R105). -/
inductive Instr where
  -- Data movement (40_data_movement.md)
  /-- `push-byte`, opcode 0x08, format F1 (R131). -/
  | pushByte (imm : Byte)
  /-- `push-int`, opcode 0x09, format F8 (R132). -/
  | pushInt (imm : Word)
  /-- `push-float`, opcode 0x0A, format F8 (R133). -/
  | pushFloat (bits : Word)
  /-- `pop-byte`, opcode 0x0C, format F0 (R134). -/
  | popByte
  /-- `pop-int`, opcode 0x0D, format F0 (R135). -/
  | popInt
  /-- `pop-float`, opcode 0x0E, format F0 (R136). -/
  | popFloat
  /-- `get-byte`, opcode 0x10, format F0 (R137). -/
  | getByte
  /-- `get-int`, opcode 0x11, format F0 (R138). -/
  | getInt
  /-- `get-float`, opcode 0x12, format F0 (R139). -/
  | getFloat
  /-- `put-byte`, opcode 0x18, format F0 (R140). -/
  | putByte
  /-- `put-int`, opcode 0x19, format F0 (R141). -/
  | putInt
  /-- `put-float`, opcode 0x1A, format F0 (R142). -/
  | putFloat
  /-- `get-byte-address`, opcode 0x20, format F8 (R143). -/
  | getByteAddress (addr : Word)
  /-- `get-int-address`, opcode 0x21, format F8 (R144). -/
  | getIntAddress (addr : Word)
  /-- `get-float-address`, opcode 0x22, format F8 (R145). -/
  | getFloatAddress (addr : Word)
  /-- `put-byte-address`, opcode 0x28, format F8 (R146). -/
  | putByteAddress (addr : Word)
  /-- `put-int-address`, opcode 0x29, format F8 (R147). -/
  | putIntAddress (addr : Word)
  /-- `put-float-address`, opcode 0x2A, format F8 (R148). -/
  | putFloatAddress (addr : Word)
  /-- `get-byte-stack`, opcode 0x30, format F8 (R149). -/
  | getByteStack (off : Word)
  /-- `get-int-stack`, opcode 0x31, format F8 (R150). -/
  | getIntStack (off : Word)
  /-- `get-float-stack`, opcode 0x32, format F8 (R151). -/
  | getFloatStack (off : Word)
  /-- `put-byte-stack`, opcode 0x38, format F8 (R152). -/
  | putByteStack (off : Word)
  /-- `put-int-stack`, opcode 0x39, format F8 (R153). -/
  | putIntStack (off : Word)
  /-- `put-float-stack`, opcode 0x3A, format F8 (R154). -/
  | putFloatStack (off : Word)
  -- Arithmetic (41_arithmetic.md)
  /-- `add-byte`, opcode 0x40, format F0 (R175). -/
  | addByte
  /-- `add-int`, opcode 0x41, format F0 (R176). -/
  | addInt
  /-- `add-float`, opcode 0x42, format F0 (R177). -/
  | addFloat
  /-- `sub-byte`, opcode 0x44, format F0 (R178). -/
  | subByte
  /-- `sub-int`, opcode 0x45, format F0 (R179). -/
  | subInt
  /-- `sub-float`, opcode 0x46, format F0 (R180). -/
  | subFloat
  /-- `mul-byte`, opcode 0x48, format F0 (R181). -/
  | mulByte
  /-- `mul-int`, opcode 0x49, format F0 (R182). -/
  | mulInt
  /-- `mul-float`, opcode 0x4A, format F0 (R183). -/
  | mulFloat
  /-- `div-byte`, opcode 0x4C, format F0 (R184). -/
  | divByte
  /-- `div-int`, opcode 0x4D, format F0 (R185). -/
  | divInt
  /-- `div-float`, opcode 0x4E, format F0 (R186). -/
  | divFloat
  -- Comparison and byte logic (42_compare_logic.md)
  /-- `equal-byte`, opcode 0x60, format F0 (R203). -/
  | equalByte
  /-- `equal-int`, opcode 0x61, format F0 (R204). -/
  | equalInt
  /-- `equal-float`, opcode 0x62, format F0 (R205). -/
  | equalFloat
  /-- `unequal-byte`, opcode 0x64, format F0 (R206). -/
  | unequalByte
  /-- `unequal-int`, opcode 0x65, format F0 (R207). -/
  | unequalInt
  /-- `unequal-float`, opcode 0x66, format F0 (R208). -/
  | unequalFloat
  /-- `greater-byte`, opcode 0x68, format F0 (R209). -/
  | greaterByte
  /-- `greater-int`, opcode 0x69, format F0 (R210). -/
  | greaterInt
  /-- `greater-float`, opcode 0x6A, format F0 (R211). -/
  | greaterFloat
  /-- `smaller-byte`, opcode 0x6C, format F0 (R212). -/
  | smallerByte
  /-- `smaller-int`, opcode 0x6D, format F0 (R213). -/
  | smallerInt
  /-- `smaller-float`, opcode 0x6E, format F0 (R214). -/
  | smallerFloat
  /-- `and`, opcode 0x70, format F0 (R215). -/
  | andByte
  /-- `or`, opcode 0x71, format F0 (R216). -/
  | orByte
  /-- `not`, opcode 0x72, format F0 (R217). -/
  | notByte
  /-- `xor`, opcode 0x73, format F0 (R218). -/
  | xorByte
  -- Control flow (43_control_flow.md)
  /-- `end`, opcode 0x00, format F0 (R232). -/
  | endOp
  /-- `ret`, opcode 0xE0, format F0 (R233). -/
  | ret
  /-- `jmp`, opcode 0xE1, format F8 (R234). -/
  | jmp (target : Word)
  /-- `jmpz-byte`, opcode 0xE4, format F0 (R235). -/
  | jmpzByte
  /-- `jmpz-int`, opcode 0xE5, format F0 (R236). -/
  | jmpzInt
  /-- `jmpz-float`, opcode 0xE6, format F0 (R237). -/
  | jmpzFloat
  /-- `jmpz-byte-address`, opcode 0xE8, format F8 (R238). -/
  | jmpzByteAddress (target : Word)
  /-- `jmpz-int-address`, opcode 0xE9, format F8 (R239). -/
  | jmpzIntAddress (target : Word)
  /-- `jmpz-float-address`, opcode 0xEA, format F8 (R240). -/
  | jmpzFloatAddress (target : Word)
  /-- `jmpnz-byte`, opcode 0xEC, format F0 (R241). -/
  | jmpnzByte
  /-- `jmpnz-int`, opcode 0xED, format F0 (R242). -/
  | jmpnzInt
  /-- `jmpnz-float`, opcode 0xEE, format F0 (R243). -/
  | jmpnzFloat
  /-- `jmpnz-byte-address`, opcode 0xF0, format F8 (R244). -/
  | jmpnzByteAddress (target : Word)
  /-- `jmpnz-int-address`, opcode 0xF1, format F8 (R245). -/
  | jmpnzIntAddress (target : Word)
  /-- `jmpnz-float-address`, opcode 0xF2, format F8 (R246). -/
  | jmpnzFloatAddress (target : Word)
  /-- `call`, opcode 0xF8, format F0 (R247). -/
  | call
  /-- `call-address`, opcode 0xF9, format F8 (R248). -/
  | callAddress (target : Word)
deriving DecidableEq, Repr

end Sys2Proof
end

