-- ==== Sys2Proof/Machine/Arithmetic.lean ====
section
/-! DEFINITION. The meanings of the arithmetic family (41_arithmetic.md R170 to R186). A is the deeper operand, B the top. -/
namespace Sys2Proof.Machine

/-- The common sequence for bytes: pop B, pop A, push the result (R170). -/
def byteArith (op : Byte → Byte → Byte) (s : State) : Res Flow :=
  withBytes s fun a b s => (pushByte (op a b) s).thenAdvance

/-- The common sequence for ints and floats: pop B, pop A, push the result (R170). -/
def wordArith (op : Word → Word → Word) (s : State) : Res Flow :=
  withWords s fun a b s => (pushWord (op a b) s).thenAdvance

/-- wrap8(A + B) (R171). -/
def byteAdd (a b : Byte) : Byte := wrap8 (a.toNat + b.toNat)

/-- wrap8(A − B) (R171). -/
def byteSub (a b : Byte) : Byte := wrap8 (a.toNat - b.toNat)

/-- wrap8(A × B) (R171). -/
def byteMul (a b : Byte) : Byte := wrap8 (a.toNat * b.toNat)

/-- floor(A / B), unsigned, for B ≠ 0 (R171, R173). -/
def byteDiv (a b : Byte) : Byte := BitVec.ofNat 8 (a.toNat / b.toNat)

/-- wrap64(A + B) (R172). -/
def intAdd (a b : Word) : Word := wrap64 (sext64 a + sext64 b)

/-- wrap64(A − B) (R172). -/
def intSub (a b : Word) : Word := wrap64 (sext64 a - sext64 b)

/-- wrap64(A × B) (R172). -/
def intMul (a b : Word) : Word := wrap64 (sext64 a * sext64 b)

/-- wrap64(trunc(A / B)), rounding toward zero, for B ≠ 0 (R173; D17, log 16). -/
def intDiv (a b : Word) : Word := wrap64 ((sext64 a).tdiv (sext64 b))

/-! ### add -/

/-- add-byte (R175). -/
def execAddByte (s : State) : Host.Outcome State Fault Refusal :=
  commit 0 s (byteArith byteAdd s)

/-- add-int (R176). -/
def execAddInt (s : State) : Host.Outcome State Fault Refusal :=
  commit 0 s (wordArith intAdd s)

/-- add-float (R177). -/
def execAddFloat (s : State) : Host.Outcome State Fault Refusal :=
  commit 0 s (wordArith fadd s)

/-! ### sub -/

/-- sub-byte (R178). -/
def execSubByte (s : State) : Host.Outcome State Fault Refusal :=
  commit 0 s (byteArith byteSub s)

/-- sub-int (R179). -/
def execSubInt (s : State) : Host.Outcome State Fault Refusal :=
  commit 0 s (wordArith intSub s)

/-- sub-float (R180). -/
def execSubFloat (s : State) : Host.Outcome State Fault Refusal :=
  commit 0 s (wordArith fsub s)

/-! ### mul -/

/-- mul-byte (R181). -/
def execMulByte (s : State) : Host.Outcome State Fault Refusal :=
  commit 0 s (byteArith byteMul s)

/-- mul-int (R182). -/
def execMulInt (s : State) : Host.Outcome State Fault Refusal :=
  commit 0 s (wordArith intMul s)

/-- mul-float (R183). -/
def execMulFloat (s : State) : Host.Outcome State Fault Refusal :=
  commit 0 s (wordArith fmul s)

/-! ### div -/

/-- div-byte (R184): ArithmeticError for B = 0, after both pops (R277). -/
def execDivByte (s : State) : Host.Outcome State Fault Refusal :=
  commit 0 s (withBytes s fun a b s =>
    if b = 0 then .raised .arithmeticError s
    else (pushByte (byteDiv a b) s).thenAdvance)

/-- div-int (R185): ArithmeticError for B = 0, after both pops (R277). -/
def execDivInt (s : State) : Host.Outcome State Fault Refusal :=
  commit 0 s (withWords s fun a b s =>
    if sext64 b = 0 then .raised .arithmeticError s
    else (pushWord (intDiv a b) s).thenAdvance)

/-- div-float (R186): division by zero follows IEEE-754 and does not fault. -/
def execDivFloat (s : State) : Host.Outcome State Fault Refusal :=
  commit 0 s (wordArith fdiv s)

end Sys2Proof.Machine
end

