-- ==== Sys2Proof/Machine/Flags.lean ====
section
/-! DEFINITION. Conditions. The hardware has no flags (10_state.md R37): a comparison pushes a truth byte (42_compare_logic.md R200 to R202) and a conditional jump tests a popped value for zero (43_control_flow.md R231). -/
namespace Sys2Proof.Machine

/-- True is the byte 0xFF and false the byte 0x00 (R201). -/
def truthByte (b : Bool) : Byte := if b then 0xFF else 0x00

/-- Pop B and A as bytes, and push the truth byte of a relation of A and B (R200). -/
def compareBytes (rel : Byte → Byte → Bool) (s : State) : Res Flow :=
  withBytes s fun a b s => (pushByte (truthByte (rel a b)) s).thenAdvance

/-- Pop B and A as words, and push the truth byte of a relation of A and B (R200, R201). -/
def compareWords (rel : Word → Word → Bool) (s : State) : Res Flow :=
  withWords s fun a b s => (pushByte (truthByte (rel a b)) s).thenAdvance

/-- isZero_byte (R231). -/
def isZeroByte (v : Byte) : Bool := v == 0

/-- isZero_int (R231). -/
def isZeroInt (v : Word) : Bool := decide (sext64 v = 0)

/-- isZero_float (R231): IEEE equality with +0.0, so −0.0 is zero and no NaN is. -/
def isZeroFloat (v : Word) : Bool := feq v 0

end Sys2Proof.Machine
end

