-- ==== Sys2Proof/Machine/CompareLogic.lean ====
section
/-! DEFINITION. The meanings of the comparisons and of the byte logic (42_compare_logic.md R200 to R218). A is the deeper operand, B the top. Bytes compare unsigned, ints signed, floats by IEEE-754 (R202). -/
namespace Sys2Proof.Machine

/-! ### equal -/

/-- equal-byte (R203). -/
def execEqualByte (s : State) : Host.Outcome State Fault Refusal :=
  commit 0 s (compareBytes (fun a b => decide (a.toNat = b.toNat)) s)

/-- equal-int (R204). -/
def execEqualInt (s : State) : Host.Outcome State Fault Refusal :=
  commit 0 s (compareWords (fun a b => decide (sext64 a = sext64 b)) s)

/-- equal-float (R205). -/
def execEqualFloat (s : State) : Host.Outcome State Fault Refusal :=
  commit 0 s (compareWords feq s)

/-! ### unequal -/

/-- unequal-byte (R206). -/
def execUnequalByte (s : State) : Host.Outcome State Fault Refusal :=
  commit 0 s (compareBytes (fun a b => decide (a.toNat ≠ b.toNat)) s)

/-- unequal-int (R207). -/
def execUnequalInt (s : State) : Host.Outcome State Fault Refusal :=
  commit 0 s (compareWords (fun a b => decide (sext64 a ≠ sext64 b)) s)

/-- unequal-float (R208). -/
def execUnequalFloat (s : State) : Host.Outcome State Fault Refusal :=
  commit 0 s (compareWords (fun a b => !feq a b) s)

/-! ### greater -/

/-- greater-byte (R209). -/
def execGreaterByte (s : State) : Host.Outcome State Fault Refusal :=
  commit 0 s (compareBytes (fun a b => decide (b.toNat < a.toNat)) s)

/-- greater-int (R210). -/
def execGreaterInt (s : State) : Host.Outcome State Fault Refusal :=
  commit 0 s (compareWords (fun a b => decide (sext64 b < sext64 a)) s)

/-- greater-float (R211). -/
def execGreaterFloat (s : State) : Host.Outcome State Fault Refusal :=
  commit 0 s (compareWords fgt s)

/-! ### smaller -/

/-- smaller-byte (R212). -/
def execSmallerByte (s : State) : Host.Outcome State Fault Refusal :=
  commit 0 s (compareBytes (fun a b => decide (a.toNat < b.toNat)) s)

/-- smaller-int (R213). -/
def execSmallerInt (s : State) : Host.Outcome State Fault Refusal :=
  commit 0 s (compareWords (fun a b => decide (sext64 a < sext64 b)) s)

/-- smaller-float (R214). -/
def execSmallerFloat (s : State) : Host.Outcome State Fault Refusal :=
  commit 0 s (compareWords flt s)

/-! ### Bitwise logic (byte only) -/

/-- Pop B, pop A, push the result (R215). -/
def byteLogic (op : Byte → Byte → Byte) (s : State) : Res Flow :=
  withBytes s fun a b s => (pushByte (op a b) s).thenAdvance

/-- and (R215). -/
def execAndByte (s : State) : Host.Outcome State Fault Refusal :=
  commit 0 s (byteLogic (fun a b => a &&& b) s)

/-- or (R216). -/
def execOrByte (s : State) : Host.Outcome State Fault Refusal :=
  commit 0 s (byteLogic (fun a b => a ||| b) s)

/-- not (R217). -/
def execNotByte (s : State) : Host.Outcome State Fault Refusal :=
  commit 0 s ((popByte s).bind fun a s => (pushByte (0xFF ^^^ a) s).thenAdvance)

/-- xor (R218). -/
def execXorByte (s : State) : Host.Outcome State Fault Refusal :=
  commit 0 s (byteLogic (fun a b => a ^^^ b) s)

end Sys2Proof.Machine
end

