-- ==== Sys2Proof/Machine/ControlFlow.lean ====
section
/-! DEFINITION. The meanings of the control flow family: End, jumps, calls and return (43_control_flow.md R230 to R250). -/
namespace Sys2Proof.Machine

/-- Redirect to `t` if the condition holds, else take the default advance; an untaken jump checks no target (R230). -/
def jumpIf (taken : Bool) (t : Word) (s : State) : Res Flow :=
  if taken then redirectTo t s else .ok .advance s

/-- A conditional jump with the target on top of the Stack and a byte beneath it (R235). -/
def jumpByteStack (cond : Byte → Bool) (s : State) : Res Flow :=
  (popWord s).bind fun t s => (popByte s).bind fun v s => jumpIf (cond v) t s

/-- A conditional jump with the target on top of the Stack and an int or float beneath it (R236). -/
def jumpWordStack (cond : Word → Bool) (s : State) : Res Flow :=
  (popWord s).bind fun t s => (popWord s).bind fun v s => jumpIf (cond v) t s

/-- A conditional jump with a literal target and a byte on top of the Stack (R238). -/
def jumpByteLiteral (cond : Byte → Bool) (target : Word) (s : State) : Res Flow :=
  (popByte s).bind fun v s => jumpIf (cond v) target s

/-- A conditional jump with a literal target and an int or float on top of the Stack (R239). -/
def jumpWordLiteral (cond : Word → Bool) (target : Word) (s : State) : Res Flow :=
  (popWord s).bind fun v s => jumpIf (cond v) target s

/-- end (R232): halt cleanly; PC, SP, MEM, LATCH and ERR stay, PC at the 0x00 byte. -/
def execEndOp (s : State) : Host.Outcome State Fault Refusal :=
  .next { s with runState := .haltedClean }

/-! ### Unconditional transfers -/

/-- ret (R233). -/
def execRet (s : State) : Host.Outcome State Fault Refusal :=
  commit 0 s ((popWord s).bind fun t s => redirectTo t s)

/-- jmp (R234). -/
def execJmp (target : Word) (s : State) : Host.Outcome State Fault Refusal :=
  commit 8 s (redirectTo target s)

/-! ### Conditional jumps, target from the Stack: the fall-through is 1 byte (R250) -/

/-- jmpz-byte (R235). -/
def execJmpzByte (s : State) : Host.Outcome State Fault Refusal :=
  commit 0 s (jumpByteStack isZeroByte s)

/-- jmpz-int (R236). -/
def execJmpzInt (s : State) : Host.Outcome State Fault Refusal :=
  commit 0 s (jumpWordStack isZeroInt s)

/-- jmpz-float (R237). -/
def execJmpzFloat (s : State) : Host.Outcome State Fault Refusal :=
  commit 0 s (jumpWordStack isZeroFloat s)

/-- jmpnz-byte (R241). -/
def execJmpnzByte (s : State) : Host.Outcome State Fault Refusal :=
  commit 0 s (jumpByteStack (fun v => !isZeroByte v) s)

/-- jmpnz-int (R242). -/
def execJmpnzInt (s : State) : Host.Outcome State Fault Refusal :=
  commit 0 s (jumpWordStack (fun v => !isZeroInt v) s)

/-- jmpnz-float (R243). -/
def execJmpnzFloat (s : State) : Host.Outcome State Fault Refusal :=
  commit 0 s (jumpWordStack (fun v => !isZeroFloat v) s)

/-! ### Conditional jumps, literal target: the fall-through is 9 bytes (R250) -/

/-- jmpz-byte-address (R238). -/
def execJmpzByteAddress (target : Word) (s : State) : Host.Outcome State Fault Refusal :=
  commit 8 s (jumpByteLiteral isZeroByte target s)

/-- jmpz-int-address (R239). -/
def execJmpzIntAddress (target : Word) (s : State) : Host.Outcome State Fault Refusal :=
  commit 8 s (jumpWordLiteral isZeroInt target s)

/-- jmpz-float-address (R240). -/
def execJmpzFloatAddress (target : Word) (s : State) : Host.Outcome State Fault Refusal :=
  commit 8 s (jumpWordLiteral isZeroFloat target s)

/-- jmpnz-byte-address (R244). -/
def execJmpnzByteAddress (target : Word) (s : State) : Host.Outcome State Fault Refusal :=
  commit 8 s (jumpByteLiteral (fun v => !isZeroByte v) target s)

/-- jmpnz-int-address (R245). -/
def execJmpnzIntAddress (target : Word) (s : State) : Host.Outcome State Fault Refusal :=
  commit 8 s (jumpWordLiteral (fun v => !isZeroInt v) target s)

/-- jmpnz-float-address (R246). -/
def execJmpnzFloatAddress (target : Word) (s : State) : Host.Outcome State Fault Refusal :=
  commit 8 s (jumpWordLiteral (fun v => !isZeroFloat v) target s)

/-! ### Calls -/

/-- The return address of a call with `opw` operand bytes, PC0 + 1 + opw (R247, R248). -/
def returnAddress (opw : Nat) (s : State) : Word := wrap64 (sext64 s.pc + 1 + opw)

/-- call (R247): pop the target, push PC0 + 1, then check the target (D20). -/
def execCall (s : State) : Host.Outcome State Fault Refusal :=
  commit 0 s ((popWord s).bind fun t s =>
    (pushWord (returnAddress 0 s) s).bind fun _ s => redirectTo t s)

/-- call-address (R248): push PC0 + 9, then check the target (D20). -/
def execCallAddress (target : Word) (s : State) : Host.Outcome State Fault Refusal :=
  commit 8 s ((pushWord (returnAddress 8 s) s).bind fun _ s => redirectTo target s)

end Sys2Proof.Machine
end

