-- ==== Sys2Proof/Machine/DataMovement.lean ====
section
/-! DEFINITION. The meanings of the data movement family: push, pop, get, put in four addressing modes (40_data_movement.md R130 to R154). Bytes are moved bit for bit. -/
namespace Sys2Proof.Machine

/-! ### push-T (immediate) -/

/-- push-byte (R131). -/
def execPushByte (imm : Byte) (s : State) : Host.Outcome State Fault Refusal :=
  commit 1 s (pushByte imm s).thenAdvance

/-- push-int (R132). -/
def execPushInt (imm : Word) (s : State) : Host.Outcome State Fault Refusal :=
  commit 8 s (pushWord imm s).thenAdvance

/-- push-float (R133). -/
def execPushFloat (bits : Word) (s : State) : Host.Outcome State Fault Refusal :=
  commit 8 s (pushWord bits s).thenAdvance

/-! ### pop-T (discard) -/

/-- pop-byte (R134). -/
def execPopByte (s : State) : Host.Outcome State Fault Refusal :=
  commit 0 s (pop Ty.byte.width s).thenAdvance

/-- pop-int (R135). -/
def execPopInt (s : State) : Host.Outcome State Fault Refusal :=
  commit 0 s (pop Ty.int.width s).thenAdvance

/-- pop-float (R136). -/
def execPopFloat (s : State) : Host.Outcome State Fault Refusal :=
  commit 0 s (pop Ty.float.width s).thenAdvance

/-! ### get-T and put-T (indirect: the address is popped) -/

/-- get-byte (R137). -/
def execGetByte (s : State) : Host.Outcome State Fault Refusal :=
  commit 0 s (withPoppedAddress s (getFrom .byte))

/-- get-int (R138). -/
def execGetInt (s : State) : Host.Outcome State Fault Refusal :=
  commit 0 s (withPoppedAddress s (getFrom .int))

/-- get-float (R139). -/
def execGetFloat (s : State) : Host.Outcome State Fault Refusal :=
  commit 0 s (withPoppedAddress s (getFrom .float))

/-- put-byte (R140). -/
def execPutByte (s : State) : Host.Outcome State Fault Refusal :=
  commit 0 s (withPoppedAddress s (putTo .byte))

/-- put-int (R141). -/
def execPutInt (s : State) : Host.Outcome State Fault Refusal :=
  commit 0 s (withPoppedAddress s (putTo .int))

/-- put-float (R142). -/
def execPutFloat (s : State) : Host.Outcome State Fault Refusal :=
  commit 0 s (withPoppedAddress s (putTo .float))

/-! ### get-T-address and put-T-address (absolute: literal address) -/

/-- get-byte-address (R143). -/
def execGetByteAddress (addr : Word) (s : State) : Host.Outcome State Fault Refusal :=
  commit 8 s (getFrom .byte (sext64 addr) s)

/-- get-int-address (R144). -/
def execGetIntAddress (addr : Word) (s : State) : Host.Outcome State Fault Refusal :=
  commit 8 s (getFrom .int (sext64 addr) s)

/-- get-float-address (R145). -/
def execGetFloatAddress (addr : Word) (s : State) : Host.Outcome State Fault Refusal :=
  commit 8 s (getFrom .float (sext64 addr) s)

/-- put-byte-address (R146). -/
def execPutByteAddress (addr : Word) (s : State) : Host.Outcome State Fault Refusal :=
  commit 8 s (putTo .byte (sext64 addr) s)

/-- put-int-address (R147). -/
def execPutIntAddress (addr : Word) (s : State) : Host.Outcome State Fault Refusal :=
  commit 8 s (putTo .int (sext64 addr) s)

/-- put-float-address (R148). -/
def execPutFloatAddress (addr : Word) (s : State) : Host.Outcome State Fault Refusal :=
  commit 8 s (putTo .float (sext64 addr) s)

/-! ### get-T-stack and put-T-stack (stack-relative: literal signed offset) -/

/-- get-byte-stack (R149). -/
def execGetByteStack (off : Word) (s : State) : Host.Outcome State Fault Refusal :=
  commit 8 s (getAtOffset .byte off s)

/-- get-int-stack (R150). -/
def execGetIntStack (off : Word) (s : State) : Host.Outcome State Fault Refusal :=
  commit 8 s (getAtOffset .int off s)

/-- get-float-stack (R151). -/
def execGetFloatStack (off : Word) (s : State) : Host.Outcome State Fault Refusal :=
  commit 8 s (getAtOffset .float off s)

/-- put-byte-stack (R152). -/
def execPutByteStack (off : Word) (s : State) : Host.Outcome State Fault Refusal :=
  commit 8 s (putAtOffset .byte off s)

/-- put-int-stack (R153). -/
def execPutIntStack (off : Word) (s : State) : Host.Outcome State Fault Refusal :=
  commit 8 s (putAtOffset .int off s)

/-- put-float-stack (R154). -/
def execPutFloatStack (off : Word) (s : State) : Host.Outcome State Fault Refusal :=
  commit 8 s (putAtOffset .float off s)

end Sys2Proof.Machine
end

