-- ==== Sys2Proof/Machine/Dispatch.lean ====
section
/-! DEFINITION. exec: one arm per instruction, each one direct call of its meaning. -/
namespace Sys2Proof.Machine

def exec (i : Instr) (s : State) : Host.Outcome State Fault Refusal :=
  match i with
  -- Data movement (40_data_movement.md)
  | .pushByte imm => Sys2Proof.Machine.execPushByte imm s
  | .pushInt imm => Sys2Proof.Machine.execPushInt imm s
  | .pushFloat bits => Sys2Proof.Machine.execPushFloat bits s
  | .popByte => Sys2Proof.Machine.execPopByte s
  | .popInt => Sys2Proof.Machine.execPopInt s
  | .popFloat => Sys2Proof.Machine.execPopFloat s
  | .getByte => Sys2Proof.Machine.execGetByte s
  | .getInt => Sys2Proof.Machine.execGetInt s
  | .getFloat => Sys2Proof.Machine.execGetFloat s
  | .putByte => Sys2Proof.Machine.execPutByte s
  | .putInt => Sys2Proof.Machine.execPutInt s
  | .putFloat => Sys2Proof.Machine.execPutFloat s
  | .getByteAddress addr => Sys2Proof.Machine.execGetByteAddress addr s
  | .getIntAddress addr => Sys2Proof.Machine.execGetIntAddress addr s
  | .getFloatAddress addr => Sys2Proof.Machine.execGetFloatAddress addr s
  | .putByteAddress addr => Sys2Proof.Machine.execPutByteAddress addr s
  | .putIntAddress addr => Sys2Proof.Machine.execPutIntAddress addr s
  | .putFloatAddress addr => Sys2Proof.Machine.execPutFloatAddress addr s
  | .getByteStack off => Sys2Proof.Machine.execGetByteStack off s
  | .getIntStack off => Sys2Proof.Machine.execGetIntStack off s
  | .getFloatStack off => Sys2Proof.Machine.execGetFloatStack off s
  | .putByteStack off => Sys2Proof.Machine.execPutByteStack off s
  | .putIntStack off => Sys2Proof.Machine.execPutIntStack off s
  | .putFloatStack off => Sys2Proof.Machine.execPutFloatStack off s
  -- Arithmetic (41_arithmetic.md)
  | .addByte => Sys2Proof.Machine.execAddByte s
  | .addInt => Sys2Proof.Machine.execAddInt s
  | .addFloat => Sys2Proof.Machine.execAddFloat s
  | .subByte => Sys2Proof.Machine.execSubByte s
  | .subInt => Sys2Proof.Machine.execSubInt s
  | .subFloat => Sys2Proof.Machine.execSubFloat s
  | .mulByte => Sys2Proof.Machine.execMulByte s
  | .mulInt => Sys2Proof.Machine.execMulInt s
  | .mulFloat => Sys2Proof.Machine.execMulFloat s
  | .divByte => Sys2Proof.Machine.execDivByte s
  | .divInt => Sys2Proof.Machine.execDivInt s
  | .divFloat => Sys2Proof.Machine.execDivFloat s
  -- Comparison and byte logic (42_compare_logic.md)
  | .equalByte => Sys2Proof.Machine.execEqualByte s
  | .equalInt => Sys2Proof.Machine.execEqualInt s
  | .equalFloat => Sys2Proof.Machine.execEqualFloat s
  | .unequalByte => Sys2Proof.Machine.execUnequalByte s
  | .unequalInt => Sys2Proof.Machine.execUnequalInt s
  | .unequalFloat => Sys2Proof.Machine.execUnequalFloat s
  | .greaterByte => Sys2Proof.Machine.execGreaterByte s
  | .greaterInt => Sys2Proof.Machine.execGreaterInt s
  | .greaterFloat => Sys2Proof.Machine.execGreaterFloat s
  | .smallerByte => Sys2Proof.Machine.execSmallerByte s
  | .smallerInt => Sys2Proof.Machine.execSmallerInt s
  | .smallerFloat => Sys2Proof.Machine.execSmallerFloat s
  | .andByte => Sys2Proof.Machine.execAndByte s
  | .orByte => Sys2Proof.Machine.execOrByte s
  | .notByte => Sys2Proof.Machine.execNotByte s
  | .xorByte => Sys2Proof.Machine.execXorByte s
  -- Control flow (43_control_flow.md)
  | .endOp => Sys2Proof.Machine.execEndOp s
  | .ret => Sys2Proof.Machine.execRet s
  | .jmp target => Sys2Proof.Machine.execJmp target s
  | .jmpzByte => Sys2Proof.Machine.execJmpzByte s
  | .jmpzInt => Sys2Proof.Machine.execJmpzInt s
  | .jmpzFloat => Sys2Proof.Machine.execJmpzFloat s
  | .jmpzByteAddress target => Sys2Proof.Machine.execJmpzByteAddress target s
  | .jmpzIntAddress target => Sys2Proof.Machine.execJmpzIntAddress target s
  | .jmpzFloatAddress target => Sys2Proof.Machine.execJmpzFloatAddress target s
  | .jmpnzByte => Sys2Proof.Machine.execJmpnzByte s
  | .jmpnzInt => Sys2Proof.Machine.execJmpnzInt s
  | .jmpnzFloat => Sys2Proof.Machine.execJmpnzFloat s
  | .jmpnzByteAddress target => Sys2Proof.Machine.execJmpnzByteAddress target s
  | .jmpnzIntAddress target => Sys2Proof.Machine.execJmpnzIntAddress target s
  | .jmpnzFloatAddress target => Sys2Proof.Machine.execJmpnzFloatAddress target s
  | .call => Sys2Proof.Machine.execCall s
  | .callAddress target => Sys2Proof.Machine.execCallAddress target s

end Sys2Proof.Machine
end

