-- ==== Sys2Proof/WellFormed.lean ====
section
/-! DEFINITION. Well-formedness of what enters the machine from outside: an instruction term, the sizes of a construction, and a program to load. -/
namespace Sys2Proof

/-- Every instruction term is well-formed: each operand has exactly the width of its field, and every value of the
operand bytes is a legal encoding (R106). The types of `Instr` leave no ill-formed term to refuse (log 15). -/
def Instr.wellFormed : Instr → Bool := fun _ => true

/-- The sizes that Construct(M, S) accepts (R6, R7, R301): 0 ≤ S ≤ M ≤ 2^63 - 1. -/
def validSizes (memSize stackSize : Int) : Bool :=
  decide (0 ≤ stackSize) && decide (stackSize ≤ memSize) && decide (memSize ≤ Config.maxMemSize)

/-- The programs that Load accepts into a Memory of `memSize` bytes (R304). -/
def validProgram (memSize : Nat) (bytes : List Byte) : Bool :=
  decide (bytes.length ≤ memSize)

end Sys2Proof
end

