-- ==== Sys2Proof/Decode.lean ====
section
/-! DEFINITION. The opcode table, the decoder (total on any byte sequence, rejecting by name) and the encoder (30_encoding.md R100 to R115). -/
namespace Sys2Proof

/-- The value of a byte sequence read little-endian: the byte at the lowest address is least significant (R11, R65). -/
def leValue : List Byte → Nat
  | [] => 0
  | b :: bs => b.toNat + 256 * leValue bs

/-- The `n` low bytes of `v`, the least significant first (R11, R65). -/
def leBytes : Nat → Nat → List Byte
  | 0, _ => []
  | n + 1, v => BitVec.ofNat 8 v :: leBytes n (v / 256)

/-- An instruction as its format builds it from its operand bytes (R101). -/
inductive Shape where
  /-- F0: the opcode byte alone (R102). -/
  | f0 (i : Instr)
  /-- F1: one operand byte, imm8 (R103). -/
  | f1 (mk : Byte → Instr)
  /-- F8: eight operand bytes, opnd64 little-endian (R104). -/
  | f8 (mk : Word → Instr)

/-- opw of R107: how many operand bytes follow the opcode. -/
def Shape.operandWidth : Shape → Nat
  | .f0 _ => 0
  | .f1 _ => 1
  | .f8 _ => 8

/-- One row of the opcode map (R108). -/
structure OpRow where
  opcode : Byte
  mnemonic : String
  shape : Shape

/-- The rows of R108: data movement. -/
def dataMovementRows : List OpRow :=
  [ ⟨0x08#8, "push-byte", .f1 .pushByte⟩
  , ⟨0x09#8, "push-int", .f8 .pushInt⟩
  , ⟨0x0A#8, "push-float", .f8 .pushFloat⟩
  , ⟨0x0C#8, "pop-byte", .f0 .popByte⟩
  , ⟨0x0D#8, "pop-int", .f0 .popInt⟩
  , ⟨0x0E#8, "pop-float", .f0 .popFloat⟩
  , ⟨0x10#8, "get-byte", .f0 .getByte⟩
  , ⟨0x11#8, "get-int", .f0 .getInt⟩
  , ⟨0x12#8, "get-float", .f0 .getFloat⟩
  , ⟨0x18#8, "put-byte", .f0 .putByte⟩
  , ⟨0x19#8, "put-int", .f0 .putInt⟩
  , ⟨0x1A#8, "put-float", .f0 .putFloat⟩
  , ⟨0x20#8, "get-byte-address", .f8 .getByteAddress⟩
  , ⟨0x21#8, "get-int-address", .f8 .getIntAddress⟩
  , ⟨0x22#8, "get-float-address", .f8 .getFloatAddress⟩
  , ⟨0x28#8, "put-byte-address", .f8 .putByteAddress⟩
  , ⟨0x29#8, "put-int-address", .f8 .putIntAddress⟩
  , ⟨0x2A#8, "put-float-address", .f8 .putFloatAddress⟩
  , ⟨0x30#8, "get-byte-stack", .f8 .getByteStack⟩
  , ⟨0x31#8, "get-int-stack", .f8 .getIntStack⟩
  , ⟨0x32#8, "get-float-stack", .f8 .getFloatStack⟩
  , ⟨0x38#8, "put-byte-stack", .f8 .putByteStack⟩
  , ⟨0x39#8, "put-int-stack", .f8 .putIntStack⟩
  , ⟨0x3A#8, "put-float-stack", .f8 .putFloatStack⟩ ]

/-- The rows of R108: arithmetic. -/
def arithmeticRows : List OpRow :=
  [ ⟨0x40#8, "add-byte", .f0 .addByte⟩
  , ⟨0x41#8, "add-int", .f0 .addInt⟩
  , ⟨0x42#8, "add-float", .f0 .addFloat⟩
  , ⟨0x44#8, "sub-byte", .f0 .subByte⟩
  , ⟨0x45#8, "sub-int", .f0 .subInt⟩
  , ⟨0x46#8, "sub-float", .f0 .subFloat⟩
  , ⟨0x48#8, "mul-byte", .f0 .mulByte⟩
  , ⟨0x49#8, "mul-int", .f0 .mulInt⟩
  , ⟨0x4A#8, "mul-float", .f0 .mulFloat⟩
  , ⟨0x4C#8, "div-byte", .f0 .divByte⟩
  , ⟨0x4D#8, "div-int", .f0 .divInt⟩
  , ⟨0x4E#8, "div-float", .f0 .divFloat⟩ ]

/-- The rows of R108: comparison and byte logic. -/
def compareLogicRows : List OpRow :=
  [ ⟨0x60#8, "equal-byte", .f0 .equalByte⟩
  , ⟨0x61#8, "equal-int", .f0 .equalInt⟩
  , ⟨0x62#8, "equal-float", .f0 .equalFloat⟩
  , ⟨0x64#8, "unequal-byte", .f0 .unequalByte⟩
  , ⟨0x65#8, "unequal-int", .f0 .unequalInt⟩
  , ⟨0x66#8, "unequal-float", .f0 .unequalFloat⟩
  , ⟨0x68#8, "greater-byte", .f0 .greaterByte⟩
  , ⟨0x69#8, "greater-int", .f0 .greaterInt⟩
  , ⟨0x6A#8, "greater-float", .f0 .greaterFloat⟩
  , ⟨0x6C#8, "smaller-byte", .f0 .smallerByte⟩
  , ⟨0x6D#8, "smaller-int", .f0 .smallerInt⟩
  , ⟨0x6E#8, "smaller-float", .f0 .smallerFloat⟩
  , ⟨0x70#8, "and", .f0 .andByte⟩
  , ⟨0x71#8, "or", .f0 .orByte⟩
  , ⟨0x72#8, "not", .f0 .notByte⟩
  , ⟨0x73#8, "xor", .f0 .xorByte⟩ ]

/-- The rows of R108: control flow. -/
def controlFlowRows : List OpRow :=
  [ ⟨0x00#8, "end", .f0 .endOp⟩
  , ⟨0xE0#8, "ret", .f0 .ret⟩
  , ⟨0xE1#8, "jmp", .f8 .jmp⟩
  , ⟨0xE4#8, "jmpz-byte", .f0 .jmpzByte⟩
  , ⟨0xE5#8, "jmpz-int", .f0 .jmpzInt⟩
  , ⟨0xE6#8, "jmpz-float", .f0 .jmpzFloat⟩
  , ⟨0xE8#8, "jmpz-byte-address", .f8 .jmpzByteAddress⟩
  , ⟨0xE9#8, "jmpz-int-address", .f8 .jmpzIntAddress⟩
  , ⟨0xEA#8, "jmpz-float-address", .f8 .jmpzFloatAddress⟩
  , ⟨0xEC#8, "jmpnz-byte", .f0 .jmpnzByte⟩
  , ⟨0xED#8, "jmpnz-int", .f0 .jmpnzInt⟩
  , ⟨0xEE#8, "jmpnz-float", .f0 .jmpnzFloat⟩
  , ⟨0xF0#8, "jmpnz-byte-address", .f8 .jmpnzByteAddress⟩
  , ⟨0xF1#8, "jmpnz-int-address", .f8 .jmpnzIntAddress⟩
  , ⟨0xF2#8, "jmpnz-float-address", .f8 .jmpnzFloatAddress⟩
  , ⟨0xF8#8, "call", .f0 .call⟩
  , ⟨0xF9#8, "call-address", .f8 .callAddress⟩ ]

/-- The complete opcode map (R108); R109's bit pattern is not used. -/
def opcodeTable : List OpRow :=
  dataMovementRows ++ arithmeticRows ++ compareLogicRows ++ controlFlowRows

/-- The row of an opcode byte, none for the 187 undefined values (R108, R110). -/
def lookupOpcode (op : Byte) : Option OpRow :=
  opcodeTable.find? (fun row => row.opcode == op)

/-- Why a byte sequence is no instruction. -/
inductive DecodeError where
  /-- There is no opcode byte: the fetch lies outside Memory (R114). -/
  | noOpcode
  /-- The opcode byte is one of the 187 undefined values (R110). -/
  | unknownOpcode (op : Byte)
  /-- The operand of the named instruction is cut short by the end of Memory (R114). -/
  | truncatedOperand (mnemonic : String)
deriving DecidableEq, Repr

/-- Decode the instruction that a byte sequence begins with, and the bytes after it (R100, R107, R115). The opcode is
looked up before any operand byte is needed (R276), and operand bytes are never checked (R106). -/
def decode : List Byte → Except DecodeError (Instr × List Byte)
  | [] => .error .noOpcode
  | op :: rest =>
    match lookupOpcode op with
    | none => .error (.unknownOpcode op)
    | some row =>
      if rest.length < row.shape.operandWidth then .error (.truncatedOperand row.mnemonic)
      else match row.shape with
        | .f0 i => .ok (i, rest)
        | .f1 mk => .ok (mk (BitVec.ofNat 8 (leValue (rest.take 1))), rest.drop 1)
        | .f8 mk => .ok (mk (BitVec.ofNat 64 (leValue (rest.take 8))), rest.drop 8)

/-- Byte 0 of an instruction (R108). -/
def Instr.opcode : Instr → Byte
  | .pushByte _ => 0x08#8
  | .pushInt _ => 0x09#8
  | .pushFloat _ => 0x0A#8
  | .popByte => 0x0C#8
  | .popInt => 0x0D#8
  | .popFloat => 0x0E#8
  | .getByte => 0x10#8
  | .getInt => 0x11#8
  | .getFloat => 0x12#8
  | .putByte => 0x18#8
  | .putInt => 0x19#8
  | .putFloat => 0x1A#8
  | .getByteAddress _ => 0x20#8
  | .getIntAddress _ => 0x21#8
  | .getFloatAddress _ => 0x22#8
  | .putByteAddress _ => 0x28#8
  | .putIntAddress _ => 0x29#8
  | .putFloatAddress _ => 0x2A#8
  | .getByteStack _ => 0x30#8
  | .getIntStack _ => 0x31#8
  | .getFloatStack _ => 0x32#8
  | .putByteStack _ => 0x38#8
  | .putIntStack _ => 0x39#8
  | .putFloatStack _ => 0x3A#8
  | .addByte => 0x40#8
  | .addInt => 0x41#8
  | .addFloat => 0x42#8
  | .subByte => 0x44#8
  | .subInt => 0x45#8
  | .subFloat => 0x46#8
  | .mulByte => 0x48#8
  | .mulInt => 0x49#8
  | .mulFloat => 0x4A#8
  | .divByte => 0x4C#8
  | .divInt => 0x4D#8
  | .divFloat => 0x4E#8
  | .equalByte => 0x60#8
  | .equalInt => 0x61#8
  | .equalFloat => 0x62#8
  | .unequalByte => 0x64#8
  | .unequalInt => 0x65#8
  | .unequalFloat => 0x66#8
  | .greaterByte => 0x68#8
  | .greaterInt => 0x69#8
  | .greaterFloat => 0x6A#8
  | .smallerByte => 0x6C#8
  | .smallerInt => 0x6D#8
  | .smallerFloat => 0x6E#8
  | .andByte => 0x70#8
  | .orByte => 0x71#8
  | .notByte => 0x72#8
  | .xorByte => 0x73#8
  | .endOp => 0x00#8
  | .ret => 0xE0#8
  | .jmp _ => 0xE1#8
  | .jmpzByte => 0xE4#8
  | .jmpzInt => 0xE5#8
  | .jmpzFloat => 0xE6#8
  | .jmpzByteAddress _ => 0xE8#8
  | .jmpzIntAddress _ => 0xE9#8
  | .jmpzFloatAddress _ => 0xEA#8
  | .jmpnzByte => 0xEC#8
  | .jmpnzInt => 0xED#8
  | .jmpnzFloat => 0xEE#8
  | .jmpnzByteAddress _ => 0xF0#8
  | .jmpnzIntAddress _ => 0xF1#8
  | .jmpnzFloatAddress _ => 0xF2#8
  | .call => 0xF8#8
  | .callAddress _ => 0xF9#8

/-- The operand bytes of an instruction: none, imm8, or opnd64 little-endian (R101, R103, R104). -/
def Instr.operandBytes : Instr → List Byte
  | .pushByte x => leBytes 1 x.toNat
  | .pushInt x => leBytes 8 x.toNat
  | .pushFloat x => leBytes 8 x.toNat
  | .popByte => []
  | .popInt => []
  | .popFloat => []
  | .getByte => []
  | .getInt => []
  | .getFloat => []
  | .putByte => []
  | .putInt => []
  | .putFloat => []
  | .getByteAddress x => leBytes 8 x.toNat
  | .getIntAddress x => leBytes 8 x.toNat
  | .getFloatAddress x => leBytes 8 x.toNat
  | .putByteAddress x => leBytes 8 x.toNat
  | .putIntAddress x => leBytes 8 x.toNat
  | .putFloatAddress x => leBytes 8 x.toNat
  | .getByteStack x => leBytes 8 x.toNat
  | .getIntStack x => leBytes 8 x.toNat
  | .getFloatStack x => leBytes 8 x.toNat
  | .putByteStack x => leBytes 8 x.toNat
  | .putIntStack x => leBytes 8 x.toNat
  | .putFloatStack x => leBytes 8 x.toNat
  | .addByte => []
  | .addInt => []
  | .addFloat => []
  | .subByte => []
  | .subInt => []
  | .subFloat => []
  | .mulByte => []
  | .mulInt => []
  | .mulFloat => []
  | .divByte => []
  | .divInt => []
  | .divFloat => []
  | .equalByte => []
  | .equalInt => []
  | .equalFloat => []
  | .unequalByte => []
  | .unequalInt => []
  | .unequalFloat => []
  | .greaterByte => []
  | .greaterInt => []
  | .greaterFloat => []
  | .smallerByte => []
  | .smallerInt => []
  | .smallerFloat => []
  | .andByte => []
  | .orByte => []
  | .notByte => []
  | .xorByte => []
  | .endOp => []
  | .ret => []
  | .jmp x => leBytes 8 x.toNat
  | .jmpzByte => []
  | .jmpzInt => []
  | .jmpzFloat => []
  | .jmpzByteAddress x => leBytes 8 x.toNat
  | .jmpzIntAddress x => leBytes 8 x.toNat
  | .jmpzFloatAddress x => leBytes 8 x.toNat
  | .jmpnzByte => []
  | .jmpnzInt => []
  | .jmpnzFloat => []
  | .jmpnzByteAddress x => leBytes 8 x.toNat
  | .jmpnzIntAddress x => leBytes 8 x.toNat
  | .jmpnzFloatAddress x => leBytes 8 x.toNat
  | .call => []
  | .callAddress x => leBytes 8 x.toNat

/-- The bytes of an instruction in increasing address order (R100, R101). -/
def encode (i : Instr) : List Byte :=
  i.opcode :: i.operandBytes

/-- The length of the longest instruction, format F8 (R101). -/
def maxInstrBytes : Nat := 9

/-- The bytes of an instruction whose bits are `w`, the first byte in bits 7:0: bits from `nbits` up are 0. -/
def tableBytes (nbits w : Nat) : List Byte :=
  leBytes maxInstrBytes (w % 2 ^ nbits)

/-- The instruction the decoder reads from an opcode-table word: its bytes laid out at rising addresses. -/
def decodeTableWord (nbits w : Nat) : Option Instr :=
  match decode (tableBytes nbits w) with
  | .ok (i, _) => some i
  | .error _ => none

end Sys2Proof
end

