-- ==== Sys2Proof/Machine/Fetch.lean ====
section
/-! DEFINITION. The fetch: the bytes of MEM at PC, as they stand at that moment, given to the decoder (30_encoding.md R112, R114; 20_memory.md R83). -/
namespace Sys2Proof.Machine

/-- The `n` bytes of Memory from address `a` up. -/
def Memory.bytes (m : Memory) (a : Nat) : Nat → List Byte
  | 0 => []
  | n + 1 => m.read a :: Memory.bytes m (a + 1) n

/-- How many bytes an instruction at PC can be fetched from: those from PC to the end of Memory, at most the longest
instruction, and none when PC is outside 0..M−1 (R114). -/
def fetchableBytes (s : State) : Nat :=
  if 0 ≤ s.pc.toInt ∧ s.pc.toInt < s.memSize then min maxInstrBytes (s.memSize - s.pc.toInt.toNat) else 0

/-- The bytes the fetch can see. -/
def fetchBytes (s : State) : List Byte :=
  s.mem.bytes s.pc.toInt.toNat (fetchableBytes s)

/-- The error that a failed decode raises (R114, R276): MemoryError where a byte of the opcode or of the operand lies
outside Memory, UnknownOpcode for an undefined opcode. -/
def fetchError : DecodeError → ErrorCode
  | .noOpcode => .memoryError
  | .unknownOpcode _ => .unknownOpcode
  | .truncatedOperand _ => .memoryError

/-- Fetch and decode the instruction at PC, or the error its fetch raises (R112; order by R280: opcode fetch, unknown
opcode, operand fetch). -/
def fetch (s : State) : Except ErrorCode Instr :=
  match decode (fetchBytes s) with
  | .ok (i, _) => .ok i
  | .error e => .error (fetchError e)

/-- `s` with an instruction's bytes stored where the fetch reads them; bytes past the end of Memory are dropped. -/
def placeAtPC (bytes : List Byte) (s : State) : State :=
  { s with mem := s.mem.writeBytes s.pc.toInt.toNat (bytes.take (fetchableBytes s)) }

end Sys2Proof.Machine
end

