-- ==== Sys2Proof/Machine/Step.lean ====
section
/-! DEFINITION. One step: the fetch-decode-execute cycle (30_encoding.md R112). -/
namespace Sys2Proof.Machine

/-- Step() (R112). A halted engine absorbs the step (R35); an error of the fetch is the error halt, which leaves all but
RUNSTATE and ERR as it was (R279). -/
def step (s : State) : Host.Outcome State Fault Refusal :=
  match s.runState with
  | .running =>
    match fetch s with
    | .ok i => exec i s
    | .error e => .next (haltError s s.latch e)
  | .haltedClean => .next s
  | .haltedError => .next s

/-- `s` with the instruction whose bits are `w`, bits from `nbits` up being 0, stored at PC (log 9). -/
def State.withFetchWord (s : State) (nbits w : Nat) : State :=
  placeAtPC (tableBytes nbits w) s

end Sys2Proof.Machine
end

