-- ==== Sys2Proof/Machine/HostPort.lean ====
section
/-! DEFINITION. The host port: Construct, Load, SetPC, Step, Run and Read (70_reset_and_hazards.md R300 to R309), and the STATUS word (10_state.md R42). Host commands act only between steps (R309). -/
namespace Sys2Proof.Machine

/-! ### Construct -/

/-- The response to Construct (R300, R301). -/
inductive ConstructResponse where
  | engine (s : State)
  /-- InvalidConfiguration: no engine is created (R278). -/
  | invalidConfiguration
deriving DecidableEq, Repr

/-- Construct(M, S) (R300, R301). -/
def construct (memSize stackSize : Int) (traceOn : Bool) : ConstructResponse :=
  if validSizes memSize stackSize then .engine (State.initial memSize.toNat stackSize.toNat traceOn)
  else .invalidConfiguration

/-! ### Load and SetPC -/

/-- The response to Load (R303, R304). -/
inductive LoadResponse where
  | ok
  | loadTooLarge
deriving DecidableEq, Repr

/-- Load(bytes) (R303, R304): copy to address 0 up, in any run state, changing MEM only; a program longer than M is refused
and nothing is written. -/
def hostLoad (bytes : List Byte) (s : State) : LoadResponse × State :=
  if validProgram s.memSize bytes then (.ok, { s with mem := s.mem.writeBytes 0 bytes })
  else (.loadTooLarge, s)

/-- SetPC(v) (R305): any s64, unchecked, in any run state, changing PC only. -/
def hostSetPC (v : Word) (s : State) : State := { s with pc := v }

/-! ### Step and Run -/

/-- The response to Step (R306): terminal exactly when RUNSTATE is not RUNNING, and ERR. -/
def stepResponse (t : State) : Bool × Option ErrorCode :=
  (decide (t.runState ≠ .running), t.err)

/-- The state after a step; `s` itself if the step should stop, which it never does (log 6). -/
def stepState (s : State) : State :=
  match step s with
  | .next t => t
  | .fault _ => s
  | .refused _ => s

/-- Step (R306). -/
def hostStep (s : State) : State × (Bool × Option ErrorCode) :=
  (stepState s, stepResponse (stepState s))

/-- Run (R307), observed for at most `fuel` steps: the final state and the response ERR, or `none` while Run has not
responded. Run need not respond at any fuel (R317; log 11). -/
def hostRun : Nat → State → Option (State × Option ErrorCode)
  | fuel, s =>
    if s.runState ≠ .running then some (s, s.err)
    else match fuel with
      | 0 => none
      | fuel + 1 => hostRun fuel (stepState s)

/-! ### Read -/

/-- The numeric code of ERR (R270). -/
def errCode : Option ErrorCode → Nat
  | none => 0
  | some .memoryError => 1
  | some .stackOverflow => 2
  | some .stackUnderflow => 3
  | some .blocked => 4
  | some .illegalAddress => 5
  | some .unknownOpcode => 6
  | some .arithmeticError => 7

/-- The code of RUNSTATE in STATUS (R42). -/
def runStateCode : RunState → Nat
  | .running => 0
  | .haltedClean => 1
  | .haltedError => 2

/-- The code of LATCH in STATUS (R42). -/
def latchCode : Latch → Nat
  | .active => 0
  | .overflowed => 1
  | .underflowed => 2

/-- The STATUS word (R42): RUNSTATE in bits 1:0, LATCH in bits 3:2, ERR in bits 7:4, the rest zero. Read-only. -/
def State.statusWord (s : State) : Word :=
  BitVec.ofNat 64 (runStateCode s.runState + 4 * latchCode s.latch + 16 * errCode s.err)

/-- What the host may read (R308). -/
inductive ReadTarget where
  | memByte (a : Int)
  | pc
  | sp
  | latch
  | runState
  | err
  | status
  | memSize
  | stackSize
deriving DecidableEq, Repr

/-- The value of a read (R308), elements other than MEM, PC, SP, M and S by their STATUS codes; a read of a byte outside
Memory answers nothing (R60: such an address names no byte). Reads change nothing. -/
def hostRead (s : State) : ReadTarget → Option Int
  | .memByte a => if 0 ≤ a ∧ a < s.memSize then some (s.mem.read a.toNat).toNat else none
  | .pc => some s.pc.toInt
  | .sp => some s.sp
  | .latch => some (latchCode s.latch)
  | .runState => some (runStateCode s.runState)
  | .err => some (errCode s.err)
  | .status => some s.statusWord.toNat
  | .memSize => some s.memSize
  | .stackSize => some s.stackSize

end Sys2Proof.Machine
end

