-- ==== Sys2Proof/Machine/Trace.lean ====
section
/-! DEFINITION. The optional trace port (60_exceptions.md R288): the record that a step puts out. It is an output of the step and no part of State (log 10). -/
namespace Sys2Proof.Machine

/-- The decoded operand of an F1 or F8 instruction (R288): a u8, an s64 or a float pattern. -/
inductive TraceOperand where
  | u8 (v : Byte)
  | s64 (v : Int)
  | float (bits : Word)
deriving DecidableEq, Repr

/-- The outcome of a traced step (R288). -/
inductive TraceOutcome where
  | ok
  | haltedClean
  | error (e : ErrorCode)
deriving DecidableEq, Repr

/-- One record of the trace port (R288); an absent field is `none`. -/
structure TraceRecord where
  pc : Int
  opcode : Option Byte
  mnemonic : Option String
  operand : Option TraceOperand
  outcome : TraceOutcome
deriving DecidableEq, Repr

/-- The operand field for a decoded instruction: absent for F0 (R105, R288). -/
def traceOperand : Instr → Option TraceOperand
  | .pushByte imm => some (.u8 imm)
  | .pushInt imm => some (.s64 imm.toInt)
  | .pushFloat bits => some (.float bits)
  | .popByte => none
  | .popInt => none
  | .popFloat => none
  | .getByte => none
  | .getInt => none
  | .getFloat => none
  | .putByte => none
  | .putInt => none
  | .putFloat => none
  | .getByteAddress addr => some (.s64 addr.toInt)
  | .getIntAddress addr => some (.s64 addr.toInt)
  | .getFloatAddress addr => some (.s64 addr.toInt)
  | .putByteAddress addr => some (.s64 addr.toInt)
  | .putIntAddress addr => some (.s64 addr.toInt)
  | .putFloatAddress addr => some (.s64 addr.toInt)
  | .getByteStack off => some (.s64 off.toInt)
  | .getIntStack off => some (.s64 off.toInt)
  | .getFloatStack off => some (.s64 off.toInt)
  | .putByteStack off => some (.s64 off.toInt)
  | .putIntStack off => some (.s64 off.toInt)
  | .putFloatStack off => some (.s64 off.toInt)
  | .addByte => none
  | .addInt => none
  | .addFloat => none
  | .subByte => none
  | .subInt => none
  | .subFloat => none
  | .mulByte => none
  | .mulInt => none
  | .mulFloat => none
  | .divByte => none
  | .divInt => none
  | .divFloat => none
  | .equalByte => none
  | .equalInt => none
  | .equalFloat => none
  | .unequalByte => none
  | .unequalInt => none
  | .unequalFloat => none
  | .greaterByte => none
  | .greaterInt => none
  | .greaterFloat => none
  | .smallerByte => none
  | .smallerInt => none
  | .smallerFloat => none
  | .andByte => none
  | .orByte => none
  | .notByte => none
  | .xorByte => none
  | .endOp => none
  | .ret => none
  | .jmp target => some (.s64 target.toInt)
  | .jmpzByte => none
  | .jmpzInt => none
  | .jmpzFloat => none
  | .jmpzByteAddress target => some (.s64 target.toInt)
  | .jmpzIntAddress target => some (.s64 target.toInt)
  | .jmpzFloatAddress target => some (.s64 target.toInt)
  | .jmpnzByte => none
  | .jmpnzInt => none
  | .jmpnzFloat => none
  | .jmpnzByteAddress target => some (.s64 target.toInt)
  | .jmpnzIntAddress target => some (.s64 target.toInt)
  | .jmpnzFloatAddress target => some (.s64 target.toInt)
  | .call => none
  | .callAddress target => some (.s64 target.toInt)

/-- The operand field of the step from `s`: absent when the fetch raised (R288). -/
def tracedOperand (s : State) : Option TraceOperand :=
  match fetch s with
  | .ok i => traceOperand i
  | .error _ => none

/-- The outcome field, read off the state after the step: OK while it still runs, else how it halted (R288). -/
def traceOutcome (t : State) : TraceOutcome :=
  match t.err with
  | some e => .error e
  | none => if t.runState = .haltedClean then .haltedClean else .ok

/-- The record of the step from `s` to `t` (R288). The opcode is absent if its fetch raised MemoryError, the mnemonic if the
opcode is undefined. -/
def traceRecordOf (s t : State) : TraceRecord where
  pc := s.pc.toInt
  opcode := (fetchBytes s).head?
  mnemonic := ((fetchBytes s).head?.bind lookupOpcode).map OpRow.mnemonic
  operand := tracedOperand s
  outcome := traceOutcome t

/-- What the trace port emits during a step from `s`: one record if the port exists and the engine runs, else nothing
(R288). -/
def traceRecord (s : State) : Option TraceRecord :=
  if s.traceOn = true ∧ s.runState = .running then
    match step s with
    | .next t => some (traceRecordOf s t)
    | .fault _ => none
    | .refused _ => none
  else none

end Sys2Proof.Machine
end

