-- ==== Sys2Proof/Safety.lean ====
section
/-! DEFINITION. The vocabulary of claims: what a state holds, when it is sane, how an instruction completes or halts, and the invariants of the machine (10_state.md R32, R44). -/
namespace Sys2Proof.Machine

/-! ### What a state holds -/

/-- The byte of Memory at an address. -/
def State.byteAt (s : State) (x : Nat) : Byte := s.mem.read x

/-- The `n` bytes from address `x` up hold `v` little-endian (R65). -/
def Holds (s : State) (x n v : Nat) : Prop :=
  ∀ k < n, s.byteAt (x + k) = BitVec.ofNat 8 (v / 256 ^ k)

/-- The absolute address of stack slot `i` (R70), by the function the Stack unit itself uses. -/
def State.slot (s : State) (i : Nat) : Nat := (slotAddress s i).toNat

/-! ### Sane states -/

/-- The sizes are legal, SP is inside the window (R6, R7, R33), and MEM is in canonical form. Every reachable state is
sane: it is part of `Inv`. -/
def State.Sane (s : State) : Prop :=
  s.sp ≤ s.stackSize ∧ s.stackSize ≤ s.memSize ∧ s.memSize ≤ Config.maxMemSize ∧ s.mem.wf s.memSize = true

/-- The invariant of R44, with what makes the state sane, and ERR NONE exactly outside HALTED_ERROR (R36). -/
def State.Inv (s : State) : Prop :=
  s.Sane ∧
  (s.latch = .overflowed → s.runState = .haltedError ∧ s.err = some .stackOverflow) ∧
  (s.latch = .underflowed → s.runState = .haltedError ∧ s.err = some .stackUnderflow) ∧
  (s.err = none ↔ s.runState ≠ .haltedError)

/-- PC is an address of Memory or the address one past its end (R32). -/
def State.PcInRange (s : State) : Prop :=
  0 ≤ s.pc.toInt ∧ s.pc.toInt ≤ s.memSize

/-! ### How an instruction ends -/

/-- All of `t` but MEM, PC and SP is as in `s`. -/
def SameControl (s t : State) : Prop :=
  t.latch = s.latch ∧ t.runState = s.runState ∧ t.err = s.err ∧
  t.memSize = s.memSize ∧ t.stackSize = s.stackSize ∧ t.traceOn = s.traceOn

/-- The instruction completes from `s`: PC becomes `pc'` and SP `sp'`, the `n` bytes from `lo` up become `v` little-endian,
and every other byte of Memory and every other state element is unchanged. -/
def Completes (i : Instr) (s : State) (pc' : Word) (sp' : Nat) (lo n v : Nat) : Prop :=
  ∃ t, exec i s = .next t ∧ t.pc = pc' ∧ t.sp = sp' ∧ SameControl s t ∧ Holds t lo n v ∧
    ∀ x, (x < lo ∨ lo + n ≤ x) → t.byteAt x = s.byteAt x

/-- The instruction completes from `s` and stores nothing: PC becomes `pc'`, SP `sp'`, and every byte of Memory and every
other state element is unchanged. -/
def CompletesStoringNothing (i : Instr) (s : State) (pc' : Word) (sp' : Nat) : Prop :=
  ∃ t, exec i s = .next t ∧ t.pc = pc' ∧ t.sp = sp' ∧ SameControl s t ∧ ∀ x, t.byteAt x = s.byteAt x

/-- The error halt of R279 from `s`: LATCH is `latch`, ERR is `e`, and MEM, SP and PC are as in `s`. -/
def errorHalt (s : State) (e : ErrorCode) (latch : Latch) : State :=
  { s with latch := latch, runState := .haltedError, err := some e }

/-- The instruction raises `e` from `s` and leaves LATCH at `latch`. -/
def Raises (i : Instr) (s : State) (e : ErrorCode) (latch : Latch) : Prop :=
  exec i s = .next (errorHalt s e latch)

/-- While LATCH is tripped the instruction raises Blocked (R75, R274). -/
def BlockedWhenTripped (i : Instr) : Prop :=
  ∀ s : State, s.latch ≠ .active → Raises i s .blocked s.latch

/-- With fewer than `need` bytes on the Stack the instruction raises StackUnderflow and trips LATCH (R72). -/
def UnderflowsBelow (i : Instr) (need : Nat) : Prop :=
  ∀ s : State, s.Sane → s.latch = .active → s.sp < need → Raises i s .stackUnderflow .underflowed

/-- The bytes of an instruction stand at PC, inside Memory. -/
def InstrAtPC (i : Instr) (s : State) : Prop :=
  0 ≤ s.pc.toInt ∧ s.pc.toInt + (encode i).length ≤ s.memSize ∧
  ∀ k < (encode i).length, some (s.byteAt (s.pc.toInt.toNat + k)) = (encode i)[k]?

/-- The step from `s` raises `e` in its fetch: all but RUNSTATE and ERR is unchanged (R276, R279). -/
def FetchRaises (s : State) (e : ErrorCode) : Prop :=
  step s = .next { s with runState := .haltedError, err := some e }

/-- An instruction of `len` bytes with this opcode byte raises MemoryError when its operand extends past Memory (R114). -/
def OperandPastEndRaises (op : Byte) (len : Nat) : Prop :=
  ∀ s : State, s.runState = .running → 0 ≤ s.pc.toInt → s.pc.toInt < s.memSize →
    s.byteAt s.pc.toInt.toNat = op → (s.memSize : Int) < s.pc.toInt + len → FetchRaises s .memoryError

/-- The `len` bytes `bytes` are the encoding of `i`, and the decoder reads them as `i`, whatever follows. -/
def Encodes (bytes : List Byte) (i : Instr) : Prop :=
  encode i = bytes ∧ ∀ rest, decode (bytes ++ rest) = .ok (i, rest)

/-- With no room for `w` more bytes on the Stack the instruction raises StackOverflow and trips LATCH (R71). -/
def OverflowsBeyond (i : Instr) (w : Nat) : Prop :=
  ∀ s : State, s.Sane → s.latch = .active → s.stackSize < s.sp + w → Raises i s .stackOverflow .overflowed

/-- The eight operand bytes of format F8: byte k (k = 1..8) holds opnd64[8k−1:8k−8] (R101). -/
def opnd64 (v : Word) : List Byte :=
  [v.extractLsb' 0 8, v.extractLsb' 8 8, v.extractLsb' 16 8, v.extractLsb' 24 8,
   v.extractLsb' 32 8, v.extractLsb' 40 8, v.extractLsb' 48 8, v.extractLsb' 56 8]

/-- The 187 undefined opcode values, as R110 lists them. -/
def undefinedOpcode (op : Byte) : Bool :=
  [(0x01, 0x07), (0x0B, 0x0B), (0x0F, 0x0F), (0x13, 0x17), (0x1B, 0x1F), (0x23, 0x27), (0x2B, 0x2F), (0x33, 0x37),
   (0x3B, 0x3F), (0x43, 0x43), (0x47, 0x47), (0x4B, 0x4B), (0x4F, 0x5F), (0x63, 0x63), (0x67, 0x67), (0x6B, 0x6B),
   (0x6F, 0x6F), (0x74, 0xDF), (0xE2, 0xE3), (0xE7, 0xE7), (0xEB, 0xEB), (0xEF, 0xEF), (0xF3, 0xF7), (0xFA, 0xFF)].any
    fun r => decide (r.1 ≤ op.toNat) && decide (op.toNat ≤ r.2)

/-- The opcodes of format F8, as R101 and R105 list them. -/
def f8Opcode (op : Byte) : Bool :=
  decide (op.toNat ∈ [0x09, 0x0A, 0x20, 0x21, 0x22, 0x28, 0x29, 0x2A, 0x30, 0x31, 0x32, 0x38, 0x39, 0x3A,
    0xE1, 0xE8, 0xE9, 0xEA, 0xF0, 0xF1, 0xF2, 0xF9])

/-- The opcode map of R108: each defined opcode value and its mnemonic, as the table there writes them. It is stated apart
from the decoder's rows, so that a claim can hold the decoder's names against it. -/
def opcodeMnemonics : List (Byte × String) :=
  [(0x00, "end"), (0x08, "push-byte"), (0x09, "push-int"), (0x0A, "push-float"), (0x0C, "pop-byte"),
   (0x0D, "pop-int"), (0x0E, "pop-float"), (0x10, "get-byte"), (0x11, "get-int"), (0x12, "get-float"),
   (0x18, "put-byte"), (0x19, "put-int"), (0x1A, "put-float"), (0x20, "get-byte-address"), (0x21, "get-int-address"),
   (0x22, "get-float-address"), (0x28, "put-byte-address"), (0x29, "put-int-address"), (0x2A, "put-float-address"),
   (0x30, "get-byte-stack"), (0x31, "get-int-stack"), (0x32, "get-float-stack"), (0x38, "put-byte-stack"),
   (0x39, "put-int-stack"), (0x3A, "put-float-stack"), (0x40, "add-byte"), (0x41, "add-int"), (0x42, "add-float"),
   (0x44, "sub-byte"), (0x45, "sub-int"), (0x46, "sub-float"), (0x48, "mul-byte"), (0x49, "mul-int"),
   (0x4A, "mul-float"), (0x4C, "div-byte"), (0x4D, "div-int"), (0x4E, "div-float"), (0x60, "equal-byte"),
   (0x61, "equal-int"), (0x62, "equal-float"), (0x64, "unequal-byte"), (0x65, "unequal-int"),
   (0x66, "unequal-float"), (0x68, "greater-byte"), (0x69, "greater-int"), (0x6A, "greater-float"),
   (0x6C, "smaller-byte"), (0x6D, "smaller-int"), (0x6E, "smaller-float"), (0x70, "and"), (0x71, "or"),
   (0x72, "not"), (0x73, "xor"), (0xE0, "ret"), (0xE1, "jmp"), (0xE4, "jmpz-byte"), (0xE5, "jmpz-int"),
   (0xE6, "jmpz-float"), (0xE8, "jmpz-byte-address"), (0xE9, "jmpz-int-address"), (0xEA, "jmpz-float-address"),
   (0xEC, "jmpnz-byte"), (0xED, "jmpnz-int"), (0xEE, "jmpnz-float"), (0xF0, "jmpnz-byte-address"),
   (0xF1, "jmpnz-int-address"), (0xF2, "jmpnz-float-address"), (0xF8, "call"), (0xF9, "call-address")]

/-- The mnemonic that R108 gives an opcode value, none for a value that is not in its table. -/
def mnemonicOf (op : Byte) : Option String := opcodeMnemonics.lookup op

/-- A state that some sequence of host commands reaches: Construct, then Load, SetPC and Step in any order (R300 to R306). -/
inductive Reachable : State → Prop where
  | construct (m n : Int) (b : Bool) (s : State) (h : Machine.construct m n b = .engine s) : Reachable s
  | load (s : State) (bytes : List Byte) (h : Reachable s) : Reachable (hostLoad bytes s).2
  | setPC (s : State) (v : Word) (h : Reachable s) : Reachable (hostSetPC v s)
  | step (s t : State) (h : Reachable s) (k : Machine.step s = .next t) : Reachable t

/-! ### Floats in the terms of IEEE-754 -/

/-- The exact value of a finite pattern (R8's layout): (−1)^sign × significand × 2^(exponent − 1075), a subnormal having
exponent 1 and no hidden bit. -/
def floatRat (p : Word) : ℚ :=
  let sign : ℚ := if p.msb then -1 else 1
  let e := (p.extractLsb' 52 11).toNat
  let f := (p.extractLsb' 0 52).toNat
  if e = 0 then sign * f / 2 ^ 1074 else sign * (2 ^ 52 + f) * 2 ^ (e - 1) / 2 ^ 1074

/-- Neither an infinity nor a NaN: the exponent bits are not all one. -/
def isFinite (p : Word) : Prop := (p.extractLsb' 52 11).toNat ≠ 2047

/-- Exponent bits all one and fraction bits not all zero (R8). -/
def IsNaNPattern (p : Word) : Prop :=
  (p.extractLsb' 52 11).toNat = 2047 ∧ (p.extractLsb' 0 52).toNat ≠ 0

/-- The patterns of the infinities and zeros. -/
def posInf : Word := 0x7FF0000000000000#64
def negInf : Word := 0xFFF0000000000000#64
def negZero : Word := 0x8000000000000000#64

/-- A number that orders the patterns that are not NaN as IEEE-754 orders their values: every finite value lies strictly
between −2^1024 and 2^1024, which stand for the infinities. -/
def floatOrder (p : Word) : ℚ :=
  if p = posInf then 2 ^ 1024 else if p = negInf then -2 ^ 1024 else floatRat p

/-- `r` is `x` rounded to binary64, to nearest with ties to even, `x` being any rational (R174, D15): beyond the overflow
threshold 2^1024 − 2^970 the infinity of x's sign; otherwise a finite value that no finite value is nearer than, with the
even fraction where another is as near. -/
def IsRoundedTo (x : ℚ) (r : Word) : Prop :=
  if 2 ^ 1024 - 2 ^ 970 ≤ x then r = posInf
  else if x ≤ -(2 ^ 1024 - 2 ^ 970) then r = negInf
  else isFinite r ∧ ∀ c : Word, isFinite c →
    |floatRat r - x| ≤ |floatRat c - x| ∧
    (|floatRat r - x| = |floatRat c - x| → floatRat c ≠ floatRat r → r.getLsbD 0 = false)

end Sys2Proof.Machine
end

