-- ==== Sys2Proof/Certificates/Slice0/Obligations.lean ====
section
/-! DEFINITION. The statements for the provers. Each is a property of the model that a rule of spec/ states or implies; a premise `Sane` rules out states that no run reaches and is itself stated to hold in every reachable state (InvariantHoldsInReachableStates). -/
open Sys2Proof Sys2Proof.Machine

/-! ### Encoding and fetch -/

/-- R100, R101: decoding the bytes of any instruction gives it back, with whatever follows left over. -/
def Obligations.DecodeInvertsEncode : Prop :=
  ∀ (i : Instr) (rest : List Byte), decode (encode i ++ rest) = .ok (i, rest)

/-- R107, R115: bytes that decode are the encoding of what they decode to: no second encoding exists. -/
def Obligations.EncodeInvertsDecode : Prop :=
  ∀ (bytes rest : List Byte) (i : Instr), decode bytes = .ok (i, rest) → bytes = encode i ++ rest

/-- R107: the length is a function of the opcode byte alone: 2 for push-byte, 9 for F8, else 1. -/
def Obligations.LengthIsFixedByOpcode : Prop :=
  ∀ (op : Byte) (bytes rest : List Byte) (i : Instr), decode (op :: bytes) = .ok (i, rest) →
    (op :: bytes).length = rest.length + (1 + if op = 0x08#8 then 1 else if f8Opcode op then 8 else 0)

/-- R110: exactly the 187 listed opcode values are undefined, and fetching one halts with UnknownOpcode, nothing else
changed, wherever it stands. -/
def Obligations.UndefinedOpcodesHalt : Prop :=
  ((List.range 256).filter fun n => undefinedOpcode (BitVec.ofNat 8 n)).length = 187 ∧
  (∀ (op : Byte) (rest : List Byte), decode (op :: rest) = .error (.unknownOpcode op) ↔ undefinedOpcode op = true) ∧
  ∀ s : State, s.runState = .running → 0 ≤ s.pc.toInt → s.pc.toInt < s.memSize →
    undefinedOpcode (s.byteAt s.pc.toInt.toNat) = true → FetchRaises s .unknownOpcode

/-- 95_test_vectors.md V-D1 to V-D3 and worked encodings of each family: the bytes written there decode to the instruction
named there. -/
def Obligations.WrittenOutBytesDecode : Prop :=
  decode [0x08, 0x7F] = .ok (.pushByte 0x7F, []) ∧
  decode [0x09, 0xFF, 0xFF, 0xFF, 0xFF, 0xFF, 0xFF, 0xFF, 0xFF] = .ok (.pushInt (BitVec.ofInt 64 (-1)), []) ∧
  decode [0x31, 0xF8, 0xFF, 0xFF, 0xFF, 0xFF, 0xFF, 0xFF, 0xFF] = .ok (.getIntStack (BitVec.ofInt 64 (-8)), []) ∧
  decode [0x41, 0x00] = .ok (.addInt, [0x00]) ∧
  decode [0x69] = .ok (.greaterInt, []) ∧
  decode [0xF1, 0x24, 0, 0, 0, 0, 0, 0, 0] = .ok (.jmpnzIntAddress 0x24, []) ∧
  decode [0xF8] = .ok (.call, [])

/-- R112: when the bytes at PC are those of an instruction, all inside Memory, a step of a running engine is `exec` of that
instruction; and so it is whenever the fetch decodes one. -/
def Obligations.StepRunsDecodedInstruction : Prop :=
  (∀ (s : State) (i : Instr), s.runState = .running → InstrAtPC i s → step s = exec i s) ∧
  ∀ (s : State) (i : Instr), s.runState = .running → fetch s = .ok i → step s = exec i s

/-- R114 (the spec's own inference, marked [derived] there): an opcode fetch outside Memory raises MemoryError, and so does an operand that extends past its end. -/
def Obligations.FetchPastMemoryHalts : Prop :=
  (∀ s : State, s.runState = .running → (s.pc.toInt < 0 ∨ s.memSize ≤ s.pc.toInt) → FetchRaises s .memoryError) ∧
  (∀ op : Byte, f8Opcode op = true → OperandPastEndRaises op 9) ∧
  OperandPastEndRaises 0x08 2

/-! ### Reset and the host port -/

/-- R45 (MEM, SP and ERR by the spec's decisions D3 and D7), R300: an accepted construction leaves every element at its reset value. -/
def Obligations.ConstructLeavesResetState : Prop :=
  ∀ (m n : Nat) (trace : Bool), n ≤ m → m ≤ 2 ^ 63 - 1 →
    ∃ s, construct m n trace = .engine s ∧ (∀ a, s.byteAt a = 0x00) ∧ s.pc = 0 ∧ s.sp = 0 ∧ s.latch = .active ∧
      s.runState = .running ∧ s.err = none ∧ s.memSize = m ∧ s.stackSize = n ∧ s.traceOn = trace

/-- R301: Construct refuses exactly the sizes with S > M, M < 0, S < 0 or M > 2^63 − 1 (the last by the spec's decision D2);
and (the spec's own inference, marked [derived: from R114] there) with M = 0 every opcode fetch raises MemoryError. -/
def Obligations.ConstructRefusesInvalidSizes : Prop :=
  (∀ (m n : Int) (trace : Bool),
    construct m n trace = .invalidConfiguration ↔ (n > m ∨ m < 0 ∨ n < 0 ∨ m > 2 ^ 63 - 1)) ∧
  ∀ s : State, s.memSize = 0 → s.runState = .running → FetchRaises s .memoryError

/-- R303, R304 (decision D22): Load copies to address 0 up, in any run state, and changes MEM only; a program longer than M
is refused and nothing is written. That the state stays `Sane` is the model's own: its list form of MEM stays canonical
(log 5). -/
def Obligations.LoadCopiesFromAddressZero : Prop :=
  ∀ (s : State) (bytes : List Byte), s.Sane →
    (bytes.length ≤ s.memSize → ∃ t, hostLoad bytes s = (.ok, t) ∧ t.pc = s.pc ∧ t.sp = s.sp ∧ SameControl s t ∧ t.Sane ∧
      (∀ k < bytes.length, some (t.byteAt k) = bytes[k]?) ∧ ∀ x, bytes.length ≤ x → t.byteAt x = s.byteAt x) ∧
    (s.memSize < bytes.length → hostLoad bytes s = (.loadTooLarge, s))

/-- R305: SetPC writes any s64 unchecked and nothing else; an out-of-range PC is caught at the next opcode fetch. -/
def Obligations.SetPCIsUnchecked : Prop :=
  ∀ (s : State) (v : Word),
    (hostSetPC v s).pc = v ∧ (hostSetPC v s).sp = s.sp ∧ SameControl s (hostSetPC v s) ∧
    (∀ x, (hostSetPC v s).byteAt x = s.byteAt x) ∧
    (s.runState = .running → (v.toInt < 0 ∨ s.memSize ≤ v.toInt) → FetchRaises (hostSetPC v s) .memoryError)

/-- R306, R35: Step answers terminal exactly when the engine has halted, with ERR; in a halted state it changes nothing and
answers (true, ERR). -/
def Obligations.HostStepResponds : Prop :=
  (∀ s : State, ∃ t, step s = .next t ∧ hostStep s = (t, (decide (t.runState ≠ .running), t.err))) ∧
  ∀ s : State, s.runState ≠ .running → step s = .next s ∧ hostStep s = (s, (true, s.err))

/-- R307: Run responds exactly with the state and ERR that repeated steps reach at the first terminal run state, a halted
engine absorbing every further step; on a halted engine it responds at once. -/
def Obligations.RunRespondsWithFinalError : Prop :=
  (∀ (n : Nat) (s t : State) (e : Option ErrorCode), hostRun n s = some (t, e) →
    t.runState ≠ .running ∧ e = t.err ∧ ∃ k ≤ n, stepState^[k] s = t) ∧
  ∀ (k n : Nat) (s t : State), stepState^[k] s = t → t.runState ≠ .running → k ≤ n → hostRun n s = some (t, t.err)

/-- R317: a `jmp` to its own address loops forever: Run never responds. -/
def Obligations.JumpToItselfNeverResponds : Prop :=
  ∀ s : State, s.runState = .running → InstrAtPC (.jmp s.pc) s → ∀ n, hostRun n s = none

/-- R42 (decision D7): STATUS holds RUNSTATE in bits 1:0, LATCH in bits 3:2, the code of ERR in bits 7:4, and zero above. -/
def Obligations.StatusWordPacksFields : Prop :=
  ∀ s : State,
    s.statusWord.extractLsb' 0 2 =
      (match s.runState with | .running => 0#2 | .haltedClean => 1#2 | .haltedError => 2#2) ∧
    s.statusWord.extractLsb' 2 2 = (match s.latch with | .active => 0#2 | .overflowed => 1#2 | .underflowed => 2#2) ∧
    s.statusWord.extractLsb' 4 4 =
      (match s.err with
        | none => 0#4 | some .memoryError => 1#4 | some .stackOverflow => 2#4 | some .stackUnderflow => 3#4
        | some .blocked => 4#4 | some .illegalAddress => 5#4 | some .unknownOpcode => 6#4
        | some .arithmeticError => 7#4) ∧
    s.statusWord.extractLsb' 8 56 = 0#56

/-! ### The Memory unit and the Stack unit -/

/-- R61, R62: MemRead inside the bounds is the little-endian sum of its bytes and changes nothing; outside it raises
MemoryError. -/
def Obligations.MemReadIsLittleEndian : Prop :=
  ∀ (s : State) (a : Int) (n : Nat),
    (0 ≤ a ∧ a + n ≤ s.memSize →
      memRead a n s = .ok (∑ k ∈ Finset.range n, (s.byteAt (a.toNat + k)).toNat * 2 ^ (8 * k)) s) ∧
    (a < 0 ∨ s.memSize < a + n → memRead a n s = .raised .memoryError s)

/-- R63: MemWrite inside the bounds writes the low bytes of the value little-endian and nothing else; outside it raises
MemoryError and writes nothing. That the state stays `Sane` is the model's own: its list form of MEM stays canonical
(log 5). -/
def Obligations.MemWriteIsAllOrNothing : Prop :=
  ∀ (s : State) (a : Int) (n v : Nat), s.Sane →
    (0 ≤ a ∧ a + n ≤ s.memSize → ∃ t, memWrite a n v s = .ok () t ∧ t.pc = s.pc ∧ t.sp = s.sp ∧ SameControl s t ∧
      Holds t a.toNat n v ∧ (∀ x, (x < a.toNat ∨ a.toNat + n ≤ x) → t.byteAt x = s.byteAt x) ∧ t.Sane) ∧
    (a < 0 ∨ s.memSize < a + n → memWrite a n v s = .raised .memoryError s)

/-- The model's own canonical form of MEM (log 5): two memories in it that read alike are the same list. -/
def Obligations.CanonicalMemoriesAreExtensional : Prop :=
  ∀ (size size' : Nat) (m m' : Memory), m.wf size = true → m'.wf size' = true → (∀ x, m.read x = m'.read x) → m = m'

/-- R71: Push. -/
def Obligations.PushUnitRule : Prop :=
  ∀ (s : State) (n v : Nat), s.Sane →
    (s.latch ≠ .active → push n v s = .raised .blocked s) ∧
    (s.latch = .active → s.stackSize < s.sp + n → push n v s = .raised .stackOverflow { s with latch := .overflowed }) ∧
    (s.latch = .active → s.sp + n ≤ s.stackSize → ∃ t, push n v s = .ok () t ∧ t.sp = s.sp + n ∧ t.pc = s.pc ∧
      SameControl s t ∧ Holds t (s.memSize - s.stackSize + s.sp) n v ∧
      ∀ x, (x < s.memSize - s.stackSize + s.sp ∨ s.memSize - s.stackSize + s.sp + n ≤ x) → t.byteAt x = s.byteAt x)

/-- R72: Pop. -/
def Obligations.PopUnitRule : Prop :=
  ∀ (s : State) (n : Nat), s.Sane →
    (s.latch ≠ .active → pop n s = .raised .blocked s) ∧
    (s.latch = .active → s.sp < n → pop n s = .raised .stackUnderflow { s with latch := .underflowed }) ∧
    (s.latch = .active → n ≤ s.sp → ∀ v < 256 ^ n, Holds s (s.memSize - s.stackSize + (s.sp - n)) n v →
      pop n s = .ok v { s with sp := s.sp - n })

/-- R73: Peek. The bound is the whole window, and LATCH is never tripped. -/
def Obligations.PeekUnitRule : Prop :=
  ∀ (s : State) (off : Int) (n : Nat), s.Sane →
    (s.latch ≠ .active → peek off n s = .raised .blocked s) ∧
    (s.latch = .active → (s.sp + off < 0 ∨ s.stackSize < s.sp + off + n) → peek off n s = .raised .memoryError s) ∧
    (s.latch = .active → 0 ≤ s.sp + off → s.sp + off + n ≤ s.stackSize →
      ∀ v < 256 ^ n, Holds s (s.memSize - s.stackSize + (s.sp + off).toNat) n v → peek off n s = .ok v s)

/-- R74: Poke. The bound is the whole window, SP does not move, and LATCH is never tripped. -/
def Obligations.PokeUnitRule : Prop :=
  ∀ (s : State) (off : Int) (n v : Nat), s.Sane →
    (s.latch ≠ .active → poke off n v s = .raised .blocked s) ∧
    (s.latch = .active → (s.sp + off < 0 ∨ s.stackSize < s.sp + off + n) → poke off n v s = .raised .memoryError s) ∧
    (s.latch = .active → 0 ≤ s.sp + off → s.sp + off + n ≤ s.stackSize → ∃ t, poke off n v s = .ok () t ∧
      t.sp = s.sp ∧ t.pc = s.pc ∧ SameControl s t ∧ Holds t (s.memSize - s.stackSize + (s.sp + off).toNat) n v ∧
      ∀ x, (x < s.memSize - s.stackSize + (s.sp + off).toNat ∨ s.memSize - s.stackSize + (s.sp + off).toNat + n ≤ x) →
        t.byteAt x = s.byteAt x)

/-- R77 (marked [derived] there): pushing a value of w bytes and popping w bytes returns it unchanged and restores SP, provided the push succeeds. -/
def Obligations.PushPopRoundTrip : Prop :=
  ∀ (s t : State) (w v : Nat), s.Sane → v < 256 ^ w → push w v s = .ok () t → ∃ u, pop w t = .ok v u ∧ u.sp = s.sp

/-! ### Data movement -/

/-- R131 to R133: push-T stores its immediate bit for bit on top of the Stack. -/
def Obligations.PushStoresImmediate : Prop :=
  (∀ imm : Byte, Encodes [0x08, imm] (.pushByte imm)) ∧ OperandPastEndRaises 0x08 2 ∧
  (∀ imm : Byte, BlockedWhenTripped (.pushByte imm) ∧ OverflowsBeyond (.pushByte imm) 1 ∧
    ∀ s : State, s.Sane → s.latch = .active → s.sp + 1 ≤ s.stackSize →
      Completes (.pushByte imm) s (s.pc + 2) (s.sp + 1) (s.slot s.sp) 1 imm.toNat) ∧
  ∀ (v : Word) (op : Byte) (i : Instr), (op, i) ∈ [(0x09, .pushInt v), (0x0A, .pushFloat v)] →
    Encodes (op :: opnd64 v) i ∧ OperandPastEndRaises op 9 ∧ BlockedWhenTripped i ∧ OverflowsBeyond i 8 ∧
    ∀ s : State, s.Sane → s.latch = .active → s.sp + 8 ≤ s.stackSize →
      Completes i s (s.pc + 9) (s.sp + 8) (s.slot s.sp) 8 v.toNat

/-- R134 to R136: pop-T moves SP down and leaves every byte of Memory as it was. -/
def Obligations.PopDiscardsTop : Prop :=
  ∀ (op : Byte) (i : Instr) (w : Nat), (op, i, w) ∈ [(0x0C, .popByte, 1), (0x0D, .popInt, 8), (0x0E, .popFloat, 8)] →
    Encodes [op] i ∧ BlockedWhenTripped i ∧ UnderflowsBelow i w ∧
    ∀ s : State, s.Sane → s.latch = .active → w ≤ s.sp → CompletesStoringNothing i s (s.pc + 1) (s.sp - w)

/-- R137 to R139: get-T pops an address and pushes what stands there; outside Memory it raises MemoryError. -/
def Obligations.GetReadsPoppedAddress : Prop :=
  ∀ (op : Byte) (i : Instr) (w : Nat), (op, i, w) ∈ [(0x10, .getByte, 1), (0x11, .getInt, 8), (0x12, .getFloat, 8)] →
    Encodes [op] i ∧ BlockedWhenTripped i ∧ UnderflowsBelow i 8 ∧
    ∀ (s : State) (a : Word), s.Sane → s.latch = .active → 8 ≤ s.sp → Holds s (s.slot (s.sp - 8)) 8 a.toNat →
      (a.toInt < 0 ∨ s.memSize < a.toInt + w → Raises i s .memoryError .active) ∧
      (0 ≤ a.toInt → a.toInt + w ≤ s.memSize → ∀ v, Holds s a.toInt.toNat w v →
        Completes i s (s.pc + 1) (s.sp - 8 + w) (s.slot (s.sp - 8)) w v)

/-- R140 to R142: put-T pops an address and then a value, and stores the value there; outside Memory it raises MemoryError
and both pops are undone. -/
def Obligations.PutWritesPoppedAddress : Prop :=
  ∀ (op : Byte) (i : Instr) (w : Nat), (op, i, w) ∈ [(0x18, .putByte, 1), (0x19, .putInt, 8), (0x1A, .putFloat, 8)] →
    Encodes [op] i ∧ BlockedWhenTripped i ∧ UnderflowsBelow i (8 + w) ∧
    ∀ (s : State) (a : Word) (v : Nat), s.Sane → s.latch = .active → 8 + w ≤ s.sp →
      Holds s (s.slot (s.sp - 8)) 8 a.toNat → Holds s (s.slot (s.sp - 8 - w)) w v →
      (a.toInt < 0 ∨ s.memSize < a.toInt + w → Raises i s .memoryError .active) ∧
      (0 ≤ a.toInt → a.toInt + w ≤ s.memSize → Completes i s (s.pc + 1) (s.sp - 8 - w) a.toInt.toNat w v)

/-- R143 to R145: get-T-address pushes what stands at its literal address; an address outside Memory raises MemoryError
before the Stack is touched. -/
def Obligations.GetReadsLiteralAddress : Prop :=
  ∀ (a : Word) (op : Byte) (i : Instr) (w : Nat),
    (op, i, w) ∈ [(0x20, .getByteAddress a, 1), (0x21, .getIntAddress a, 8), (0x22, .getFloatAddress a, 8)] →
    Encodes (op :: opnd64 a) i ∧ OperandPastEndRaises op 9 ∧
    (∀ s : State, (a.toInt < 0 ∨ s.memSize < a.toInt + w) → Raises i s .memoryError s.latch) ∧
    ∀ s : State, 0 ≤ a.toInt → a.toInt + w ≤ s.memSize →
      (s.latch ≠ .active → Raises i s .blocked s.latch) ∧
      (s.Sane → s.latch = .active → s.stackSize < s.sp + w → Raises i s .stackOverflow .overflowed) ∧
      (s.Sane → s.latch = .active → s.sp + w ≤ s.stackSize → ∀ v, Holds s a.toInt.toNat w v →
        Completes i s (s.pc + 9) (s.sp + w) (s.slot s.sp) w v)

/-- R146 to R148: put-T-address pops a value and stores it at its literal address; outside Memory it raises MemoryError and
the pop is undone. -/
def Obligations.PutWritesLiteralAddress : Prop :=
  ∀ (a : Word) (op : Byte) (i : Instr) (w : Nat),
    (op, i, w) ∈ [(0x28, .putByteAddress a, 1), (0x29, .putIntAddress a, 8), (0x2A, .putFloatAddress a, 8)] →
    Encodes (op :: opnd64 a) i ∧ OperandPastEndRaises op 9 ∧ BlockedWhenTripped i ∧ UnderflowsBelow i w ∧
    ∀ (s : State) (v : Nat), s.Sane → s.latch = .active → w ≤ s.sp → Holds s (s.slot (s.sp - w)) w v →
      (a.toInt < 0 ∨ s.memSize < a.toInt + w → Raises i s .memoryError .active) ∧
      (0 ≤ a.toInt → a.toInt + w ≤ s.memSize → Completes i s (s.pc + 9) (s.sp - w) a.toInt.toNat w v)

/-- R149 to R151: get-T-stack pushes a copy of what stands at slot SP + off of the whole window; outside the window it
raises MemoryError with LATCH unchanged. -/
def Obligations.GetCopiesStackSlot : Prop :=
  ∀ (off : Word) (op : Byte) (i : Instr) (w : Nat),
    (op, i, w) ∈ [(0x30, .getByteStack off, 1), (0x31, .getIntStack off, 8), (0x32, .getFloatStack off, 8)] →
    Encodes (op :: opnd64 off) i ∧ OperandPastEndRaises op 9 ∧ BlockedWhenTripped i ∧
    ∀ s : State, s.Sane → s.latch = .active →
      (s.sp + off.toInt < 0 ∨ s.stackSize < s.sp + off.toInt + w → Raises i s .memoryError .active) ∧
      (0 ≤ s.sp + off.toInt → s.sp + off.toInt + w ≤ s.stackSize →
        (s.stackSize < s.sp + w → Raises i s .stackOverflow .overflowed) ∧
        (s.sp + w ≤ s.stackSize → ∀ v, Holds s (slotAddress s (s.sp + off.toInt)).toNat w v →
          Completes i s (s.pc + 9) (s.sp + w) (s.slot s.sp) w v))

/-- R152 to R154: put-T-stack pops a value and stores it at slot SP' + off, SP' being SP after the pop; outside the window
it raises MemoryError, LATCH unchanged and the pop undone. -/
def Obligations.PutWritesStackSlot : Prop :=
  ∀ (off : Word) (op : Byte) (i : Instr) (w : Nat),
    (op, i, w) ∈ [(0x38, .putByteStack off, 1), (0x39, .putIntStack off, 8), (0x3A, .putFloatStack off, 8)] →
    Encodes (op :: opnd64 off) i ∧ OperandPastEndRaises op 9 ∧ BlockedWhenTripped i ∧ UnderflowsBelow i w ∧
    ∀ (s : State) (v sp' : Nat), s.Sane → s.latch = .active → s.sp = sp' + w → Holds s (s.slot sp') w v →
      (sp' + off.toInt < 0 ∨ s.stackSize < sp' + off.toInt + w → Raises i s .memoryError .active) ∧
      (0 ≤ sp' + off.toInt → sp' + off.toInt + w ≤ s.stackSize →
        Completes i s (s.pc + 9) sp' (slotAddress s (sp' + off.toInt)).toNat w v)

/-! ### Arithmetic -/

/-- R175, R178, R181: byte addition, subtraction and multiplication wrap mod 256, A being the deeper operand. -/
def Obligations.ByteArithmeticWraps : Prop :=
  ∀ (op : Byte) (i : Instr) (f : Int → Int → Int),
    (op, i, f) ∈ [(0x40, .addByte, fun a b => a + b), (0x44, .subByte, fun a b => a - b), (0x48, .mulByte, fun a b => a * b)] →
    Encodes [op] i ∧ BlockedWhenTripped i ∧ UnderflowsBelow i 2 ∧
    ∀ (s : State) (a b : Byte), s.Sane → s.latch = .active → 2 ≤ s.sp →
      Holds s (s.slot (s.sp - 2)) 1 a.toNat → Holds s (s.slot (s.sp - 1)) 1 b.toNat →
      Completes i s (s.pc + 1) (s.sp - 1) (s.slot (s.sp - 2)) 1 (f a.toNat b.toNat % 256).toNat

/-- R176, R179, R182: int addition, subtraction and multiplication wrap mod 2^64, A being the deeper operand. -/
def Obligations.IntArithmeticWraps : Prop :=
  ∀ (op : Byte) (i : Instr) (f : Int → Int → Int),
    (op, i, f) ∈ [(0x41, .addInt, fun a b => a + b), (0x45, .subInt, fun a b => a - b), (0x49, .mulInt, fun a b => a * b)] →
    Encodes [op] i ∧ BlockedWhenTripped i ∧ UnderflowsBelow i 16 ∧
    ∀ (s : State) (a b : Word), s.Sane → s.latch = .active → 16 ≤ s.sp →
      Holds s (s.slot (s.sp - 16)) 8 a.toNat → Holds s (s.slot (s.sp - 8)) 8 b.toNat →
      Completes i s (s.pc + 1) (s.sp - 8) (s.slot (s.sp - 16)) 8 (f a.toInt b.toInt % 2 ^ 64).toNat

/-- R184 (decision D18): div-byte is unsigned floor division, and division by zero raises ArithmeticError with both pops undone. -/
def Obligations.ByteDivision : Prop :=
  Encodes [0x4C] .divByte ∧ BlockedWhenTripped .divByte ∧ UnderflowsBelow .divByte 2 ∧
  ∀ (s : State) (a b : Byte), s.Sane → s.latch = .active → 2 ≤ s.sp →
    Holds s (s.slot (s.sp - 2)) 1 a.toNat → Holds s (s.slot (s.sp - 1)) 1 b.toNat →
    (b = 0 → Raises .divByte s .arithmeticError .active) ∧
    (b ≠ 0 → Completes .divByte s (s.pc + 1) (s.sp - 1) (s.slot (s.sp - 2)) 1 (a.toNat / b.toNat))

/-- R185 (decisions D17 and D18; the truncation is marked as general knowledge in R173, log 16): div-int truncates toward
zero and wraps (−2^63 ÷ −1 = −2^63), and division by zero raises ArithmeticError with
both pops undone. -/
def Obligations.IntDivision : Prop :=
  Encodes [0x4D] .divInt ∧ BlockedWhenTripped .divInt ∧ UnderflowsBelow .divInt 16 ∧
  ∀ (s : State) (a b : Word), s.Sane → s.latch = .active → 16 ≤ s.sp →
    Holds s (s.slot (s.sp - 16)) 8 a.toNat → Holds s (s.slot (s.sp - 8)) 8 b.toNat →
    (b = 0 → Raises .divInt s .arithmeticError .active) ∧
    (b ≠ 0 → ∀ (m : Nat) (q : Int), m = a.toInt.natAbs / b.toInt.natAbs →
      q = (if (0 ≤ a.toInt ↔ 0 ≤ b.toInt) then (m : Int) else -(m : Int)) →
      Completes .divInt s (s.pc + 1) (s.sp - 8) (s.slot (s.sp - 16)) 8 (q % 2 ^ 64).toNat)

/-- R177, R180, R183, R186: the float operations pop B and A and push one pattern, and none of them faults on a value. What
the pattern is, FloatSpecialValues and FloatRoundsToNearestEven state. -/
def Obligations.FloatArithmeticPushesResult : Prop :=
  ∀ (op : Byte) (i : Instr) (f : Word → Word → Word),
    (op, i, f) ∈ [(0x42, .addFloat, fadd), (0x46, .subFloat, fsub), (0x4A, .mulFloat, fmul), (0x4E, .divFloat, fdiv)] →
    Encodes [op] i ∧ BlockedWhenTripped i ∧ UnderflowsBelow i 16 ∧
    ∀ (s : State) (a b : Word), s.Sane → s.latch = .active → 16 ≤ s.sp →
      Holds s (s.slot (s.sp - 16)) 8 a.toNat → Holds s (s.slot (s.sp - 8)) 8 b.toNat →
      Completes i s (s.pc + 1) (s.sp - 8) (s.slot (s.sp - 16)) 8 (f a b).toNat

/-- R174 and the IEEE-754 cases it names: NaN results take the pattern nanResult, which is a NaN; infinities and zeros
combine as IEEE-754 says. The signs of zero sums and the infinity cases the spec does not spell out are log 13. -/
def Obligations.FloatSpecialValues : Prop :=
  (∀ op a b, IsNaNPattern (nanResult op a b)) ∧
  (∀ a b : Word, IsNaNPattern a ∨ IsNaNPattern b →
    fadd a b = nanResult .fadd a b ∧ fsub a b = nanResult .fsub a b ∧ fmul a b = nanResult .fmul a b ∧
    fdiv a b = nanResult .fdiv a b) ∧
  (fadd posInf negInf = nanResult .fadd posInf negInf ∧ fadd negInf posInf = nanResult .fadd negInf posInf ∧
    fsub posInf posInf = nanResult .fsub posInf posInf ∧ fsub negInf negInf = nanResult .fsub negInf negInf) ∧
  (fadd posInf posInf = posInf ∧ fadd negInf negInf = negInf ∧ fsub posInf negInf = posInf ∧ fsub negInf posInf = negInf) ∧
  (∀ a b : Word, isFinite a → isFinite b →
    fadd posInf b = posInf ∧ fadd negInf b = negInf ∧ fadd a posInf = posInf ∧ fadd a negInf = negInf ∧
    fsub posInf b = posInf ∧ fsub negInf b = negInf ∧ fsub a posInf = negInf ∧ fsub a negInf = posInf ∧
    (floatRat a + floatRat b = 0 → fadd a b = if a = negZero ∧ b = negZero then negZero else 0) ∧
    (floatRat a - floatRat b = 0 → fsub a b = if a = negZero ∧ b = 0 then negZero else 0)) ∧
  (∀ a b : Word, (a = posInf ∨ a = negInf) → (b = posInf ∨ b = negInf) →
    fmul a b = (if a.msb = b.msb then posInf else negInf) ∧ fdiv a b = nanResult .fdiv a b) ∧
  (∀ a b : Word, (a = posInf ∨ a = negInf) → isFinite b →
    fmul a b = (if floatRat b = 0 then nanResult .fmul a b else if a.msb = b.msb then posInf else negInf) ∧
    fmul b a = (if floatRat b = 0 then nanResult .fmul b a else if a.msb = b.msb then posInf else negInf) ∧
    fdiv a b = (if a.msb = b.msb then posInf else negInf) ∧
    fdiv b a = (if a.msb = b.msb then 0 else negZero)) ∧
  ∀ a b : Word, isFinite a → isFinite b →
    (floatRat a * floatRat b = 0 → fmul a b = if a.msb = b.msb then 0 else negZero) ∧
    (floatRat b = 0 → floatRat a ≠ 0 → fdiv a b = if a.msb = b.msb then posInf else negInf) ∧
    (floatRat b = 0 → floatRat a = 0 → fdiv a b = nanResult .fdiv a b) ∧
    (floatRat b ≠ 0 → floatRat a = 0 → fdiv a b = if a.msb = b.msb then 0 else negZero)

/-- R174 (D15): on finite operands with a nonzero exact result, each float operation gives that result rounded to nearest,
ties to even, with no flush to zero, and carrying its sign. The magnitude from which a result is an infinity is the
standard's (log 13). -/
def Obligations.FloatRoundsToNearestEven : Prop :=
  ∀ a b : Word, isFinite a → isFinite b →
    (∀ x : ℚ, x = floatRat a + floatRat b → x ≠ 0 → IsRoundedTo x (fadd a b) ∧ (fadd a b).msb = decide (x < 0)) ∧
    (∀ x : ℚ, x = floatRat a - floatRat b → x ≠ 0 → IsRoundedTo x (fsub a b) ∧ (fsub a b).msb = decide (x < 0)) ∧
    (∀ x : ℚ, x = floatRat a * floatRat b → x ≠ 0 → IsRoundedTo x (fmul a b) ∧ (fmul a b).msb = decide (x < 0)) ∧
    (∀ x : ℚ, floatRat b ≠ 0 → x = floatRat a / floatRat b → x ≠ 0 →
      IsRoundedTo x (fdiv a b) ∧ (fdiv a b).msb = decide (x < 0))

/-! ### Comparison and logic -/

/-- R203, R206, R209, R212: byte comparisons are unsigned and push one truth byte. -/
def Obligations.ByteComparisons : Prop :=
  ∀ (op : Byte) (i : Instr) (rel : Nat → Nat → Bool),
    (op, i, rel) ∈ [(0x60, .equalByte, fun a b => decide (a = b)), (0x64, .unequalByte, fun a b => decide (a ≠ b)),
      (0x68, .greaterByte, fun a b => decide (a > b)), (0x6C, .smallerByte, fun a b => decide (a < b))] →
    Encodes [op] i ∧ BlockedWhenTripped i ∧ UnderflowsBelow i 2 ∧
    ∀ (s : State) (a b : Byte), s.Sane → s.latch = .active → 2 ≤ s.sp →
      Holds s (s.slot (s.sp - 2)) 1 a.toNat → Holds s (s.slot (s.sp - 1)) 1 b.toNat →
      Completes i s (s.pc + 1) (s.sp - 1) (s.slot (s.sp - 2)) 1 (if rel a.toNat b.toNat then 0xFF else 0x00)

/-- R204, R207, R210, R213: int comparisons are signed and push one truth byte. -/
def Obligations.IntComparisons : Prop :=
  ∀ (op : Byte) (i : Instr) (rel : Int → Int → Bool),
    (op, i, rel) ∈ [(0x61, .equalInt, fun a b => decide (a = b)), (0x65, .unequalInt, fun a b => decide (a ≠ b)),
      (0x69, .greaterInt, fun a b => decide (a > b)), (0x6D, .smallerInt, fun a b => decide (a < b))] →
    Encodes [op] i ∧ BlockedWhenTripped i ∧ UnderflowsBelow i 16 ∧
    ∀ (s : State) (a b : Word), s.Sane → s.latch = .active → 16 ≤ s.sp →
      Holds s (s.slot (s.sp - 16)) 8 a.toNat → Holds s (s.slot (s.sp - 8)) 8 b.toNat →
      Completes i s (s.pc + 1) (s.sp - 15) (s.slot (s.sp - 16)) 1 (if rel a.toInt b.toInt then 0xFF else 0x00)

/-- R205, R208, R211, R214, with R202: float comparisons follow IEEE-754 (±0 equal, NaN unordered, unequal the negation of
equal) and push one truth byte. -/
def Obligations.FloatComparisons : Prop :=
  ∀ (op : Byte) (i : Instr) (rel : Word → Word → Prop),
    (op, i, rel) ∈ [
      (0x62, .equalFloat, fun a b => ¬ IsNaNPattern a ∧ ¬ IsNaNPattern b ∧ floatOrder a = floatOrder b),
      (0x66, .unequalFloat, fun a b => ¬ (¬ IsNaNPattern a ∧ ¬ IsNaNPattern b ∧ floatOrder a = floatOrder b)),
      (0x6A, .greaterFloat, fun a b => ¬ IsNaNPattern a ∧ ¬ IsNaNPattern b ∧ floatOrder a > floatOrder b),
      (0x6E, .smallerFloat, fun a b => ¬ IsNaNPattern a ∧ ¬ IsNaNPattern b ∧ floatOrder a < floatOrder b)] →
    Encodes [op] i ∧ BlockedWhenTripped i ∧ UnderflowsBelow i 16 ∧
    ∀ (s : State) (a b : Word), s.Sane → s.latch = .active → 16 ≤ s.sp →
      Holds s (s.slot (s.sp - 16)) 8 a.toNat → Holds s (s.slot (s.sp - 8)) 8 b.toNat →
      (rel a b → Completes i s (s.pc + 1) (s.sp - 15) (s.slot (s.sp - 16)) 1 0xFF) ∧
      (¬ rel a b → Completes i s (s.pc + 1) (s.sp - 15) (s.slot (s.sp - 16)) 1 0x00)

/-- R215, R216, R217, R218: the bitwise operations act on bits 7:0; `not` takes one operand and leaves SP. -/
def Obligations.ByteLogic : Prop :=
  (∀ (op : Byte) (i : Instr) (f : Bool → Bool → Bool),
    (op, i, f) ∈ [(0x70, .andByte, and), (0x71, .orByte, or), (0x73, .xorByte, xor)] →
    Encodes [op] i ∧ BlockedWhenTripped i ∧ UnderflowsBelow i 2 ∧
    ∀ (s : State) (a b r : Byte), s.Sane → s.latch = .active → 2 ≤ s.sp →
      Holds s (s.slot (s.sp - 2)) 1 a.toNat → Holds s (s.slot (s.sp - 1)) 1 b.toNat →
      (∀ k < 8, r.getLsbD k = f (a.getLsbD k) (b.getLsbD k)) →
      Completes i s (s.pc + 1) (s.sp - 1) (s.slot (s.sp - 2)) 1 r.toNat) ∧
  Encodes [0x72] .notByte ∧ BlockedWhenTripped .notByte ∧ UnderflowsBelow .notByte 1 ∧
  ∀ (s : State) (a : Byte), s.Sane → s.latch = .active → 1 ≤ s.sp → Holds s (s.slot (s.sp - 1)) 1 a.toNat →
    Completes .notByte s (s.pc + 1) s.sp (s.slot (s.sp - 1)) 1 (255 - a.toNat)

/-! ### Control flow -/

/-- R232: end halts cleanly and changes nothing else; PC still holds the address of the 0x00 byte. -/
def Obligations.EndHaltsCleanly : Prop :=
  Encodes [0x00] .endOp ∧
  (∀ s : State, exec .endOp s = .next { s with runState := .haltedClean }) ∧
  ∀ s : State, s.runState = .running → 0 ≤ s.pc.toInt → s.pc.toInt < s.memSize → s.byteAt s.pc.toInt.toNat = 0x00 →
    step s = .next { s with runState := .haltedClean }

/-- R233: ret pops a return address and jumps to it; a target outside Memory raises IllegalAddress, the pop undone. -/
def Obligations.ReturnJumpsToPoppedAddress : Prop :=
  Encodes [0xE0] .ret ∧ BlockedWhenTripped .ret ∧ UnderflowsBelow .ret 8 ∧
  ∀ (s : State) (t : Word), s.Sane → s.latch = .active → 8 ≤ s.sp → Holds s (s.slot (s.sp - 8)) 8 t.toNat →
    (0 ≤ t.toInt → t.toInt < s.memSize → CompletesStoringNothing .ret s t (s.sp - 8)) ∧
    (t.toInt < 0 ∨ s.memSize ≤ t.toInt → Raises .ret s .illegalAddress .active)

/-- R234: jmp sets PC to its literal target; a target outside Memory raises IllegalAddress. -/
def Obligations.JumpSetsPC : Prop :=
  ∀ t : Word, Encodes (0xE1 :: opnd64 t) (.jmp t) ∧ OperandPastEndRaises 0xE1 9 ∧
    ∀ s : State, (0 ≤ t.toInt → t.toInt < s.memSize → CompletesStoringNothing (.jmp t) s t s.sp) ∧
      (t.toInt < 0 ∨ s.memSize ≤ t.toInt → Raises (.jmp t) s .illegalAddress s.latch)

/-- R235 to R237, R241 to R243, with R231: the conditional jumps whose target is on the Stack pop the target and then the
value; taken, they check and set the target; not taken, they fall through 1 byte whatever the target is. -/
def Obligations.ConditionalJumpsWithStackTarget : Prop :=
  ∀ (op : Byte) (i : Instr) (w : Nat) (taken : Nat → Prop),
    (op, i, w, taken) ∈ [
      (0xE4, .jmpzByte, 1, fun v => v = 0), (0xE5, .jmpzInt, 8, fun v => v = 0),
      (0xE6, .jmpzFloat, 8, fun v => v = 0 ∨ v = 2 ^ 63),
      (0xEC, .jmpnzByte, 1, fun v => v ≠ 0), (0xED, .jmpnzInt, 8, fun v => v ≠ 0),
      (0xEE, .jmpnzFloat, 8, fun v => v ≠ 0 ∧ v ≠ 2 ^ 63)] →
    Encodes [op] i ∧ BlockedWhenTripped i ∧ UnderflowsBelow i (8 + w) ∧
    ∀ (s : State) (t : Word) (v : Nat), s.Sane → s.latch = .active → 8 + w ≤ s.sp → v < 256 ^ w →
      Holds s (s.slot (s.sp - 8)) 8 t.toNat → Holds s (s.slot (s.sp - 8 - w)) w v →
      (taken v → 0 ≤ t.toInt → t.toInt < s.memSize → CompletesStoringNothing i s t (s.sp - 8 - w)) ∧
      (taken v → (t.toInt < 0 ∨ s.memSize ≤ t.toInt) → Raises i s .illegalAddress .active) ∧
      (¬ taken v → CompletesStoringNothing i s (s.pc + 1) (s.sp - 8 - w))

/-- R238 to R240, R244 to R246, with R231: the conditional jumps with a literal target pop the value; taken, they check and
set the target; not taken, they fall through past the operand, 9 bytes, whatever the target is. -/
def Obligations.ConditionalJumpsWithLiteralTarget : Prop :=
  ∀ (t : Word) (op : Byte) (i : Instr) (w : Nat) (taken : Nat → Prop),
    (op, i, w, taken) ∈ [
      (0xE8, .jmpzByteAddress t, 1, fun v => v = 0), (0xE9, .jmpzIntAddress t, 8, fun v => v = 0),
      (0xEA, .jmpzFloatAddress t, 8, fun v => v = 0 ∨ v = 2 ^ 63),
      (0xF0, .jmpnzByteAddress t, 1, fun v => v ≠ 0), (0xF1, .jmpnzIntAddress t, 8, fun v => v ≠ 0),
      (0xF2, .jmpnzFloatAddress t, 8, fun v => v ≠ 0 ∧ v ≠ 2 ^ 63)] →
    Encodes (op :: opnd64 t) i ∧ OperandPastEndRaises op 9 ∧ BlockedWhenTripped i ∧ UnderflowsBelow i w ∧
    ∀ (s : State) (v : Nat), s.Sane → s.latch = .active → w ≤ s.sp → v < 256 ^ w → Holds s (s.slot (s.sp - w)) w v →
      (taken v → 0 ≤ t.toInt → t.toInt < s.memSize → CompletesStoringNothing i s t (s.sp - w)) ∧
      (taken v → (t.toInt < 0 ∨ s.memSize ≤ t.toInt) → Raises i s .illegalAddress .active) ∧
      (¬ taken v → CompletesStoringNothing i s (s.pc + 9) (s.sp - w))

/-- R247: call pops its target, pushes PC0 + 1 in its place and jumps; a target outside Memory raises IllegalAddress with
the pop and push undone. -/
def Obligations.CallPushesReturnAddress : Prop :=
  Encodes [0xF8] .call ∧ BlockedWhenTripped .call ∧ UnderflowsBelow .call 8 ∧
  ∀ (s : State) (t : Word), s.Sane → s.latch = .active → 8 ≤ s.sp → Holds s (s.slot (s.sp - 8)) 8 t.toNat →
    (0 ≤ t.toInt → t.toInt < s.memSize → Completes .call s t s.sp (s.slot (s.sp - 8)) 8 (s.pc + 1).toNat) ∧
    (t.toInt < 0 ∨ s.memSize ≤ t.toInt → Raises .call s .illegalAddress .active)

/-- R248: call-address pushes PC0 + 9 and jumps to its literal target; a full Stack raises StackOverflow whatever the
target, and a target outside Memory raises IllegalAddress with the push undone. -/
def Obligations.CallAddressPushesReturnAddress : Prop :=
  ∀ t : Word, Encodes (0xF9 :: opnd64 t) (.callAddress t) ∧ OperandPastEndRaises 0xF9 9 ∧
    BlockedWhenTripped (.callAddress t) ∧ OverflowsBeyond (.callAddress t) 8 ∧
    ∀ s : State, s.Sane → s.latch = .active → s.sp + 8 ≤ s.stackSize →
      (0 ≤ t.toInt → t.toInt < s.memSize →
        Completes (.callAddress t) s t (s.sp + 8) (s.slot s.sp) 8 (s.pc + 9).toNat) ∧
      (t.toInt < 0 ∨ s.memSize ≤ t.toInt → Raises (.callAddress t) s .illegalAddress .active)

/-! ### The whole machine -/

/-- R44 (marked [derived] there), with R36 and the model's canonical form of MEM (log 5): the invariant of the machine is
kept by every step from every state that meets it. -/
def Obligations.StepKeepsInvariant : Prop :=
  ∀ s t : State, s.Inv → step s = .next t → t.Inv

/-- R44, R45: the state after reset, of the sizes the model chose for it (log 1), meets the invariant, the model's
canonical form of MEM (log 5) within it. -/
def Obligations.ResetMeetsInvariant : Prop := State.reset.Inv

/-- R44 (marked [derived] there), with R36 and the model's canonical form of MEM (log 5): the invariant holds in every state
that host commands and steps reach from a construction. -/
def Obligations.InvariantHoldsInReachableStates : Prop :=
  ∀ s : State, Reachable s → s.Inv

/-- R32 (marked [derived] there): from 0 ≤ PC ≤ M every step leaves 0 ≤ PC ≤ M; PC never wraps around. -/
def Obligations.StepKeepsPcInRange : Prop :=
  ∀ s t : State, s.Sane → s.PcInRange → step s = .next t → t.PcInRange

/-- R279: a step that raises leaves MEM, SP and PC as they were and records the error; LATCH is as it was, or tripped by the
stack error that is recorded. -/
def Obligations.ErrorHaltRestoresState : Prop :=
  ∀ s t : State, s.runState = .running → step s = .next t → t.runState = .haltedError →
    ∃ e, t = errorHalt s e t.latch ∧
      ((e = .stackOverflow ∧ t.latch = .overflowed) ∨ (e = .stackUnderflow ∧ t.latch = .underflowed) ∨
        (e ≠ .stackOverflow ∧ e ≠ .stackUnderflow ∧ t.latch = s.latch))

/-- R34: LATCH leaves ACTIVE only in a step that halts with the matching stack error, and once tripped never changes. -/
def Obligations.LatchIsSticky : Prop :=
  ∀ s t : State, step s = .next t →
    (s.latch ≠ .active → t.latch = s.latch) ∧
    (s.latch = .active → t.latch = .overflowed → t.runState = .haltedError ∧ t.err = some .stackOverflow) ∧
    (s.latch = .active → t.latch = .underflowed → t.runState = .haltedError ∧ t.err = some .stackUnderflow)

/-- R112, R6, R7: every step from every state answers a next state, and M, S and TRACE are fixed for the life of the
engine. -/
def Obligations.StepAlwaysAnswers : Prop :=
  ∀ s : State, ∃ t, step s = .next t ∧ t.memSize = s.memSize ∧ t.stackSize = s.stackSize ∧ t.traceOn = s.traceOn

/-- R274 (marked [derived] there): in a state that meets the invariant, no step raises Blocked. -/
def Obligations.BlockedIsUnreachable : Prop :=
  ∀ s t : State, s.Inv → s.err ≠ some .blocked → step s = .next t → t.err ≠ some .blocked

/-- R9, R311: TRACE has no effect on any step: engines that differ in it alone take the same step. -/
def Obligations.TraceDoesNotAffectSteps : Prop :=
  ∀ (s : State) (b : Bool), ∃ t, step s = .next t ∧
    step { s with traceOn := b } = .next { t with traceOn := b }

/-- R288 (its fields are the spec's decision D25): the trace port emits exactly one record per step of a running engine that
has it. The record holds PC0, the opcode byte, the mnemonic of R108, the operand bytes read as the format of the opcode says,
and the outcome. That a step whose opcode fetch raised emits a record is the model's reading (DEDUCED, log 10). -/
def Obligations.TraceRecordDescribesStep : Prop :=
  (∀ s : State, s.traceOn = false ∨ s.runState ≠ .running → traceRecord s = none) ∧
  ∀ s t : State, s.Inv → s.traceOn = true → s.runState = .running → step s = .next t →
    ∃ r, traceRecord s = some r ∧ r.pc = s.pc.toInt ∧
      (r.outcome = .ok ↔ t.runState = .running) ∧ (r.outcome = .haltedClean ↔ t.runState = .haltedClean) ∧
      (∀ e, r.outcome = .error e ↔ t.err = some e) ∧
      (s.pc.toInt < 0 ∨ s.memSize ≤ s.pc.toInt → r.opcode = none ∧ r.mnemonic = none ∧ r.operand = none) ∧
      ∀ op : Byte, 0 ≤ s.pc.toInt → s.pc.toInt < s.memSize → s.byteAt s.pc.toInt.toNat = op →
        r.opcode = some op ∧ r.mnemonic = mnemonicOf op ∧ (r.mnemonic = none ↔ undefinedOpcode op = true) ∧
        (op = 0x08 → s.pc.toInt + 2 ≤ s.memSize → r.operand = some (.u8 (s.byteAt (s.pc.toInt.toNat + 1)))) ∧
        (op = 0x0A → s.pc.toInt + 9 ≤ s.memSize → ∀ bits : Word, Holds s (s.pc.toInt.toNat + 1) 8 bits.toNat →
          r.operand = some (.float bits)) ∧
        (f8Opcode op = true → op ≠ 0x0A → s.pc.toInt + 9 ≤ s.memSize → ∀ v : Word,
          Holds s (s.pc.toInt.toNat + 1) 8 v.toNat → r.operand = some (.s64 v.toInt)) ∧
        (op = 0x08 → s.memSize < s.pc.toInt + 2 → r.operand = none) ∧
        (f8Opcode op = true → s.memSize < s.pc.toInt + 9 → r.operand = none) ∧
        (op ≠ 0x08 → f8Opcode op = false → r.operand = none)

/-- R83: a store to the next opcode byte is seen by the next fetch: put-byte-address of 0x00 to PC0 + 9 makes the next step
End. -/
def Obligations.FetchSeesStoredByte : Prop :=
  ∀ (s : State) (a : Word), s.Sane → s.runState = .running → s.latch = .active → 1 ≤ s.sp →
    InstrAtPC (.putByteAddress a) s → a.toInt = s.pc.toInt + 9 → a.toInt < s.memSize →
    Holds s (s.slot (s.sp - 1)) 1 0x00 →
    ∃ t, step s = .next t ∧ t.pc = a ∧ step t = .next { t with runState := .haltedClean }
end

