-- ==== Sys2Proof/Laws/PerInstr.lean ====
section
/-! SUPPORT. Facts about every instruction as syntax, one lemma per constructor: its encoding has the length of its format, and its opcode names its own row of the opcode table. -/
namespace Sys2Proof.Laws

/-- R107: the encoding is the opcode byte and opw operand bytes, opw being that of the opcode's row. -/
def EncodedLength.Statement (i : Instr) : Prop :=
  ∃ row, lookupOpcode i.opcode = some row ∧ (encode i).length = 1 + row.shape.operandWidth

/-- R108: the row of the instruction's opcode builds that instruction again from its own operand. -/
def TableRow.Statement (i : Instr) : Prop :=
  ∃ row, lookupOpcode i.opcode = some row ∧ row.opcode = i.opcode ∧
    match row.shape with
    | .f0 j => j = i ∧ i.operandBytes = []
    | .f1 mk => ∃ x : Byte, mk x = i ∧ i.operandBytes = leBytes 1 x.toNat
    | .f8 mk => ∃ x : Word, mk x = i ∧ i.operandBytes = leBytes 8 x.toNat

theorem EncodedLength.pushByte (x : Byte) : EncodedLength.Statement (.pushByte x) := ⟨_, rfl, rfl⟩
theorem EncodedLength.pushInt (x : Word) : EncodedLength.Statement (.pushInt x) := ⟨_, rfl, rfl⟩
theorem EncodedLength.pushFloat (x : Word) : EncodedLength.Statement (.pushFloat x) := ⟨_, rfl, rfl⟩
theorem EncodedLength.popByte : EncodedLength.Statement .popByte := ⟨_, rfl, rfl⟩
theorem EncodedLength.popInt : EncodedLength.Statement .popInt := ⟨_, rfl, rfl⟩
theorem EncodedLength.popFloat : EncodedLength.Statement .popFloat := ⟨_, rfl, rfl⟩
theorem EncodedLength.getByte : EncodedLength.Statement .getByte := ⟨_, rfl, rfl⟩
theorem EncodedLength.getInt : EncodedLength.Statement .getInt := ⟨_, rfl, rfl⟩
theorem EncodedLength.getFloat : EncodedLength.Statement .getFloat := ⟨_, rfl, rfl⟩
theorem EncodedLength.putByte : EncodedLength.Statement .putByte := ⟨_, rfl, rfl⟩
theorem EncodedLength.putInt : EncodedLength.Statement .putInt := ⟨_, rfl, rfl⟩
theorem EncodedLength.putFloat : EncodedLength.Statement .putFloat := ⟨_, rfl, rfl⟩
theorem EncodedLength.getByteAddress (x : Word) : EncodedLength.Statement (.getByteAddress x) := ⟨_, rfl, rfl⟩
theorem EncodedLength.getIntAddress (x : Word) : EncodedLength.Statement (.getIntAddress x) := ⟨_, rfl, rfl⟩
theorem EncodedLength.getFloatAddress (x : Word) : EncodedLength.Statement (.getFloatAddress x) := ⟨_, rfl, rfl⟩
theorem EncodedLength.putByteAddress (x : Word) : EncodedLength.Statement (.putByteAddress x) := ⟨_, rfl, rfl⟩
theorem EncodedLength.putIntAddress (x : Word) : EncodedLength.Statement (.putIntAddress x) := ⟨_, rfl, rfl⟩
theorem EncodedLength.putFloatAddress (x : Word) : EncodedLength.Statement (.putFloatAddress x) := ⟨_, rfl, rfl⟩
theorem EncodedLength.getByteStack (x : Word) : EncodedLength.Statement (.getByteStack x) := ⟨_, rfl, rfl⟩
theorem EncodedLength.getIntStack (x : Word) : EncodedLength.Statement (.getIntStack x) := ⟨_, rfl, rfl⟩
theorem EncodedLength.getFloatStack (x : Word) : EncodedLength.Statement (.getFloatStack x) := ⟨_, rfl, rfl⟩
theorem EncodedLength.putByteStack (x : Word) : EncodedLength.Statement (.putByteStack x) := ⟨_, rfl, rfl⟩
theorem EncodedLength.putIntStack (x : Word) : EncodedLength.Statement (.putIntStack x) := ⟨_, rfl, rfl⟩
theorem EncodedLength.putFloatStack (x : Word) : EncodedLength.Statement (.putFloatStack x) := ⟨_, rfl, rfl⟩
theorem EncodedLength.addByte : EncodedLength.Statement .addByte := ⟨_, rfl, rfl⟩
theorem EncodedLength.addInt : EncodedLength.Statement .addInt := ⟨_, rfl, rfl⟩
theorem EncodedLength.addFloat : EncodedLength.Statement .addFloat := ⟨_, rfl, rfl⟩
theorem EncodedLength.subByte : EncodedLength.Statement .subByte := ⟨_, rfl, rfl⟩
theorem EncodedLength.subInt : EncodedLength.Statement .subInt := ⟨_, rfl, rfl⟩
theorem EncodedLength.subFloat : EncodedLength.Statement .subFloat := ⟨_, rfl, rfl⟩
theorem EncodedLength.mulByte : EncodedLength.Statement .mulByte := ⟨_, rfl, rfl⟩
theorem EncodedLength.mulInt : EncodedLength.Statement .mulInt := ⟨_, rfl, rfl⟩
theorem EncodedLength.mulFloat : EncodedLength.Statement .mulFloat := ⟨_, rfl, rfl⟩
theorem EncodedLength.divByte : EncodedLength.Statement .divByte := ⟨_, rfl, rfl⟩
theorem EncodedLength.divInt : EncodedLength.Statement .divInt := ⟨_, rfl, rfl⟩
theorem EncodedLength.divFloat : EncodedLength.Statement .divFloat := ⟨_, rfl, rfl⟩
theorem EncodedLength.equalByte : EncodedLength.Statement .equalByte := ⟨_, rfl, rfl⟩
theorem EncodedLength.equalInt : EncodedLength.Statement .equalInt := ⟨_, rfl, rfl⟩
theorem EncodedLength.equalFloat : EncodedLength.Statement .equalFloat := ⟨_, rfl, rfl⟩
theorem EncodedLength.unequalByte : EncodedLength.Statement .unequalByte := ⟨_, rfl, rfl⟩
theorem EncodedLength.unequalInt : EncodedLength.Statement .unequalInt := ⟨_, rfl, rfl⟩
theorem EncodedLength.unequalFloat : EncodedLength.Statement .unequalFloat := ⟨_, rfl, rfl⟩
theorem EncodedLength.greaterByte : EncodedLength.Statement .greaterByte := ⟨_, rfl, rfl⟩
theorem EncodedLength.greaterInt : EncodedLength.Statement .greaterInt := ⟨_, rfl, rfl⟩
theorem EncodedLength.greaterFloat : EncodedLength.Statement .greaterFloat := ⟨_, rfl, rfl⟩
theorem EncodedLength.smallerByte : EncodedLength.Statement .smallerByte := ⟨_, rfl, rfl⟩
theorem EncodedLength.smallerInt : EncodedLength.Statement .smallerInt := ⟨_, rfl, rfl⟩
theorem EncodedLength.smallerFloat : EncodedLength.Statement .smallerFloat := ⟨_, rfl, rfl⟩
theorem EncodedLength.andByte : EncodedLength.Statement .andByte := ⟨_, rfl, rfl⟩
theorem EncodedLength.orByte : EncodedLength.Statement .orByte := ⟨_, rfl, rfl⟩
theorem EncodedLength.notByte : EncodedLength.Statement .notByte := ⟨_, rfl, rfl⟩
theorem EncodedLength.xorByte : EncodedLength.Statement .xorByte := ⟨_, rfl, rfl⟩
theorem EncodedLength.endOp : EncodedLength.Statement .endOp := ⟨_, rfl, rfl⟩
theorem EncodedLength.ret : EncodedLength.Statement .ret := ⟨_, rfl, rfl⟩
theorem EncodedLength.jmp (x : Word) : EncodedLength.Statement (.jmp x) := ⟨_, rfl, rfl⟩
theorem EncodedLength.jmpzByte : EncodedLength.Statement .jmpzByte := ⟨_, rfl, rfl⟩
theorem EncodedLength.jmpzInt : EncodedLength.Statement .jmpzInt := ⟨_, rfl, rfl⟩
theorem EncodedLength.jmpzFloat : EncodedLength.Statement .jmpzFloat := ⟨_, rfl, rfl⟩
theorem EncodedLength.jmpzByteAddress (x : Word) : EncodedLength.Statement (.jmpzByteAddress x) := ⟨_, rfl, rfl⟩
theorem EncodedLength.jmpzIntAddress (x : Word) : EncodedLength.Statement (.jmpzIntAddress x) := ⟨_, rfl, rfl⟩
theorem EncodedLength.jmpzFloatAddress (x : Word) : EncodedLength.Statement (.jmpzFloatAddress x) := ⟨_, rfl, rfl⟩
theorem EncodedLength.jmpnzByte : EncodedLength.Statement .jmpnzByte := ⟨_, rfl, rfl⟩
theorem EncodedLength.jmpnzInt : EncodedLength.Statement .jmpnzInt := ⟨_, rfl, rfl⟩
theorem EncodedLength.jmpnzFloat : EncodedLength.Statement .jmpnzFloat := ⟨_, rfl, rfl⟩
theorem EncodedLength.jmpnzByteAddress (x : Word) : EncodedLength.Statement (.jmpnzByteAddress x) := ⟨_, rfl, rfl⟩
theorem EncodedLength.jmpnzIntAddress (x : Word) : EncodedLength.Statement (.jmpnzIntAddress x) := ⟨_, rfl, rfl⟩
theorem EncodedLength.jmpnzFloatAddress (x : Word) : EncodedLength.Statement (.jmpnzFloatAddress x) := ⟨_, rfl, rfl⟩
theorem EncodedLength.call : EncodedLength.Statement .call := ⟨_, rfl, rfl⟩
theorem EncodedLength.callAddress (x : Word) : EncodedLength.Statement (.callAddress x) := ⟨_, rfl, rfl⟩

theorem TableRow.pushByte (x : Byte) : TableRow.Statement (.pushByte x) := ⟨_, rfl, rfl, x, rfl, rfl⟩
theorem TableRow.pushInt (x : Word) : TableRow.Statement (.pushInt x) := ⟨_, rfl, rfl, x, rfl, rfl⟩
theorem TableRow.pushFloat (x : Word) : TableRow.Statement (.pushFloat x) := ⟨_, rfl, rfl, x, rfl, rfl⟩
theorem TableRow.popByte : TableRow.Statement .popByte := ⟨_, rfl, rfl, rfl, rfl⟩
theorem TableRow.popInt : TableRow.Statement .popInt := ⟨_, rfl, rfl, rfl, rfl⟩
theorem TableRow.popFloat : TableRow.Statement .popFloat := ⟨_, rfl, rfl, rfl, rfl⟩
theorem TableRow.getByte : TableRow.Statement .getByte := ⟨_, rfl, rfl, rfl, rfl⟩
theorem TableRow.getInt : TableRow.Statement .getInt := ⟨_, rfl, rfl, rfl, rfl⟩
theorem TableRow.getFloat : TableRow.Statement .getFloat := ⟨_, rfl, rfl, rfl, rfl⟩
theorem TableRow.putByte : TableRow.Statement .putByte := ⟨_, rfl, rfl, rfl, rfl⟩
theorem TableRow.putInt : TableRow.Statement .putInt := ⟨_, rfl, rfl, rfl, rfl⟩
theorem TableRow.putFloat : TableRow.Statement .putFloat := ⟨_, rfl, rfl, rfl, rfl⟩
theorem TableRow.getByteAddress (x : Word) : TableRow.Statement (.getByteAddress x) := ⟨_, rfl, rfl, x, rfl, rfl⟩
theorem TableRow.getIntAddress (x : Word) : TableRow.Statement (.getIntAddress x) := ⟨_, rfl, rfl, x, rfl, rfl⟩
theorem TableRow.getFloatAddress (x : Word) : TableRow.Statement (.getFloatAddress x) := ⟨_, rfl, rfl, x, rfl, rfl⟩
theorem TableRow.putByteAddress (x : Word) : TableRow.Statement (.putByteAddress x) := ⟨_, rfl, rfl, x, rfl, rfl⟩
theorem TableRow.putIntAddress (x : Word) : TableRow.Statement (.putIntAddress x) := ⟨_, rfl, rfl, x, rfl, rfl⟩
theorem TableRow.putFloatAddress (x : Word) : TableRow.Statement (.putFloatAddress x) := ⟨_, rfl, rfl, x, rfl, rfl⟩
theorem TableRow.getByteStack (x : Word) : TableRow.Statement (.getByteStack x) := ⟨_, rfl, rfl, x, rfl, rfl⟩
theorem TableRow.getIntStack (x : Word) : TableRow.Statement (.getIntStack x) := ⟨_, rfl, rfl, x, rfl, rfl⟩
theorem TableRow.getFloatStack (x : Word) : TableRow.Statement (.getFloatStack x) := ⟨_, rfl, rfl, x, rfl, rfl⟩
theorem TableRow.putByteStack (x : Word) : TableRow.Statement (.putByteStack x) := ⟨_, rfl, rfl, x, rfl, rfl⟩
theorem TableRow.putIntStack (x : Word) : TableRow.Statement (.putIntStack x) := ⟨_, rfl, rfl, x, rfl, rfl⟩
theorem TableRow.putFloatStack (x : Word) : TableRow.Statement (.putFloatStack x) := ⟨_, rfl, rfl, x, rfl, rfl⟩
theorem TableRow.addByte : TableRow.Statement .addByte := ⟨_, rfl, rfl, rfl, rfl⟩
theorem TableRow.addInt : TableRow.Statement .addInt := ⟨_, rfl, rfl, rfl, rfl⟩
theorem TableRow.addFloat : TableRow.Statement .addFloat := ⟨_, rfl, rfl, rfl, rfl⟩
theorem TableRow.subByte : TableRow.Statement .subByte := ⟨_, rfl, rfl, rfl, rfl⟩
theorem TableRow.subInt : TableRow.Statement .subInt := ⟨_, rfl, rfl, rfl, rfl⟩
theorem TableRow.subFloat : TableRow.Statement .subFloat := ⟨_, rfl, rfl, rfl, rfl⟩
theorem TableRow.mulByte : TableRow.Statement .mulByte := ⟨_, rfl, rfl, rfl, rfl⟩
theorem TableRow.mulInt : TableRow.Statement .mulInt := ⟨_, rfl, rfl, rfl, rfl⟩
theorem TableRow.mulFloat : TableRow.Statement .mulFloat := ⟨_, rfl, rfl, rfl, rfl⟩
theorem TableRow.divByte : TableRow.Statement .divByte := ⟨_, rfl, rfl, rfl, rfl⟩
theorem TableRow.divInt : TableRow.Statement .divInt := ⟨_, rfl, rfl, rfl, rfl⟩
theorem TableRow.divFloat : TableRow.Statement .divFloat := ⟨_, rfl, rfl, rfl, rfl⟩
theorem TableRow.equalByte : TableRow.Statement .equalByte := ⟨_, rfl, rfl, rfl, rfl⟩
theorem TableRow.equalInt : TableRow.Statement .equalInt := ⟨_, rfl, rfl, rfl, rfl⟩
theorem TableRow.equalFloat : TableRow.Statement .equalFloat := ⟨_, rfl, rfl, rfl, rfl⟩
theorem TableRow.unequalByte : TableRow.Statement .unequalByte := ⟨_, rfl, rfl, rfl, rfl⟩
theorem TableRow.unequalInt : TableRow.Statement .unequalInt := ⟨_, rfl, rfl, rfl, rfl⟩
theorem TableRow.unequalFloat : TableRow.Statement .unequalFloat := ⟨_, rfl, rfl, rfl, rfl⟩
theorem TableRow.greaterByte : TableRow.Statement .greaterByte := ⟨_, rfl, rfl, rfl, rfl⟩
theorem TableRow.greaterInt : TableRow.Statement .greaterInt := ⟨_, rfl, rfl, rfl, rfl⟩
theorem TableRow.greaterFloat : TableRow.Statement .greaterFloat := ⟨_, rfl, rfl, rfl, rfl⟩
theorem TableRow.smallerByte : TableRow.Statement .smallerByte := ⟨_, rfl, rfl, rfl, rfl⟩
theorem TableRow.smallerInt : TableRow.Statement .smallerInt := ⟨_, rfl, rfl, rfl, rfl⟩
theorem TableRow.smallerFloat : TableRow.Statement .smallerFloat := ⟨_, rfl, rfl, rfl, rfl⟩
theorem TableRow.andByte : TableRow.Statement .andByte := ⟨_, rfl, rfl, rfl, rfl⟩
theorem TableRow.orByte : TableRow.Statement .orByte := ⟨_, rfl, rfl, rfl, rfl⟩
theorem TableRow.notByte : TableRow.Statement .notByte := ⟨_, rfl, rfl, rfl, rfl⟩
theorem TableRow.xorByte : TableRow.Statement .xorByte := ⟨_, rfl, rfl, rfl, rfl⟩
theorem TableRow.endOp : TableRow.Statement .endOp := ⟨_, rfl, rfl, rfl, rfl⟩
theorem TableRow.ret : TableRow.Statement .ret := ⟨_, rfl, rfl, rfl, rfl⟩
theorem TableRow.jmp (x : Word) : TableRow.Statement (.jmp x) := ⟨_, rfl, rfl, x, rfl, rfl⟩
theorem TableRow.jmpzByte : TableRow.Statement .jmpzByte := ⟨_, rfl, rfl, rfl, rfl⟩
theorem TableRow.jmpzInt : TableRow.Statement .jmpzInt := ⟨_, rfl, rfl, rfl, rfl⟩
theorem TableRow.jmpzFloat : TableRow.Statement .jmpzFloat := ⟨_, rfl, rfl, rfl, rfl⟩
theorem TableRow.jmpzByteAddress (x : Word) : TableRow.Statement (.jmpzByteAddress x) := ⟨_, rfl, rfl, x, rfl, rfl⟩
theorem TableRow.jmpzIntAddress (x : Word) : TableRow.Statement (.jmpzIntAddress x) := ⟨_, rfl, rfl, x, rfl, rfl⟩
theorem TableRow.jmpzFloatAddress (x : Word) : TableRow.Statement (.jmpzFloatAddress x) := ⟨_, rfl, rfl, x, rfl, rfl⟩
theorem TableRow.jmpnzByte : TableRow.Statement .jmpnzByte := ⟨_, rfl, rfl, rfl, rfl⟩
theorem TableRow.jmpnzInt : TableRow.Statement .jmpnzInt := ⟨_, rfl, rfl, rfl, rfl⟩
theorem TableRow.jmpnzFloat : TableRow.Statement .jmpnzFloat := ⟨_, rfl, rfl, rfl, rfl⟩
theorem TableRow.jmpnzByteAddress (x : Word) : TableRow.Statement (.jmpnzByteAddress x) := ⟨_, rfl, rfl, x, rfl, rfl⟩
theorem TableRow.jmpnzIntAddress (x : Word) : TableRow.Statement (.jmpnzIntAddress x) := ⟨_, rfl, rfl, x, rfl, rfl⟩
theorem TableRow.jmpnzFloatAddress (x : Word) : TableRow.Statement (.jmpnzFloatAddress x) := ⟨_, rfl, rfl, x, rfl, rfl⟩
theorem TableRow.call : TableRow.Statement .call := ⟨_, rfl, rfl, rfl, rfl⟩
theorem TableRow.callAddress (x : Word) : TableRow.Statement (.callAddress x) := ⟨_, rfl, rfl, x, rfl, rfl⟩

end Sys2Proof.Laws
end

