-- ==== Sys2Proof/Laws/Float.lean ====
section
/-! SUPPORT. What the float functions can do: the class and the exact value of a pattern, and what rounding gives (41_arithmetic.md R174). -/
namespace Sys2Proof.Machine

/-! ### Fields, values and patterns -/

theorem floatExponent_eq (p : Word) : (p.extractLsb' 52 11).toNat = floatExponent p := by
  simp [BitVec.extractLsb'_toNat, Nat.shiftRight_eq_div_pow, floatExponent]

theorem floatFraction_eq (p : Word) : (p.extractLsb' 0 52).toNat = floatFraction p := by
  simp [BitVec.extractLsb'_toNat, floatFraction]

theorem floatVal_of_nan {p : Word} (h : IsNaNPattern p) : floatVal p = .nan := by
  unfold IsNaNPattern at h
  rw [floatExponent_eq, floatFraction_eq] at h
  rw [floatVal, if_pos h.1, if_neg h.2]

/-- The magnitude, in units of 2^-1074, of exponent field `e` and fraction field `f`. -/
def fieldUnits (e f : Nat) : Nat := if e = 0 then f else (2 ^ 52 + f) * 2 ^ (e - 1)

theorem floatVal_of_finite {p : Word} (h : isFinite p) :
    floatVal p = .fin p.msb (fieldUnits (floatExponent p) (floatFraction p)) := by
  rw [isFinite, floatExponent_eq] at h
  rw [floatVal, if_neg h, fieldUnits]
  split <;> rfl

set_option exponentiation.threshold 3000 in
/-- The exact value of a pattern is its units over 2^1074. -/
theorem floatRat_eq (p : Word) :
    floatRat p = (signedUnits p.msb (fieldUnits (floatExponent p) (floatFraction p)) : ℚ) / 2 ^ 1074 := by
  unfold floatRat signedUnits fieldUnits
  simp only [floatExponent_eq, floatFraction_eq]
  cases p.msb <;> simp only [Bool.false_eq_true, if_false, if_true] <;> split <;> push_cast <;> ring

theorem floatPattern_toNat (n : Bool) {m : Nat} (h : m < 2 ^ 63) :
    (floatPattern n m).toNat = (if n then 2 ^ 63 else 0) + m := by
  rw [floatPattern, BitVec.toNat_ofNat, Nat.mod_eq_of_lt]
  split <;> omega

theorem floatPattern_msb (n : Bool) {m : Nat} (h : m < 2 ^ 63) : (floatPattern n m).msb = n := by
  rw [BitVec.msb_eq_decide, floatPattern_toNat n h]
  cases n <;> simp; omega

theorem floatPattern_exponent (n : Bool) {m : Nat} (h : m < 2 ^ 63) :
    floatExponent (floatPattern n m) = m / 2 ^ 52 := by
  rw [floatExponent, floatPattern_toNat n h]
  cases n <;> simp <;> omega

theorem floatPattern_fraction (n : Bool) {m : Nat} (h : m < 2 ^ 63) :
    floatFraction (floatPattern n m) = m % 2 ^ 52 := by
  rw [floatFraction, floatPattern_toNat n h]
  cases n <;> simp; omega

theorem floatPattern_inf (n : Bool) : floatPattern n infMagnitude = if n then negInf else posInf := by cases n <;> rfl

theorem floatPattern_zero (n : Bool) : floatPattern n 0 = if n then negZero else 0 := by cases n <;> rfl

@[simp] theorem floatVal_posInf : floatVal posInf = .inf false := by decide

@[simp] theorem floatVal_negInf : floatVal negInf = .inf true := by decide

/-! ### Rounding -/

/-- The integer of roundHalfEven is within half of num / D, and even at exactly half. -/
theorem roundHalfEven_spec (n : Nat) {D : Nat} (hD : 0 < D) :
    2 * (roundHalfEven n D * D) ≤ 2 * n + D ∧ 2 * n ≤ 2 * (roundHalfEven n D * D) + D ∧
    ((2 * (roundHalfEven n D * D) = 2 * n + D ∨ 2 * n = 2 * (roundHalfEven n D * D) + D) →
      roundHalfEven n D % 2 = 0) := by
  have hdm := Nat.div_add_mod n D
  have hlt := Nat.mod_lt n hD
  rw [Nat.mul_comm] at hdm
  unfold roundHalfEven
  generalize n / D = q at *
  generalize n % D = r at *
  split
  · omega
  · split
    · rw [Nat.add_mul, Nat.one_mul]; omega
    · have : 2 * r = D := by omega
      rcases Nat.mod_two_eq_zero_or_one q with h | h
      · rw [h, Nat.add_zero]; omega
      · rw [h, Nat.add_mul, Nat.one_mul]; omega

/-- Among all multiples of D, it is the nearest to n, even in a tie. -/
theorem roundHalfEven_nearest (n : Nat) {D : Nat} (hD : 0 < D) (j : Nat) :
    (((roundHalfEven n D * D : Nat) : ℤ) - n).natAbs ≤ (((j * D : Nat) : ℤ) - n).natAbs ∧
    ((((roundHalfEven n D * D : Nat) : ℤ) - n).natAbs = (((j * D : Nat) : ℤ) - n).natAbs →
      j ≠ roundHalfEven n D → roundHalfEven n D % 2 = 0) := by
  obtain ⟨h1, h2, h3⟩ := roundHalfEven_spec n hD
  generalize roundHalfEven n D = q at *
  rcases Nat.lt_trichotomy j q with h | rfl | h
  · have := Nat.mul_le_mul_right D (Nat.succ_le_of_lt h)
    rw [Nat.succ_mul] at this
    omega
  · exact ⟨le_refl _, fun _ h => absurd rfl h⟩
  · have := Nat.mul_le_mul_right D (Nat.succ_le_of_lt h)
    rw [Nat.succ_mul] at this
    omega

/-- The units that bits 62:0 stand for. -/
def magnitudeUnits (m : Nat) : Nat := fieldUnits (m / 2 ^ 52) (m % 2 ^ 52)

/-- The magnitude that rounding puts together stands for q · 2^k units. -/
theorem magnitudeUnits_round {k q : Nat} (hq : q ≤ 2 ^ 53) (hk : k = 0 ∨ 2 ^ 52 ≤ q) :
    magnitudeUnits (k * 2 ^ 52 + q) = q * 2 ^ k := by
  unfold magnitudeUnits fieldUnits
  rcases Nat.lt_or_ge q (2 ^ 52) with h | h
  · have hk : k = 0 := by omega
    subst hk
    rw [if_pos (by omega)]; omega
  · rcases Nat.lt_or_ge q (2 ^ 53) with h' | h'
    · rw [if_neg (by omega), show (k * 2 ^ 52 + q) / 2 ^ 52 - 1 = k by omega,
        show 2 ^ 52 + (k * 2 ^ 52 + q) % 2 ^ 52 = q by omega]
    · have : q = 2 ^ 53 := by omega
      subst this
      rw [if_neg (by omega), show (k * 2 ^ 52 + 2 ^ 53) / 2 ^ 52 - 1 = k + 1 by omega,
        show 2 ^ 52 + (k * 2 ^ 52 + 2 ^ 53) % 2 ^ 52 = 2 ^ 52 by omega, Nat.pow_succ]
      ring

/-- Any magnitude is a multiple of 2^k units, or lies below the normal range of scale k. -/
theorem magnitudeUnits_cases (k m : Nat) :
    (∃ j, magnitudeUnits m = j * 2 ^ k) ∨ magnitudeUnits m < 2 ^ 52 * 2 ^ k := by
  have hf : m % 2 ^ 52 < 2 ^ 52 := Nat.mod_lt _ (by norm_num)
  unfold magnitudeUnits fieldUnits
  generalize m % 2 ^ 52 = f at *
  generalize m / 2 ^ 52 = e at *
  split
  · right
    exact hf.trans_le (Nat.le_mul_of_pos_right _ (by positivity))
  · rcases Nat.lt_or_ge (e - 1) k with h | h
    · right
      calc (2 ^ 52 + f) * 2 ^ (e - 1) < 2 ^ 53 * 2 ^ (e - 1) := Nat.mul_lt_mul_of_pos_right (by omega) (by positivity)
        _ = 2 ^ 52 * 2 ^ (e - 1 + 1) := by rw [Nat.pow_succ]; ring
        _ ≤ 2 ^ 52 * 2 ^ k := Nat.mul_le_mul_left _ (Nat.pow_le_pow_right (by norm_num) h)
    · left
      exact ⟨(2 ^ 52 + f) * 2 ^ (e - 1 - k), by rw [Nat.mul_assoc, ← Nat.pow_add]; congr 2; omega⟩

/-- The exponent field less one, at which a quotient of `num / den` units is rounded. -/
def roundScale (n d : Nat) : Nat := Nat.log2 (n / d) - 52
theorem roundScale_spec (n : Nat) {d : Nat} (hd : 0 < d) :
    n < 2 ^ 53 * (d * 2 ^ roundScale n d) ∧
    (roundScale n d = 0 ∨ 2 ^ 52 * (d * 2 ^ roundScale n d) ≤ n) := by
  have h1 : n / d < 2 ^ 53 * 2 ^ roundScale n d := by
    have : n / d < 2 ^ (Nat.log2 (n / d) + 1) := Nat.lt_log2_self
    apply this.trans_le
    rw [← Nat.pow_add]
    exact Nat.pow_le_pow_right (by norm_num) (by unfold roundScale; omega)
  refine ⟨?_, ?_⟩
  · have := (Nat.div_lt_iff_lt_mul hd).1 h1
    rwa [show 2 ^ 53 * (d * 2 ^ roundScale n d) = 2 ^ 53 * 2 ^ roundScale n d * d by ring]
  · by_cases hz : roundScale n d = 0
    · exact .inl hz
    · right
      have h0 : n / d ≠ 0 := by
        intro h
        apply hz
        unfold roundScale
        rw [h]
        decide
      have : 2 ^ (Nat.log2 (n / d)) ≤ n / d := Nat.log2_self_le h0
      have h2 : 2 ^ 52 * 2 ^ roundScale n d ≤ n / d := by
        rw [← Nat.pow_add]
        refine le_trans (Nat.pow_le_pow_right (by norm_num) ?_) this
        unfold roundScale at hz ⊢; omega
      have := (Nat.le_div_iff_mul_le hd).1 h2
      rwa [show 2 ^ 52 * (d * 2 ^ roundScale n d) = 2 ^ 52 * 2 ^ roundScale n d * d by ring]

theorem roundMagnitude_eq (n d : Nat) :
    roundMagnitude n d = min (roundScale n d * 2 ^ 52 + roundHalfEven n (d * 2 ^ roundScale n d)) infMagnitude := rfl

theorem significand_bounds (n : Nat) {d : Nat} (hd : 0 < d) :
    roundHalfEven n (d * 2 ^ roundScale n d) ≤ 2 ^ 53 ∧
    (roundScale n d = 0 ∨ 2 ^ 52 ≤ roundHalfEven n (d * 2 ^ roundScale n d)) := by
  obtain ⟨h1, h2⟩ := roundScale_spec n hd
  have hD : 0 < d * 2 ^ roundScale n d := by positivity
  obtain ⟨a, b, -⟩ := roundHalfEven_spec n hD
  generalize d * 2 ^ roundScale n d = D at *
  generalize roundHalfEven n D = q at *
  constructor
  · by_contra h
    have := Nat.mul_le_mul_right D (show 2 ^ 53 + 1 ≤ q by omega)
    rw [Nat.add_mul] at this
    omega
  · rcases h2 with h2 | h2
    · exact .inl h2
    · right
      by_contra h
      have := Nat.mul_le_mul_right D (show q + 1 ≤ 2 ^ 52 by omega)
      rw [Nat.add_mul] at this
      omega

/-- Below the overflow threshold, no magnitude is nearer to n / d than the rounded one, which is even in a tie. -/
theorem roundMagnitude_nearest (n : Nat) {d : Nat} (hd : 0 < d) (hM : roundMagnitude n d < infMagnitude) (m : Nat) :
    (((magnitudeUnits (roundMagnitude n d) * d : Nat) : ℤ) - n).natAbs ≤ (((magnitudeUnits m * d : Nat) : ℤ) - n).natAbs ∧
    ((((magnitudeUnits (roundMagnitude n d) * d : Nat) : ℤ) - n).natAbs =
        (((magnitudeUnits m * d : Nat) : ℤ) - n).natAbs →
      magnitudeUnits m ≠ magnitudeUnits (roundMagnitude n d) → roundMagnitude n d % 2 = 0) := by
  have hb := significand_bounds n hd
  have hD : 0 < d * 2 ^ roundScale n d := by positivity
  have hM' : roundMagnitude n d = roundScale n d * 2 ^ 52 + roundHalfEven n (d * 2 ^ roundScale n d) := by
    rw [roundMagnitude_eq] at hM ⊢; omega
  have hn := roundHalfEven_nearest n hD
  have hs := (roundScale_spec n hd).2
  rw [hM', magnitudeUnits_round hb.1 hb.2]
  rw [show ∀ q : Nat, q * 2 ^ roundScale n d * d = q * (d * 2 ^ roundScale n d) from fun q => by ring]
  have hpar : (roundScale n d * 2 ^ 52 + roundHalfEven n (d * 2 ^ roundScale n d)) % 2 =
      roundHalfEven n (d * 2 ^ roundScale n d) % 2 := by omega
  rw [hpar]
  rcases magnitudeUnits_cases (roundScale n d) m with ⟨j, hj⟩ | hlt
  · rw [hj, show j * 2 ^ roundScale n d * d = j * (d * 2 ^ roundScale n d) by ring]
    refine ⟨(hn j).1, fun he hne => (hn j).2 he fun h => hne (by rw [h])⟩
  · rcases hs with hz | hs
    · have h0 := hn (magnitudeUnits m)
      rw [hz, Nat.pow_zero, Nat.mul_one] at h0 ⊢
      refine ⟨h0.1, fun he hne => h0.2 he fun h => hne (by rw [h, Nat.mul_one])⟩
    · have h0 := (hn (2 ^ 52)).1
      have : magnitudeUnits m * d < 2 ^ 52 * (d * 2 ^ roundScale n d) := by
        calc magnitudeUnits m * d < 2 ^ 52 * 2 ^ roundScale n d * d := Nat.mul_lt_mul_of_pos_right hlt hd
          _ = _ := by ring
      generalize 2 ^ 52 * (d * 2 ^ roundScale n d) = X at *
      generalize magnitudeUnits m * d = Y at *
      generalize roundHalfEven n (d * 2 ^ roundScale n d) * (d * 2 ^ roundScale n d) = Z at *
      have hlt' : ((Z : ℤ) - n).natAbs < ((Y : ℤ) - n).natAbs := by omega
      exact ⟨hlt'.le, fun he => absurd he hlt'.ne⟩


theorem overflow_scale_iff (n : Nat) {d c k q : Nat} (hd : 0 < d)
    (hb : q ≤ 9007199254740992 ∧ (k = 0 ∨ 4503599627370496 ≤ q))
    (hs : n < 9007199254740992 * (d * 2 ^ k) ∧ (k = 0 ∨ 4503599627370496 * (d * 2 ^ k) ≤ n))
    (hr : 2 * (q * (d * 2 ^ k)) ≤ 2 * n + d * 2 ^ k ∧ 2 * n ≤ 2 * (q * (d * 2 ^ k)) + d * 2 ^ k ∧
      ((2 * (q * (d * 2 ^ k)) = 2 * n + d * 2 ^ k ∨ 2 * n = 2 * (q * (d * 2 ^ k)) + d * 2 ^ k) → q % 2 = 0)) :
    (c + 1 < k ∨ (k = c + 1 ∧ q = 9007199254740992)) ↔ 18014398509481983 * 2 ^ c * d ≤ n := by
  have hD : 0 < d * 2 ^ k := by positivity
  rcases Nat.lt_trichotomy k (c+1) with h | h | h
  · constructor
    · intro h'; omega
    · intro h'
      exfalso
      have : 9007199254740992 * (d * 2 ^ k) ≤ 9007199254740992 * (d * 2 ^ c) :=
        Nat.mul_le_mul_left _ (Nat.mul_le_mul_left _ (Nat.pow_le_pow_right (by norm_num) (by omega)))
      have e : 18014398509481983 * 2 ^ c * d = 18014398509481983 * (d * 2 ^ c) := by ring
      rw [e] at h'
      generalize d * 2 ^ c = X at *
      omega
  · subst h
    have e : 18014398509481983 * 2 ^ c * d * 2 = 18014398509481983 * (d * 2 ^ (c + 1)) := by
      rw [Nat.pow_succ 2 c]; ring
    obtain ⟨T, hT⟩ : ∃ T, T = 18014398509481983 * 2 ^ c * d := ⟨_, rfl⟩
    rw [← hT] at e ⊢
    clear hT
    generalize d * 2 ^ (c + 1) = D at hs hr hD e
    obtain ⟨r1, r2, r3⟩ := hr
    constructor
    · rintro (h' | ⟨-, hq⟩)
      · exact absurd h' (lt_irrefl _)
      · have hqD : q * D = 9007199254740992 * D := by rw [hq]
        clear r2 r3 hs hb hD
        linarith
    · intro h'
      right
      refine ⟨rfl, ?_⟩
      have hk : 18014398509481983 * D ≤ 2 * n := by linarith
      clear h' e
      by_contra hq
      rcases Nat.lt_or_ge q 9007199254740991 with h3 | h3
      · have h4 := Nat.mul_le_mul_right D (Nat.succ_le_of_lt h3)
        have e2 : (q + 1) * D = q * D + D := by ring
        rw [Nat.succ_eq_add_one, e2] at h4
        linarith
      · have hq' : q = 9007199254740991 := by omega
        have hqD : q * D = 9007199254740991 * D := by rw [hq']
        have := r3 (.inr (by linarith))
        omega
  · constructor
    · intro _
      have h2 := hs.2.resolve_left (by omega)
      have : 4503599627370496 * (d * 2 ^ (c + 2)) ≤ 4503599627370496 * (d * 2 ^ k) :=
        Nat.mul_le_mul_left _ (Nat.mul_le_mul_left _ (Nat.pow_le_pow_right (by norm_num) (by omega)))
      have e : 18014398509481983 * 2 ^ c * d ≤ 4503599627370496 * (d * 2 ^ (c + 2)) := by
        rw [show 4503599627370496 * (d * 2 ^ (c + 2)) = 18014398509481984 * 2 ^ c * d by rw [Nat.pow_add]; ring]
        exact Nat.mul_le_mul_right _ (Nat.mul_le_mul_right _ (by norm_num))
      omega
    · intro _; exact .inl h


/-- Rounding gives infinity exactly from the overflow threshold up: (2^54 − 1) · 2^2044 units. The exponent is a variable
so that no tactic evaluates the power. -/
theorem roundMagnitude_overflow (n : Nat) {d : Nat} (hd : 0 < d) (c : Nat) (hc : c = 2044) :
    roundMagnitude n d = infMagnitude ↔ 18014398509481983 * 2 ^ c * d ≤ n := by
  have hb := significand_bounds n hd
  rw [← overflow_scale_iff n hd hb (roundScale_spec n hd) (roundHalfEven_spec n (by positivity))]
  rw [roundMagnitude_eq]
  unfold infMagnitude
  subst hc
  omega

end Sys2Proof.Machine
end

