-- ==== Sys2Proof/Laws/Memory.lean ====
section
/-! SUPPORT. The laws of Memory: read after write, the canonical form, multi-byte reads and writes. -/
namespace Sys2Proof.Machine

@[simp] theorem Memory.read_cons_self (a : Nat) (b : Byte) (m : Memory) (h : m.read a = unlistedByte) :
    (Memory.cons a b m).read a = b := by
  unfold Memory.cons
  split
  · rw [h]; exact (by assumption : b = unlistedByte).symm
  · simp [Memory.read]

theorem Memory.read_cons_other {a x : Nat} (b : Byte) (m : Memory) (h : x ≠ a) :
    (Memory.cons a b m).read x = m.read x := by
  unfold Memory.cons
  split
  · rfl
  · simp [Memory.read, h.symm]

/-- Below the first listed address every byte is unlisted. -/
theorem Memory.read_below {lo hi : Nat} {m : Memory} (h : m.wfBetween lo hi = true) {x : Nat} (hx : x < lo) :
    m.read x = unlistedByte := by
  induction m generalizing lo with
  | nil => rfl
  | cons c m ih =>
    simp only [Memory.wfBetween, Bool.and_eq_true, decide_eq_true_eq] at h
    have hc : c.1 ≠ x := by omega
    simp only [Memory.read, if_neg hc]
    exact ih h.2 (by omega)

/-- At or above the bound every byte is unlisted. -/
theorem Memory.read_above {lo hi : Nat} {m : Memory} (h : m.wfBetween lo hi = true) {x : Nat} (hx : hi ≤ x) :
    m.read x = unlistedByte := by
  induction m generalizing lo with
  | nil => rfl
  | cons c m ih =>
    simp only [Memory.wfBetween, Bool.and_eq_true, decide_eq_true_eq] at h
    have hc : c.1 ≠ x := by omega
    simp only [Memory.read, if_neg hc]
    exact ih h.2

/-- A write leaves every other address alone, on any list of cells. -/
theorem Memory.read_write_other (m : Memory) {a x : Nat} (b : Byte) (h : x ≠ a) :
    (m.write a b).read x = m.read x := by
  induction m with
  | nil => exact Memory.read_cons_other b [] h
  | cons c m ih =>
    obtain ⟨c, v⟩ := c
    simp only [Memory.write]
    split
    · exact Memory.read_cons_other b _ h
    · split
      · next hac =>
        rw [Memory.read_cons_other b _ h, Memory.read, if_neg (by omega)]
      · simp only [Memory.read, ih]

/-- A write gives the written byte back, in canonical form. -/
theorem Memory.read_write_self {lo hi : Nat} {m : Memory} (h : m.wfBetween lo hi = true) (a : Nat) (b : Byte) :
    (m.write a b).read a = b := by
  induction m generalizing lo with
  | nil => exact Memory.read_cons_self a b [] rfl
  | cons c m ih =>
    obtain ⟨c, v⟩ := c
    have h' := h
    simp only [Memory.wfBetween, Bool.and_eq_true, decide_eq_true_eq] at h
    simp only [Memory.write]
    split
    · next hac =>
      have hb : Memory.wfBetween c hi ((c, v) :: m) = true := by
        simp only [Memory.wfBetween, Bool.and_eq_true, decide_eq_true_eq]; exact ⟨⟨⟨le_refl c, h.1.1.2⟩, h.1.2⟩, h.2⟩
      exact Memory.read_cons_self a b _ (Memory.read_below hb hac)
    · split
      · next hac => exact Memory.read_cons_self a b _ (Memory.read_below h.2 (by omega))
      · next hac =>
        have : c ≠ a := fun e => hac e.symm
        simp only [Memory.read, if_neg this]
        exact ih h.2

theorem Memory.wfBetween_mono {lo lo' hi : Nat} {m : Memory} (h : m.wfBetween lo' hi = true) (hl : lo ≤ lo') :
    m.wfBetween lo hi = true := by
  cases m with
  | nil => rfl
  | cons c m =>
    simp only [Memory.wfBetween, Bool.and_eq_true, decide_eq_true_eq] at h ⊢
    exact ⟨⟨⟨by omega, h.1.1.2⟩, h.1.2⟩, h.2⟩

theorem Memory.cons_wf {lo hi a : Nat} (b : Byte) {m : Memory} (h : m.wfBetween (a + 1) hi = true) (hl : lo ≤ a)
    (hh : a < hi) : (Memory.cons a b m).wfBetween lo hi = true := by
  unfold Memory.cons
  split
  · exact Memory.wfBetween_mono h (by omega)
  · next hb => simp [Memory.wfBetween, h, hl, hh, hb]

/-- A write inside the bounds keeps the canonical form. -/
theorem Memory.write_wf {lo hi : Nat} {m : Memory} (h : m.wfBetween lo hi = true) {a : Nat} (b : Byte)
    (hl : lo ≤ a) (hh : a < hi) : (m.write a b).wfBetween lo hi = true := by
  induction m generalizing lo with
  | nil => exact Memory.cons_wf b rfl hl hh
  | cons c m ih =>
    obtain ⟨c, v⟩ := c
    simp only [Memory.wfBetween, Bool.and_eq_true, decide_eq_true_eq] at h
    simp only [Memory.write]
    split
    · exact Memory.cons_wf b (by simp [Memory.wfBetween]; exact ⟨⟨⟨by omega, h.1.1.2⟩, h.1.2⟩, h.2⟩) hl hh
    · split
      · next hac => exact Memory.cons_wf b (hac ▸ h.2) hl hh
      · simp only [Memory.wfBetween, Bool.and_eq_true, decide_eq_true_eq]
        exact ⟨⟨⟨h.1.1.1, h.1.1.2⟩, h.1.2⟩, ih h.2 (by omega)⟩

/-- The canonical form decides the list: memories that read alike are equal. -/
theorem Memory.ext_read {lo hi lo' hi' : Nat} {m m' : Memory} (h : m.wfBetween lo hi = true)
    (h' : m'.wfBetween lo' hi' = true) (e : ∀ x, m.read x = m'.read x) : m = m' := by
  induction m generalizing m' lo lo' with
  | nil =>
    cases m' with
    | nil => rfl
    | cons c m' =>
      simp only [Memory.wfBetween, Bool.and_eq_true, decide_eq_true_eq] at h'
      have := e c.1
      simp [Memory.read] at this
      exact absurd this.symm h'.1.2
  | cons c m ih =>
    obtain ⟨c, v⟩ := c
    have hw := h
    simp only [Memory.wfBetween, Bool.and_eq_true, decide_eq_true_eq] at h
    cases m' with
    | nil =>
      have := e c
      simp [Memory.read] at this
      exact absurd this h.1.2
    | cons d m' =>
      obtain ⟨d, w⟩ := d
      have hw' := h'
      simp only [Memory.wfBetween, Bool.and_eq_true, decide_eq_true_eq] at h'
      have hcd : c = d := by
        rcases Nat.lt_trichotomy c d with hlt | heq | hgt
        · have := e c
          rw [Memory.read, if_pos rfl, Memory.read, if_neg (by omega), Memory.read_below h'.2 (by omega)] at this
          exact absurd this h.1.2
        · exact heq
        · have := (e d).symm
          rw [Memory.read, if_pos rfl, Memory.read, if_neg (by omega), Memory.read_below h.2 (by omega)] at this
          exact absurd this h'.1.2
      subst hcd
      have hv : v = w := by simpa [Memory.read] using e c
      subst hv
      have : m = m' := ih h.2 h'.2 fun x => by
        by_cases hx : c = x
        · rw [Memory.read_below h.2 (by omega), Memory.read_below h'.2 (by omega)]
        · simpa [Memory.read, hx] using e x
      rw [this]

/-! ### Little-endian reads and writes -/

/-- A multi-byte write keeps the canonical form. -/
theorem Memory.writeLE_wf {hi : Nat} {m : Memory} (h : m.wfBetween 0 hi = true) (a n v : Nat) (hh : a + n ≤ hi) :
    (m.writeLE a n v).wfBetween 0 hi = true := by
  induction n generalizing m a v with
  | zero => exact h
  | succ n ih => exact ih (Memory.write_wf h _ (Nat.zero_le _) (by omega)) _ _ (by omega)

/-- A multi-byte write leaves every byte outside it alone. -/
theorem Memory.read_writeLE_outside (m : Memory) (a n v : Nat) {x : Nat} (hx : x < a ∨ a + n ≤ x) :
    (m.writeLE a n v).read x = m.read x := by
  induction n generalizing m a v with
  | zero => rfl
  | succ n ih =>
    rw [Memory.writeLE, ih _ _ _ (by omega), Memory.read_write_other _ _ (by omega)]

/-- Byte `k` of a multi-byte write is byte `k` of the value. -/
theorem Memory.read_writeLE_inside {hi : Nat} {m : Memory} (h : m.wfBetween 0 hi = true) (a n v : Nat) {k : Nat}
    (hk : k < n) (hh : a + n ≤ hi) : (m.writeLE a n v).read (a + k) = BitVec.ofNat 8 (v / 256 ^ k) := by
  induction n generalizing m a v k with
  | zero => omega
  | succ n ih =>
    have hw := Memory.write_wf h (BitVec.ofNat 8 v) (Nat.zero_le _) (show a < hi by omega)
    rw [Memory.writeLE]
    cases k with
    | zero =>
      rw [Memory.read_writeLE_outside _ _ _ _ (by omega)]
      simpa using Memory.read_write_self h a _
    | succ k =>
      have := ih hw (a + 1) (v / 256) (k := k) (by omega) (by omega)
      rw [show a + (k + 1) = a + 1 + k by omega, this, Nat.div_div_eq_div_mul, Nat.pow_succ, Nat.mul_comm]

/-- A multi-byte write stores the low bytes of its value only. -/
theorem Memory.writeLE_mod (m : Memory) (a n v : Nat) : m.writeLE a n (v % 256 ^ n) = m.writeLE a n v := by
  induction n generalizing m a v with
  | zero => rfl
  | succ n ih =>
    have low : BitVec.ofNat 8 (v % 256 ^ (n + 1)) = BitVec.ofNat 8 v := by
      apply BitVec.eq_of_toNat_eq
      rw [BitVec.toNat_ofNat, BitVec.toNat_ofNat, Nat.pow_succ]
      exact Nat.mod_mod_of_dvd _ (Dvd.intro_left _ rfl)
    rw [Memory.writeLE, Memory.writeLE, low, Nat.pow_succ, Nat.mul_comm (256 ^ n), Nat.mod_mul_right_div_self, ih]

/-- A multi-byte read is determined by its bytes. -/
theorem Memory.readLE_congr {m m' : Memory} {a a' n : Nat} (h : ∀ k < n, m.read (a + k) = m'.read (a' + k)) :
    m.readLE a n = m'.readLE a' n := by
  induction n generalizing a a' with
  | zero => rfl
  | succ n ih =>
    have h0 := h 0 (by omega)
    simp only [Nat.add_zero] at h0
    rw [Memory.readLE, Memory.readLE, h0, ih fun k hk => ?_]
    rw [show a + 1 + k = a + (k + 1) by omega, show a' + 1 + k = a' + (k + 1) by omega]
    exact h (k + 1) (by omega)

/-- A multi-byte read is below 256^n. -/
theorem Memory.readLE_lt (m : Memory) (a n : Nat) : m.readLE a n < 256 ^ n := by
  induction n generalizing a with
  | zero => simp [Memory.readLE]
  | succ n ih =>
    have h1 := (m.read a).isLt
    have h2 := ih (a + 1)
    rw [Memory.readLE, Nat.pow_succ]
    omega

/-- Bytes that are those of `v` read as `v` mod 256^n. -/
theorem Memory.readLE_of_bytes {m : Memory} {a n v : Nat} (h : ∀ k < n, m.read (a + k) = BitVec.ofNat 8 (v / 256 ^ k)) :
    m.readLE a n = v % 256 ^ n := by
  induction n generalizing a v with
  | zero => simp [Memory.readLE, Nat.mod_one]
  | succ n ih =>
    have h0 := h 0 (by omega)
    simp only [Nat.add_zero, Nat.pow_zero, Nat.div_one] at h0
    rw [Memory.readLE, h0, ih (a := a + 1) (v := v / 256) fun k hk => ?_]
    · rw [BitVec.toNat_ofNat, show 256 ^ (n + 1) = 256 * 256 ^ n by rw [Nat.pow_succ, Nat.mul_comm], Nat.mod_mul]
    · rw [show a + 1 + k = a + (k + 1) by omega, h (k + 1) (by omega), Nat.div_div_eq_div_mul, Nat.pow_succ,
        Nat.mul_comm]

/-- Byte `k` of a multi-byte read is the byte that stands there. -/
theorem Memory.byte_of_readLE (m : Memory) (a n : Nat) {k : Nat} (hk : k < n) :
    BitVec.ofNat 8 (m.readLE a n / 256 ^ k) = m.read (a + k) := by
  induction n generalizing a k with
  | zero => omega
  | succ n ih =>
    have h1 := (m.read a).isLt
    rw [Memory.readLE]
    cases k with
    | zero =>
      apply BitVec.eq_of_toNat_eq
      simp only [Nat.pow_zero, Nat.div_one, BitVec.toNat_ofNat, Nat.add_zero]
      omega
    | succ k =>
      rw [show 256 ^ (k + 1) = 256 * 256 ^ k by rw [Nat.pow_succ, Nat.mul_comm], ← Nat.div_div_eq_div_mul,
        show ((m.read a).toNat + 256 * m.readLE (a + 1) n) / 256 = m.readLE (a + 1) n by omega, ih (a + 1) (by omega)]
      congr 1
      omega

/-- Writing a value and reading it back gives its low `n` bytes. -/
theorem Memory.readLE_writeLE {hi : Nat} {m : Memory} (h : m.wfBetween 0 hi = true) (a n v : Nat) (hh : a + n ≤ hi) :
    (m.writeLE a n v).readLE a n = v % 256 ^ n :=
  Memory.readLE_of_bytes fun _ hk => Memory.read_writeLE_inside h a n v hk hh

/-! ### Byte sequences -/

theorem Memory.writeBytes_wf {hi : Nat} {m : Memory} (h : m.wfBetween 0 hi = true) (a : Nat) (bs : List Byte)
    (hh : a + bs.length ≤ hi) : (m.writeBytes a bs).wfBetween 0 hi = true := by
  induction bs generalizing m a with
  | nil => exact h
  | cons b bs ih =>
    simp only [List.length_cons] at hh
    exact ih (Memory.write_wf h _ (Nat.zero_le _) (by omega)) _ (by omega)

theorem Memory.read_writeBytes_outside (m : Memory) (a : Nat) (bs : List Byte) {x : Nat}
    (hx : x < a ∨ a + bs.length ≤ x) : (m.writeBytes a bs).read x = m.read x := by
  induction bs generalizing m a with
  | nil => rfl
  | cons b bs ih =>
    simp only [List.length_cons] at hx
    rw [Memory.writeBytes, ih _ _ (by omega), Memory.read_write_other _ _ (by omega)]

theorem Memory.read_writeBytes_inside {hi : Nat} {m : Memory} (h : m.wfBetween 0 hi = true) (a : Nat) (bs : List Byte)
    {k : Nat} (hk : k < bs.length) (hh : a + bs.length ≤ hi) :
    some ((m.writeBytes a bs).read (a + k)) = bs[k]? := by
  induction bs generalizing m a k with
  | nil => simp at hk
  | cons b bs ih =>
    simp only [List.length_cons] at hk hh
    have hw := Memory.write_wf h b (Nat.zero_le _) (show a < hi by omega)
    rw [Memory.writeBytes]
    cases k with
    | zero =>
      rw [Memory.read_writeBytes_outside _ _ _ (by omega)]
      simpa using Memory.read_write_self h a b
    | succ k =>
      rw [show a + (k + 1) = a + 1 + k by omega, ih hw (a + 1) (by omega) (by omega)]
      rfl

end Sys2Proof.Machine
end

