-- ==== Sys2Proof/Laws/State.lean ====
section
/-! SUPPORT. One lemma per field per named update of State, so that no proof unfolds an update. -/
namespace Sys2Proof.Machine

@[simp] theorem haltError_mem (s : State) (l : Latch) (e : ErrorCode) : (haltError s l e).mem = s.mem := rfl
@[simp] theorem haltError_pc (s : State) (l : Latch) (e : ErrorCode) : (haltError s l e).pc = s.pc := rfl
@[simp] theorem haltError_sp (s : State) (l : Latch) (e : ErrorCode) : (haltError s l e).sp = s.sp := rfl
@[simp] theorem haltError_latch (s : State) (l : Latch) (e : ErrorCode) : (haltError s l e).latch = l := rfl
@[simp] theorem haltError_runState (s : State) (l : Latch) (e : ErrorCode) : (haltError s l e).runState = .haltedError := rfl
@[simp] theorem haltError_err (s : State) (l : Latch) (e : ErrorCode) : (haltError s l e).err = some e := rfl
@[simp] theorem haltError_memSize (s : State) (l : Latch) (e : ErrorCode) : (haltError s l e).memSize = s.memSize := rfl
@[simp] theorem haltError_stackSize (s : State) (l : Latch) (e : ErrorCode) : (haltError s l e).stackSize = s.stackSize := rfl
@[simp] theorem haltError_traceOn (s : State) (l : Latch) (e : ErrorCode) : (haltError s l e).traceOn = s.traceOn := rfl

@[simp] theorem hostSetPC_mem (v : Word) (s : State) : (hostSetPC v s).mem = s.mem := rfl
@[simp] theorem hostSetPC_pc (v : Word) (s : State) : (hostSetPC v s).pc = v := rfl
@[simp] theorem hostSetPC_sp (v : Word) (s : State) : (hostSetPC v s).sp = s.sp := rfl
@[simp] theorem hostSetPC_latch (v : Word) (s : State) : (hostSetPC v s).latch = s.latch := rfl
@[simp] theorem hostSetPC_runState (v : Word) (s : State) : (hostSetPC v s).runState = s.runState := rfl
@[simp] theorem hostSetPC_err (v : Word) (s : State) : (hostSetPC v s).err = s.err := rfl
@[simp] theorem hostSetPC_memSize (v : Word) (s : State) : (hostSetPC v s).memSize = s.memSize := rfl
@[simp] theorem hostSetPC_stackSize (v : Word) (s : State) : (hostSetPC v s).stackSize = s.stackSize := rfl
@[simp] theorem hostSetPC_traceOn (v : Word) (s : State) : (hostSetPC v s).traceOn = s.traceOn := rfl

@[simp] theorem initial_mem (m n : Nat) (b : Bool) : (State.initial m n b).mem = [] := rfl
@[simp] theorem initial_pc (m n : Nat) (b : Bool) : (State.initial m n b).pc = 0 := rfl
@[simp] theorem initial_sp (m n : Nat) (b : Bool) : (State.initial m n b).sp = 0 := rfl
@[simp] theorem initial_latch (m n : Nat) (b : Bool) : (State.initial m n b).latch = .active := rfl
@[simp] theorem initial_runState (m n : Nat) (b : Bool) : (State.initial m n b).runState = .running := rfl
@[simp] theorem initial_err (m n : Nat) (b : Bool) : (State.initial m n b).err = none := rfl
@[simp] theorem initial_memSize (m n : Nat) (b : Bool) : (State.initial m n b).memSize = m := rfl
@[simp] theorem initial_stackSize (m n : Nat) (b : Bool) : (State.initial m n b).stackSize = n := rfl
@[simp] theorem initial_traceOn (m n : Nat) (b : Bool) : (State.initial m n b).traceOn = b := rfl

@[simp] theorem placeAtPC_mem (bs : List Byte) (s : State) : (placeAtPC bs s).mem = s.mem.writeBytes s.pc.toInt.toNat (bs.take (fetchableBytes s)) := rfl
@[simp] theorem placeAtPC_pc (bs : List Byte) (s : State) : (placeAtPC bs s).pc = s.pc := rfl
@[simp] theorem placeAtPC_sp (bs : List Byte) (s : State) : (placeAtPC bs s).sp = s.sp := rfl
@[simp] theorem placeAtPC_latch (bs : List Byte) (s : State) : (placeAtPC bs s).latch = s.latch := rfl
@[simp] theorem placeAtPC_runState (bs : List Byte) (s : State) : (placeAtPC bs s).runState = s.runState := rfl
@[simp] theorem placeAtPC_err (bs : List Byte) (s : State) : (placeAtPC bs s).err = s.err := rfl
@[simp] theorem placeAtPC_memSize (bs : List Byte) (s : State) : (placeAtPC bs s).memSize = s.memSize := rfl
@[simp] theorem placeAtPC_stackSize (bs : List Byte) (s : State) : (placeAtPC bs s).stackSize = s.stackSize := rfl
@[simp] theorem placeAtPC_traceOn (bs : List Byte) (s : State) : (placeAtPC bs s).traceOn = s.traceOn := rfl

@[simp] theorem withFetchWord_mem (s : State) (nbits w : Nat) : (s.withFetchWord nbits w).mem = s.mem.writeBytes s.pc.toInt.toNat ((tableBytes nbits w).take (fetchableBytes s)) := rfl
@[simp] theorem withFetchWord_pc (s : State) (nbits w : Nat) : (s.withFetchWord nbits w).pc = s.pc := rfl
@[simp] theorem withFetchWord_sp (s : State) (nbits w : Nat) : (s.withFetchWord nbits w).sp = s.sp := rfl
@[simp] theorem withFetchWord_latch (s : State) (nbits w : Nat) : (s.withFetchWord nbits w).latch = s.latch := rfl
@[simp] theorem withFetchWord_runState (s : State) (nbits w : Nat) : (s.withFetchWord nbits w).runState = s.runState := rfl
@[simp] theorem withFetchWord_err (s : State) (nbits w : Nat) : (s.withFetchWord nbits w).err = s.err := rfl
@[simp] theorem withFetchWord_memSize (s : State) (nbits w : Nat) : (s.withFetchWord nbits w).memSize = s.memSize := rfl
@[simp] theorem withFetchWord_stackSize (s : State) (nbits w : Nat) : (s.withFetchWord nbits w).stackSize = s.stackSize := rfl
@[simp] theorem withFetchWord_traceOn (s : State) (nbits w : Nat) : (s.withFetchWord nbits w).traceOn = s.traceOn := rfl

end Sys2Proof.Machine
end

