-- ==== Sys2Proof/Laws/Ops.lean ====
section
/-! SUPPORT. What each shared operation can do, once: one equation per Memory and Stack operation on a sane state, and the commit. -/
namespace Sys2Proof.Machine

variable {s : State}

/-! ### Sequencing -/

@[simp] theorem Res.bind_ok {α β : Type} (a : α) (s : State) (f : α → State → Res β) : (Res.ok a s).bind f = f a s := rfl

@[simp] theorem Res.bind_raised {α β : Type} (e : ErrorCode) (s : State) (f : α → State → Res β) :
    (Res.raised e s).bind f = .raised e s := rfl

@[simp] theorem Res.thenAdvance_ok {α : Type} (a : α) (s : State) : (Res.ok a s).thenAdvance = .ok .advance s := rfl

@[simp] theorem Res.thenAdvance_raised {α : Type} (e : ErrorCode) (s : State) :
    (Res.raised e s : Res α).thenAdvance = .raised e s := rfl

/-! ### Slots of the Stack window -/

@[simp] theorem slotAddress_sp (s : State) (n : Nat) (i : Int) : slotAddress { s with sp := n } i = slotAddress s i := rfl

@[simp] theorem slot_sp (s : State) (n i : Nat) : State.slot { s with sp := n } i = s.slot i := rfl

@[simp] theorem slot_mem_sp (s : State) (m : Memory) (n i : Nat) :
    State.slot { s with mem := m, sp := n } i = s.slot i := rfl

/-- Slot i of the window is the byte at M − S + i (R70). -/
theorem slot_eq (hs : s.Sane) (i : Nat) : s.slot i = s.memSize - s.stackSize + i := by
  have := hs.2.1
  unfold State.slot slotAddress
  omega

theorem slotAddress_toNat (s : State) (i : Nat) : (slotAddress s i).toNat = s.slot i := rfl

/-- The bytes of a slot range inside the window are inside Memory. -/
theorem slot_inBounds (hs : s.Sane) {i n : Nat} (h : i + n ≤ s.stackSize) : inBounds s (slotAddress s i) n := by
  have := hs.2.1
  unfold inBounds slotAddress
  omega

/-! ### The Memory unit -/

theorem memRead_ok {a : Int} {n : Nat} (h : inBounds s a n) : memRead a n s = .ok (s.mem.readLE a.toNat n) s := if_pos h

theorem memRead_raised {a : Int} {n : Nat} (h : ¬ inBounds s a n) : memRead a n s = .raised .memoryError s := if_neg h

theorem memWrite_ok {a : Int} {n : Nat} (v : Nat) (h : inBounds s a n) :
    memWrite a n v s = .ok () { s with mem := s.mem.writeLE a.toNat n v } := if_pos h

theorem memWrite_raised {a : Int} {n : Nat} (v : Nat) (h : ¬ inBounds s a n) :
    memWrite a n v s = .raised .memoryError s := if_neg h

/-! ### The Stack unit -/

/-- The state after a push that fits. -/
def State.pushed (s : State) (n v : Nat) : State := { s with mem := s.mem.writeLE (s.slot s.sp) n v, sp := s.sp + n }

@[simp] theorem pushed_mem (s : State) (n v : Nat) : (s.pushed n v).mem = s.mem.writeLE (s.slot s.sp) n v := rfl
@[simp] theorem pushed_sp (s : State) (n v : Nat) : (s.pushed n v).sp = s.sp + n := rfl
@[simp] theorem pushed_pc (s : State) (n v : Nat) : (s.pushed n v).pc = s.pc := rfl
@[simp] theorem pushed_latch (s : State) (n v : Nat) : (s.pushed n v).latch = s.latch := rfl
@[simp] theorem pushed_runState (s : State) (n v : Nat) : (s.pushed n v).runState = s.runState := rfl
@[simp] theorem pushed_err (s : State) (n v : Nat) : (s.pushed n v).err = s.err := rfl
@[simp] theorem pushed_memSize (s : State) (n v : Nat) : (s.pushed n v).memSize = s.memSize := rfl
@[simp] theorem pushed_stackSize (s : State) (n v : Nat) : (s.pushed n v).stackSize = s.stackSize := rfl
@[simp] theorem pushed_traceOn (s : State) (n v : Nat) : (s.pushed n v).traceOn = s.traceOn := rfl

/-- Push, once: Blocked, StackOverflow with LATCH tripped, or the pushed state (R71). -/
theorem push_eq (hs : s.Sane) (n v : Nat) : push n v s =
    if s.latch ≠ .active then .raised .blocked s
    else if s.stackSize < s.sp + n then .raised .stackOverflow { s with latch := .overflowed }
    else .ok () (s.pushed n v) := by
  unfold push
  split
  · rfl
  · split
    · rfl
    · rw [memWrite_ok v (slot_inBounds hs (by omega))]
      rfl

/-- Pop, once: Blocked, StackUnderflow with LATCH tripped, or the bytes below SP with SP moved down (R72). -/
theorem pop_eq (hs : s.Sane) (n : Nat) : pop n s =
    if s.latch ≠ .active then .raised .blocked s
    else if s.sp < n then .raised .stackUnderflow { s with latch := .underflowed }
    else .ok (s.mem.readLE (s.slot (s.sp - n)) n) { s with sp := s.sp - n } := by
  have := hs.1
  unfold pop
  split
  · rfl
  · split
    · rfl
    · exact memRead_ok (s := { s with sp := s.sp - n }) (slot_inBounds (s := s) hs (i := s.sp - n) (n := n) (by omega))

/-- Peek, once: Blocked, MemoryError outside the window, or the bytes there with nothing moved (R73). -/
theorem peek_eq (hs : s.Sane) (off : Int) (n : Nat) : peek off n s =
    if s.latch ≠ .active then .raised .blocked s
    else if inWindow s (s.sp + off) n then .ok (s.mem.readLE (slotAddress s (s.sp + off)).toNat n) s
    else .raised .memoryError s := by
  have := hs.2.1
  unfold peek
  split
  · rfl
  · split
    · exact memRead_ok (by unfold inBounds slotAddress; omega)
    · rfl

/-- Poke, once: Blocked, MemoryError outside the window, or the bytes there written (R74). -/
theorem poke_eq (hs : s.Sane) (off : Int) (n v : Nat) : poke off n v s =
    if s.latch ≠ .active then .raised .blocked s
    else if inWindow s (s.sp + off) n then
      .ok () { s with mem := s.mem.writeLE (slotAddress s (s.sp + off)).toNat n v }
    else .raised .memoryError s := by
  have := hs.2.1
  unfold poke
  split
  · rfl
  · split
    · exact memWrite_ok v (by unfold inBounds slotAddress; omega)
    · rfl

/-! ### The operations keep a state sane -/

theorem Sane.withSp (hs : s.Sane) {n : Nat} (h : n ≤ s.stackSize) : State.Sane { s with sp := n } :=
  ⟨h, hs.2⟩

theorem Sane.withMem (hs : s.Sane) {m : Memory} (h : m.wf s.memSize = true) : State.Sane { s with mem := m } :=
  ⟨hs.1, hs.2.1, hs.2.2.1, h⟩

theorem Sane.writeLE (hs : s.Sane) {a : Int} {n : Nat} (v : Nat) (h : inBounds s a n) :
    State.Sane { s with mem := s.mem.writeLE a.toNat n v } :=
  Sane.withMem hs (Memory.writeLE_wf hs.2.2.2 _ _ _ (by unfold inBounds at h; omega))

theorem Sane.pushed (hs : s.Sane) {n : Nat} (v : Nat) (h : s.sp + n ≤ s.stackSize) : (s.pushed n v).Sane :=
  Sane.withSp (s := { s with mem := s.mem.writeLE (s.slot s.sp) n v }) (Sane.writeLE hs v (slot_inBounds hs h)) h

/-! ### Bytes held -/

/-- The bytes a state holds are the value a multi-byte read gives. -/
theorem Holds.readLE {x n v : Nat} (h : Holds s x n v) : s.mem.readLE x n = v % 256 ^ n := Memory.readLE_of_bytes h

theorem holds_writeLE (hs : s.Sane) {x n : Nat} (v : Nat) (h : x + n ≤ s.memSize) :
    Holds { s with mem := s.mem.writeLE x n v } x n v :=
  fun _ hk => Memory.read_writeLE_inside hs.2.2.2 x n v hk h

theorem byteAt_writeLE_outside (s : State) (x n v : Nat) {y : Nat} (h : y < x ∨ x + n ≤ y) :
    State.byteAt { s with mem := s.mem.writeLE x n v } y = s.byteAt y :=
  Memory.read_writeLE_outside _ _ _ _ h

/-! ### Popping and pushing held values -/

/-- Popping bytes that hold a value gives the value. -/
theorem pop_holds (hs : s.Sane) (ha : s.latch = .active) {n v : Nat} (hn : n ≤ s.sp)
    (h : Holds s (s.slot (s.sp - n)) n v) : pop n s = .ok (v % 256 ^ n) { s with sp := s.sp - n } := by
  rw [pop_eq hs, if_neg (by simp [ha]), if_neg (by omega), h.readLE]

theorem popWord_holds (hs : s.Sane) (ha : s.latch = .active) {a : Word} (hn : 8 ≤ s.sp)
    (h : Holds s (s.slot (s.sp - 8)) 8 a.toNat) : popWord s = .ok a { s with sp := s.sp - 8 } := by
  rw [popWord, pop_holds hs ha hn h, Res.bind_ok, Nat.mod_eq_of_lt (show a.toNat < 256 ^ 8 from a.isLt), BitVec.ofNat_toNat, BitVec.setWidth_eq]

theorem popByte_holds (hs : s.Sane) (ha : s.latch = .active) {a : Byte} (hn : 1 ≤ s.sp)
    (h : Holds s (s.slot (s.sp - 1)) 1 a.toNat) : popByte s = .ok a { s with sp := s.sp - 1 } := by
  rw [popByte, pop_holds hs ha hn h, Res.bind_ok, Nat.mod_eq_of_lt (show a.toNat < 256 ^ 1 from a.isLt), BitVec.ofNat_toNat, BitVec.setWidth_eq]

/-- A push that fits. -/
theorem push_fits (hs : s.Sane) (ha : s.latch = .active) {n : Nat} (v : Nat) (h : s.sp + n ≤ s.stackSize) :
    push n v s = .ok () (s.pushed n v) := by
  rw [push_eq hs, if_neg (by simp [ha]), if_neg (by omega)]

/-- Every value is held by the bytes that stand there. -/
theorem holds_readLE (s : State) (x n : Nat) : Holds s x n (s.mem.readLE x n) :=
  fun _ hk => (Memory.byte_of_readLE s.mem x n hk).symm

/-- A value and its low `n` bytes are held alike. -/
theorem holds_mod {x n v : Nat} : Holds s x n (v % 256 ^ n) ↔ Holds s x n v := by
  have key : ∀ k < n, BitVec.ofNat 8 (v % 256 ^ n / 256 ^ k) = BitVec.ofNat 8 (v / 256 ^ k) := fun k hk => by
    apply BitVec.eq_of_toNat_eq
    obtain ⟨d, rfl⟩ : ∃ d, n = k + (d + 1) := ⟨n - k - 1, by omega⟩
    rw [BitVec.toNat_ofNat, BitVec.toNat_ofNat, Nat.pow_add, Nat.mod_mul_right_div_self, Nat.pow_succ]
    exact Nat.mod_mod_of_dvd _ (Dvd.intro_left _ rfl)
  exact ⟨fun h k hk => (h k hk).trans (key k hk), fun h k hk => (h k hk).trans (key k hk).symm⟩

/-! ### When the Stack operations raise, and when they fit -/

theorem push_blocked (h : s.latch ≠ .active) (n v : Nat) : push n v s = .raised .blocked s := if_pos h

theorem pop_blocked (h : s.latch ≠ .active) (n : Nat) : pop n s = .raised .blocked s := if_pos h

theorem peek_blocked (h : s.latch ≠ .active) (off : Int) (n : Nat) : peek off n s = .raised .blocked s := if_pos h

theorem poke_blocked (h : s.latch ≠ .active) (off : Int) (n v : Nat) : poke off n v s = .raised .blocked s := if_pos h

theorem popWord_blocked (h : s.latch ≠ .active) : popWord s = .raised .blocked s := by rw [popWord, pop_blocked h]; rfl

theorem popByte_blocked (h : s.latch ≠ .active) : popByte s = .raised .blocked s := by rw [popByte, pop_blocked h]; rfl

theorem push_overflows (ha : s.latch = .active) {n : Nat} (h : s.stackSize < s.sp + n) (v : Nat) :
    push n v s = .raised .stackOverflow { s with latch := .overflowed } := by
  rw [push, if_neg (by simp [ha]), if_pos h]

theorem pop_underflows (ha : s.latch = .active) {n : Nat} (h : s.sp < n) :
    pop n s = .raised .stackUnderflow { s with latch := .underflowed } := by
  rw [pop, if_neg (by simp [ha]), if_pos h]

/-- A pop of bytes the Stack has gives some value and moves SP down. -/
theorem pop_fits (hs : s.Sane) (ha : s.latch = .active) {n : Nat} (h : n ≤ s.sp) :
    ∃ v, pop n s = .ok v { s with sp := s.sp - n } := by
  exact ⟨_, by rw [pop_eq hs, if_neg (by simp [ha]), if_neg (by omega)]⟩

theorem Sane.popped (hs : s.Sane) (n : Nat) : State.Sane { s with sp := s.sp - n } :=
  Sane.withSp hs (by have := hs.1; omega)

/-- After a push the pushed bytes hold the value. -/
theorem pushed_holds (hs : s.Sane) {n : Nat} (v : Nat) (h : s.sp + n ≤ s.stackSize) :
    Holds (s.pushed n v) (s.slot s.sp) n v :=
  holds_writeLE hs v (by have := slot_eq hs s.sp; have := hs.2.1; omega)

/-- A push leaves every other byte alone. -/
theorem pushed_outside (s : State) (n v : Nat) {x : Nat} (h : x < s.slot s.sp ∨ s.slot s.sp + n ≤ x) :
    (s.pushed n v).byteAt x = s.byteAt x :=
  byteAt_writeLE_outside s _ _ _ h

/-- A push stores the low bytes of its value only. -/
theorem pushed_mod (s : State) (n v : Nat) : s.pushed n (v % 256 ^ n) = s.pushed n v := by
  rw [State.pushed, State.pushed, Memory.writeLE_mod]

/-- The eight operand bytes the encoder writes are those of R101. -/
theorem leBytes_eq_opnd64 (v : Word) : leBytes 8 v.toNat = opnd64 v := by
  simp only [leBytes, opnd64, Nat.div_div_eq_div_mul, List.cons.injEq, and_true]
  refine ⟨?_, ?_, ?_, ?_, ?_, ?_, ?_, ?_⟩ <;>
    (apply BitVec.eq_of_toNat_eq; simp [BitVec.extractLsb'_toNat, Nat.shiftRight_eq_div_pow])

/-! ### The commit -/

@[simp] theorem commit_advance (opw : Nat) (s t : State) :
    commit opw s (.ok .advance t) = .next { t with pc := BitVec.ofInt 64 (s.pc.toInt + 1 + opw) } := rfl

@[simp] theorem commit_redirect (opw : Nat) (s t : State) (p : Word) :
    commit opw s (.ok (.redirect p) t) = .next { t with pc := p } := rfl

@[simp] theorem commit_raised (opw : Nat) (s t : State) (e : ErrorCode) :
    commit opw s (.raised e t) = .next (haltError s t.latch e) := rfl

/-- The default advance, computed on unbounded integers (R12), is the 64-bit sum. -/
theorem advance_eq (p : Word) (opw : Nat) : BitVec.ofInt 64 (p.toInt + 1 + opw) = p + BitVec.ofNat 64 (1 + opw) := by
  rw [Int.add_assoc, BitVec.ofInt_add, BitVec.ofInt_toInt, show (1 : Int) + opw = ((1 + opw : Nat) : Int) by push_cast; rfl,
    BitVec.ofInt_natCast]

end Sys2Proof.Machine
end

