-- ==== Sys2Proof/Laws/Sound.lean ====
section
/-! SUPPORT. What any piece of pseudocode leaves alone, as one relation that sequencing keeps: PC, RUNSTATE, ERR and the sizes until the commit, LATCH unless a stack error trips it, and the sanity of the state. Every invariant of the machine follows from it. -/
namespace Sys2Proof.Machine

/-- LATCH after a raise: tripped by the stack error of an untripped Stack, else as it was; Blocked only if it was tripped
(R71, R72, R75). -/
def LatchAfter (s : State) (e : ErrorCode) (l : Latch) : Prop :=
  (l = s.latch ∧ e ≠ .stackOverflow ∧ e ≠ .stackUnderflow ∧ (e = .blocked → s.latch ≠ .active)) ∨
  (s.latch = .active ∧ e = .stackOverflow ∧ l = .overflowed) ∨
  (s.latch = .active ∧ e = .stackUnderflow ∧ l = .underflowed)

/-- `t` differs from `s` in MEM and SP at most, and is sane if `s` is. -/
def MovedTo (s t : State) : Prop :=
  t.pc = s.pc ∧ SameControl s t ∧ (s.Sane → t.Sane)

/-- What a piece of pseudocode begun in `s` can give. -/
def Res.Sound {α : Type} (s : State) : Res α → Prop
  | .ok _ t => MovedTo s t
  | .raised e t => LatchAfter s e t.latch

theorem SameControl.refl (s : State) : SameControl s s := ⟨rfl, rfl, rfl, rfl, rfl, rfl⟩

theorem SameControl.trans {s t u : State} (h : SameControl s t) (k : SameControl t u) : SameControl s u := by
  unfold SameControl at *
  simp_all

theorem MovedTo.refl (s : State) : MovedTo s s := ⟨rfl, .refl s, id⟩

theorem MovedTo.trans {s t u : State} (h : MovedTo s t) (k : MovedTo t u) : MovedTo s u :=
  ⟨k.1.trans h.1, h.2.1.trans k.2.1, fun hs => k.2.2 (h.2.2 hs)⟩

theorem LatchAfter.of_moved {s t : State} {e : ErrorCode} {l : Latch} (h : MovedTo s t) (k : LatchAfter t e l) :
    LatchAfter s e l := by
  unfold LatchAfter at *
  rw [h.2.1.1] at k
  exact k

/-- Sequencing keeps soundness. -/
theorem Res.Sound.bind {α β : Type} {s : State} {r : Res α} {f : α → State → Res β} (h : r.Sound s)
    (hf : ∀ a t, MovedTo s t → (f a t).Sound t) : (r.bind f).Sound s := by
  cases r with
  | raised e t => exact h
  | ok a t =>
    have := hf a t h
    rw [Res.bind_ok]
    cases hfa : f a t with
    | ok b u => rw [hfa] at this; exact MovedTo.trans h this
    | raised e u => rw [hfa] at this; exact LatchAfter.of_moved h this

theorem ok_sound {α : Type} (a : α) (s : State) : (Res.ok a s).Sound s := MovedTo.refl s

/-- An error that is neither a stack error nor Blocked leaves LATCH alone. -/
theorem raised_sound {α : Type} (s : State) {e : ErrorCode} (h : e ≠ .stackOverflow) (h' : e ≠ .stackUnderflow)
    (h'' : e ≠ .blocked) : (Res.raised e s : Res α).Sound s := .inl ⟨rfl, h, h', fun k => absurd k h''⟩

theorem thenAdvance_sound {α : Type} {s : State} {r : Res α} (h : r.Sound s) : r.thenAdvance.Sound s :=
  h.bind fun _ t _ => ok_sound _ t

theorem memRead_sound (a : Int) (n : Nat) (s : State) : (memRead a n s).Sound s := by
  unfold memRead
  split
  · exact MovedTo.refl s
  · exact raised_sound s nofun nofun nofun

theorem memWrite_sound (a : Int) (n v : Nat) (s : State) : (memWrite a n v s).Sound s := by
  unfold memWrite
  split
  · next h => exact ⟨rfl, .refl s, fun hs => Sane.writeLE hs v h⟩
  · exact raised_sound s nofun nofun nofun

theorem push_sound (n v : Nat) (s : State) : (push n v s).Sound s := by
  unfold push
  split
  · next h => exact .inl ⟨rfl, nofun, nofun, fun _ => h⟩
  · next h =>
    split
    · exact .inr (.inl ⟨not_not.mp h, rfl, rfl⟩)
    · next hn =>
      refine (memWrite_sound _ n v s).bind fun _ t ht => ⟨rfl, .refl t, fun hs => Sane.withSp hs ?_⟩
      rw [ht.2.1.2.2.2.2.1]
      omega

theorem pop_sound (n : Nat) (s : State) : (pop n s).Sound s := by
  unfold pop
  split
  · next h => exact .inl ⟨rfl, nofun, nofun, fun _ => h⟩
  · next h =>
    split
    · exact .inr (.inr ⟨not_not.mp h, rfl, rfl⟩)
    · unfold memRead
      split
      · exact ⟨rfl, .refl s, fun hs => Sane.withSp hs (by have := hs.1; omega)⟩
      · exact .inl ⟨rfl, nofun, nofun, nofun⟩

theorem peek_sound (off : Int) (n : Nat) (s : State) : (peek off n s).Sound s := by
  unfold peek
  split
  · next h => exact .inl ⟨rfl, nofun, nofun, fun _ => h⟩
  · split
    · exact memRead_sound _ n s
    · exact raised_sound s nofun nofun nofun

theorem poke_sound (off : Int) (n v : Nat) (s : State) : (poke off n v s).Sound s := by
  unfold poke
  split
  · next h => exact .inl ⟨rfl, nofun, nofun, fun _ => h⟩
  · split
    · exact memWrite_sound _ n v s
    · exact raised_sound s nofun nofun nofun

theorem redirectTo_sound (t : Word) (s : State) : (redirectTo t s).Sound s := by
  unfold redirectTo
  split
  · exact MovedTo.refl s
  · exact raised_sound s nofun nofun nofun

theorem popByte_sound (s : State) : (popByte s).Sound s := (pop_sound 1 s).bind fun _ t _ => ok_sound _ t

theorem popWord_sound (s : State) : (popWord s).Sound s := (pop_sound 8 s).bind fun _ t _ => ok_sound _ t

theorem pushByte_sound (b : Byte) (s : State) : (pushByte b s).Sound s := push_sound 1 b.toNat s

theorem pushWord_sound (p : Word) (s : State) : (pushWord p s).Sound s := push_sound 8 p.toNat s

theorem withBytes_sound {α : Type} (s : State) {f : Byte → Byte → State → Res α} (hf : ∀ a b t, (f a b t).Sound t) :
    (withBytes s f).Sound s :=
  (popByte_sound s).bind fun _ t _ => (popByte_sound t).bind fun _ u _ => hf _ _ u

theorem withWords_sound {α : Type} (s : State) {f : Word → Word → State → Res α} (hf : ∀ a b t, (f a b t).Sound t) :
    (withWords s f).Sound s :=
  (popWord_sound s).bind fun _ t _ => (popWord_sound t).bind fun _ u _ => hf _ _ u

theorem withPoppedAddress_sound (s : State) {f : Int → State → Res Flow} (hf : ∀ a t, (f a t).Sound t) :
    (withPoppedAddress s f).Sound s := (popWord_sound s).bind fun _ t _ => hf _ t

theorem getFrom_sound (ty : Ty) (a : Int) (s : State) : (getFrom ty a s).Sound s :=
  (memRead_sound a _ s).bind fun _ t _ => thenAdvance_sound (push_sound _ _ t)

theorem putTo_sound (ty : Ty) (a : Int) (s : State) : (putTo ty a s).Sound s :=
  (pop_sound _ s).bind fun _ t _ => thenAdvance_sound (memWrite_sound a _ _ t)

theorem getAtOffset_sound (ty : Ty) (off : Word) (s : State) : (getAtOffset ty off s).Sound s :=
  (peek_sound _ _ s).bind fun _ t _ => thenAdvance_sound (push_sound _ _ t)

theorem putAtOffset_sound (ty : Ty) (off : Word) (s : State) : (putAtOffset ty off s).Sound s :=
  (pop_sound _ s).bind fun _ t _ => thenAdvance_sound (poke_sound _ _ _ t)

theorem byteArith_sound (op : Byte → Byte → Byte) (s : State) : (byteArith op s).Sound s :=
  withBytes_sound s fun _ _ t => thenAdvance_sound (pushByte_sound _ t)

theorem wordArith_sound (op : Word → Word → Word) (s : State) : (wordArith op s).Sound s :=
  withWords_sound s fun _ _ t => thenAdvance_sound (pushWord_sound _ t)

theorem compareBytes_sound (rel : Byte → Byte → Bool) (s : State) : (compareBytes rel s).Sound s :=
  withBytes_sound s fun _ _ t => thenAdvance_sound (pushByte_sound _ t)

theorem compareWords_sound (rel : Word → Word → Bool) (s : State) : (compareWords rel s).Sound s :=
  withWords_sound s fun _ _ t => thenAdvance_sound (pushByte_sound _ t)

theorem byteLogic_sound (op : Byte → Byte → Byte) (s : State) : (byteLogic op s).Sound s :=
  withBytes_sound s fun _ _ t => thenAdvance_sound (pushByte_sound _ t)

theorem jumpIf_sound (c : Bool) (p : Word) (s : State) : (jumpIf c p s).Sound s := by
  cases c
  · exact ok_sound _ s
  · exact redirectTo_sound p s

theorem jumpByteStack_sound (c : Byte → Bool) (s : State) : (jumpByteStack c s).Sound s :=
  (popWord_sound s).bind fun _ t _ => (popByte_sound t).bind fun _ u _ => jumpIf_sound _ _ u

theorem jumpWordStack_sound (c : Word → Bool) (s : State) : (jumpWordStack c s).Sound s :=
  (popWord_sound s).bind fun _ t _ => (popWord_sound t).bind fun _ u _ => jumpIf_sound _ _ u

theorem jumpByteLiteral_sound (c : Byte → Bool) (p : Word) (s : State) : (jumpByteLiteral c p s).Sound s :=
  (popByte_sound s).bind fun _ t _ => jumpIf_sound _ _ t

theorem jumpWordLiteral_sound (c : Word → Bool) (p : Word) (s : State) : (jumpWordLiteral c p s).Sound s :=
  (popWord_sound s).bind fun _ t _ => jumpIf_sound _ _ t

/-- The commit of a sound body answers a next state: PC alone differs from what the body left, or it is the error halt
with LATCH as the raise left it (R112, R279). -/
theorem commit_sound (opw : Nat) {s : State} {r : Res Flow} (h : r.Sound s) :
    (∃ t p, MovedTo s t ∧ commit opw s r = .next { t with pc := p }) ∨
    (∃ e l, LatchAfter s e l ∧ commit opw s r = .next (errorHalt s e l)) := by
  cases r with
  | ok f t =>
    cases f with
    | advance => exact .inl ⟨t, _, h, rfl⟩
    | redirect p => exact .inl ⟨t, p, h, rfl⟩
  | raised e t => exact .inr ⟨e, t.latch, h, rfl⟩

end Sys2Proof.Machine
end

