-- ==== Sys2Proof/Laws/Trace.lean ====
section
/-! SUPPORT. What the fetch sees and what the trace port puts out (30_encoding.md R108, R112; 60_exceptions.md R288), said once for the proofs. -/
namespace Sys2Proof.Machine

/-! ### The bytes the fetch sees -/

@[simp] theorem Memory.bytes_length (m : Memory) (a n : Nat) : (m.bytes a n).length = n := by
  induction n generalizing a with
  | zero => rfl
  | succ n ih => simp [Memory.bytes, ih]

theorem Memory.bytes_getElem? (m : Memory) (a : Nat) {n k : Nat} (h : k < n) : (m.bytes a n)[k]? = some (m.read (a + k)) := by
  induction n generalizing a k with
  | zero => omega
  | succ n ih =>
    cases k with
    | zero => rfl
    | succ k =>
      rw [Memory.bytes, List.getElem?_cons_succ, ih _ (by omega)]
      congr 2; omega

theorem Memory.bytes_take (m : Memory) (a : Nat) {n k : Nat} (h : k ≤ n) : (m.bytes a n).take k = m.bytes a k := by
  apply List.ext_getElem?
  intro j
  by_cases hj : j < k
  · rw [List.getElem?_take_of_lt hj, bytes_getElem? _ _ (by omega), bytes_getElem? _ _ hj]
  · rw [List.getElem?_eq_none (by simp; omega), List.getElem?_eq_none (by simp; omega)]

/-- The value of `n` bytes that hold `v` is `v` modulo their range. -/
theorem leValue_bytes {s : State} {x n v : Nat} (h : Holds s x n v) : leValue (s.mem.bytes x n) = v % 256 ^ n := by
  rw [← leValue_leBytes]
  congr 1
  apply List.ext_getElem?
  intro k
  by_cases hk : k < n
  · rw [Memory.bytes_getElem? _ _ hk, leBytes_getElem? _ _ hk]; exact congrArg some (h k hk)
  · rw [List.getElem?_eq_none (by simp; omega), List.getElem?_eq_none (by simp; omega)]

/-- Outside Memory the fetch sees nothing. -/
theorem fetchBytes_outside {s : State} (h : s.pc.toInt < 0 ∨ s.memSize ≤ s.pc.toInt) : fetchBytes s = [] := by
  have : fetchableBytes s = 0 := if_neg (by omega)
  rw [fetchBytes, this]; rfl

/-- Inside Memory it sees the opcode byte, and after it as many of eight bytes as Memory has. -/
theorem fetchBytes_inside {s : State} (h0 : 0 ≤ s.pc.toInt) (h1 : s.pc.toInt < s.memSize) :
    fetchBytes s = s.byteAt s.pc.toInt.toNat ::
      s.mem.bytes (s.pc.toInt.toNat + 1) (min 8 (s.memSize - s.pc.toInt.toNat - 1)) := by
  have : fetchableBytes s = min 8 (s.memSize - s.pc.toInt.toNat - 1) + 1 := by
    unfold fetchableBytes maxInstrBytes
    rw [if_pos ⟨h0, h1⟩]; omega
  rw [fetchBytes, this]; rfl

/-! ### The opcode table as the trace port shows it -/

/-- The decoder's rows bear the names of R108, and it has a row for no other opcode. -/
theorem lookupOpcode_mnemonic : ∀ op : Byte, (lookupOpcode op).map OpRow.mnemonic = mnemonicOf op := by
  decide +kernel

/-- The operand field that the instructions of a row get: none for F0, a u8 for F1, a float pattern for push-float and an
s64 for every other F8 row. -/
theorem traceOperand_of_row : ∀ row ∈ opcodeTable, match row.shape with
    | .f0 i => traceOperand i = none ∧ row.opcode ≠ 0x08 ∧ f8Opcode row.opcode = false
    | .f1 mk => row.opcode = 0x08 ∧ ∀ b, traceOperand (mk b) = some (.u8 b)
    | .f8 mk => f8Opcode row.opcode = true ∧
        ∀ v, traceOperand (mk v) = some (if row.opcode = 0x0A then .float v else .s64 v.toInt) := by
  simp only [opcodeTable, dataMovementRows, arithmeticRows, compareLogicRows, controlFlowRows, List.cons_append,
    List.nil_append, List.forall_mem_cons, List.not_mem_nil, false_imp_iff, implies_true, and_true]
  simp [traceOperand, f8Opcode]

/-! ### The record -/

/-- A running engine with the port emits the record of its step. -/
theorem traceRecord_of_step {s t : State} (ht : s.traceOn = true) (hr : s.runState = .running) (h : step s = .next t) :
    traceRecord s = some (traceRecordOf s t) := by
  rw [traceRecord, if_pos ⟨ht, hr⟩, h]

/-- An engine without the port, or one that does not run, emits nothing. -/
theorem traceRecord_silent {s : State} (h : ¬ (s.traceOn = true ∧ s.runState = .running)) : traceRecord s = none := if_neg h

end Sys2Proof.Machine
end

