-- ==== Sys2Proof/Tests/Slice0.lean ====
section
/-! SUPPORT. Tests. Expected values are those of spec/95_test_vectors.md (cited by vector id), of the encodings of spec/30_encoding.md, or worked by hand from the rules cited. The witness theorems show, for each statement with hypotheses, states and operands that meet them. -/
namespace Sys2Proof.Tests
open Sys2Proof.Machine

-- One theorem is checked at a time: in parallel, the many small kernel evaluations below hold a thread each.
set_option Elab.async false

/-! ### Test states -/

/-- The eight bytes of an int. -/
def int8 (x : Int) : List Byte := leBytes 8 (BitVec.ofInt 64 x).toNat

/-- M = 256 and S = 64, running at `pc`, with bytes at address `base` up and the Stack's bytes from slot 0 up. -/
def engine (pc : Int) (base : Nat) (bytes stack : List Byte) : State :=
  { State.initial 256 64 true with
    mem := Memory.writeBytes (Memory.writeBytes [] base bytes) 192 stack
    pc := BitVec.ofInt 64 pc
    sp := stack.length }

/-- PC, SP, the `n` bytes at `a` and ERR after an instruction. -/
def seen (i : Instr) (s : State) (a n : Nat) : Option (Int × Nat × Nat × Option ErrorCode) :=
  match exec i s with
  | .next t => some (t.pc.toInt, t.sp, t.mem.readLE a n, t.err)
  | .fault _ => none
  | .refused _ => none

/-- A state whose LATCH an overflow has tripped. -/
def tripped : State := { engine 0 0 [] (List.replicate 32 1) with latch := .overflowed }

/-! ### WellFormed -/

/-- V-H2, V-H3, and the bound of R6: sizes that Construct refuses, one for each check. -/
theorem test_validSizes_refuses :
    validSizes 64 65 = false ∧ validSizes (-1) 0 = false ∧ validSizes 0 (-1) = false ∧ validSizes (2 ^ 63) 0 = false := by
  decide +kernel

theorem test_validSizes_accepts : validSizes 256 64 = true ∧ validSizes 0 0 = true ∧ validSizes (2 ^ 63 - 1) 0 = true := by
  decide +kernel

/-- V-H5, V-H6. -/
theorem test_validProgram :
    validProgram 16 (List.replicate 17 0) = false ∧ validProgram 16 (List.replicate 16 0) = true := by decide +kernel

/-- V-H2, V-H3: Construct refuses them by name. -/
theorem test_construct_refuses :
    construct 64 65 true = .invalidConfiguration ∧ construct (-1) 0 true = .invalidConfiguration := by decide +kernel

/-! ### Decoding: the bytes of every instruction, written out from R101 and R108 -/

theorem test_decode_push :
    decode [0x08, 0xC3, 0xA5] = .ok (.pushByte 0xC3, [0xA5]) ∧
    decode [0x09, 0x88, 0x77, 0x66, 0x55, 0x44, 0x33, 0x22, 0x11, 0xA5] =
      .ok (.pushInt 0x1122334455667788, [0xA5]) ∧
    decode [0x0A, 0x88, 0x77, 0x66, 0x55, 0x44, 0x33, 0x22, 0x11, 0xA5] =
      .ok (.pushFloat 0x1122334455667788, [0xA5]) := by
  decide +kernel

theorem test_decode_pop :
    decode [0x0C, 0xA5] = .ok (.popByte, [0xA5]) ∧
    decode [0x0D, 0xA5] = .ok (.popInt, [0xA5]) ∧
    decode [0x0E, 0xA5] = .ok (.popFloat, [0xA5]) := by
  decide +kernel

theorem test_decode_get :
    decode [0x10, 0xA5] = .ok (.getByte, [0xA5]) ∧
    decode [0x11, 0xA5] = .ok (.getInt, [0xA5]) ∧
    decode [0x12, 0xA5] = .ok (.getFloat, [0xA5]) := by
  decide +kernel

theorem test_decode_put :
    decode [0x18, 0xA5] = .ok (.putByte, [0xA5]) ∧
    decode [0x19, 0xA5] = .ok (.putInt, [0xA5]) ∧
    decode [0x1A, 0xA5] = .ok (.putFloat, [0xA5]) := by
  decide +kernel

theorem test_decode_get_address :
    decode [0x20, 0x88, 0x77, 0x66, 0x55, 0x44, 0x33, 0x22, 0x11, 0xA5] =
      .ok (.getByteAddress 0x1122334455667788, [0xA5]) ∧
    decode [0x21, 0x88, 0x77, 0x66, 0x55, 0x44, 0x33, 0x22, 0x11, 0xA5] =
      .ok (.getIntAddress 0x1122334455667788, [0xA5]) ∧
    decode [0x22, 0x88, 0x77, 0x66, 0x55, 0x44, 0x33, 0x22, 0x11, 0xA5] =
      .ok (.getFloatAddress 0x1122334455667788, [0xA5]) := by
  decide +kernel

theorem test_decode_put_address :
    decode [0x28, 0x88, 0x77, 0x66, 0x55, 0x44, 0x33, 0x22, 0x11, 0xA5] =
      .ok (.putByteAddress 0x1122334455667788, [0xA5]) ∧
    decode [0x29, 0x88, 0x77, 0x66, 0x55, 0x44, 0x33, 0x22, 0x11, 0xA5] =
      .ok (.putIntAddress 0x1122334455667788, [0xA5]) ∧
    decode [0x2A, 0x88, 0x77, 0x66, 0x55, 0x44, 0x33, 0x22, 0x11, 0xA5] =
      .ok (.putFloatAddress 0x1122334455667788, [0xA5]) := by
  decide +kernel

theorem test_decode_get_stack :
    decode [0x30, 0x88, 0x77, 0x66, 0x55, 0x44, 0x33, 0x22, 0x11, 0xA5] =
      .ok (.getByteStack 0x1122334455667788, [0xA5]) ∧
    decode [0x31, 0x88, 0x77, 0x66, 0x55, 0x44, 0x33, 0x22, 0x11, 0xA5] =
      .ok (.getIntStack 0x1122334455667788, [0xA5]) ∧
    decode [0x32, 0x88, 0x77, 0x66, 0x55, 0x44, 0x33, 0x22, 0x11, 0xA5] =
      .ok (.getFloatStack 0x1122334455667788, [0xA5]) := by
  decide +kernel

theorem test_decode_put_stack :
    decode [0x38, 0x88, 0x77, 0x66, 0x55, 0x44, 0x33, 0x22, 0x11, 0xA5] =
      .ok (.putByteStack 0x1122334455667788, [0xA5]) ∧
    decode [0x39, 0x88, 0x77, 0x66, 0x55, 0x44, 0x33, 0x22, 0x11, 0xA5] =
      .ok (.putIntStack 0x1122334455667788, [0xA5]) ∧
    decode [0x3A, 0x88, 0x77, 0x66, 0x55, 0x44, 0x33, 0x22, 0x11, 0xA5] =
      .ok (.putFloatStack 0x1122334455667788, [0xA5]) := by
  decide +kernel

theorem test_decode_add_sub :
    decode [0x40, 0xA5] = .ok (.addByte, [0xA5]) ∧
    decode [0x41, 0xA5] = .ok (.addInt, [0xA5]) ∧
    decode [0x42, 0xA5] = .ok (.addFloat, [0xA5]) ∧
    decode [0x44, 0xA5] = .ok (.subByte, [0xA5]) ∧
    decode [0x45, 0xA5] = .ok (.subInt, [0xA5]) ∧
    decode [0x46, 0xA5] = .ok (.subFloat, [0xA5]) := by
  decide +kernel

theorem test_decode_mul_div :
    decode [0x48, 0xA5] = .ok (.mulByte, [0xA5]) ∧
    decode [0x49, 0xA5] = .ok (.mulInt, [0xA5]) ∧
    decode [0x4A, 0xA5] = .ok (.mulFloat, [0xA5]) ∧
    decode [0x4C, 0xA5] = .ok (.divByte, [0xA5]) ∧
    decode [0x4D, 0xA5] = .ok (.divInt, [0xA5]) ∧
    decode [0x4E, 0xA5] = .ok (.divFloat, [0xA5]) := by
  decide +kernel

theorem test_decode_equal :
    decode [0x60, 0xA5] = .ok (.equalByte, [0xA5]) ∧
    decode [0x61, 0xA5] = .ok (.equalInt, [0xA5]) ∧
    decode [0x62, 0xA5] = .ok (.equalFloat, [0xA5]) ∧
    decode [0x64, 0xA5] = .ok (.unequalByte, [0xA5]) ∧
    decode [0x65, 0xA5] = .ok (.unequalInt, [0xA5]) ∧
    decode [0x66, 0xA5] = .ok (.unequalFloat, [0xA5]) := by
  decide +kernel

theorem test_decode_order :
    decode [0x68, 0xA5] = .ok (.greaterByte, [0xA5]) ∧
    decode [0x69, 0xA5] = .ok (.greaterInt, [0xA5]) ∧
    decode [0x6A, 0xA5] = .ok (.greaterFloat, [0xA5]) ∧
    decode [0x6C, 0xA5] = .ok (.smallerByte, [0xA5]) ∧
    decode [0x6D, 0xA5] = .ok (.smallerInt, [0xA5]) ∧
    decode [0x6E, 0xA5] = .ok (.smallerFloat, [0xA5]) := by
  decide +kernel

theorem test_decode_logic :
    decode [0x70, 0xA5] = .ok (.andByte, [0xA5]) ∧
    decode [0x71, 0xA5] = .ok (.orByte, [0xA5]) ∧
    decode [0x72, 0xA5] = .ok (.notByte, [0xA5]) ∧
    decode [0x73, 0xA5] = .ok (.xorByte, [0xA5]) := by
  decide +kernel

theorem test_decode_transfer :
    decode [0x00, 0xA5] = .ok (.endOp, [0xA5]) ∧
    decode [0xE0, 0xA5] = .ok (.ret, [0xA5]) ∧
    decode [0xE1, 0x88, 0x77, 0x66, 0x55, 0x44, 0x33, 0x22, 0x11, 0xA5] =
      .ok (.jmp 0x1122334455667788, [0xA5]) ∧
    decode [0xF8, 0xA5] = .ok (.call, [0xA5]) ∧
    decode [0xF9, 0x88, 0x77, 0x66, 0x55, 0x44, 0x33, 0x22, 0x11, 0xA5] =
      .ok (.callAddress 0x1122334455667788, [0xA5]) := by
  decide +kernel

theorem test_decode_jmpz :
    decode [0xE4, 0xA5] = .ok (.jmpzByte, [0xA5]) ∧
    decode [0xE5, 0xA5] = .ok (.jmpzInt, [0xA5]) ∧
    decode [0xE6, 0xA5] = .ok (.jmpzFloat, [0xA5]) ∧
    decode [0xE8, 0x88, 0x77, 0x66, 0x55, 0x44, 0x33, 0x22, 0x11, 0xA5] =
      .ok (.jmpzByteAddress 0x1122334455667788, [0xA5]) ∧
    decode [0xE9, 0x88, 0x77, 0x66, 0x55, 0x44, 0x33, 0x22, 0x11, 0xA5] =
      .ok (.jmpzIntAddress 0x1122334455667788, [0xA5]) ∧
    decode [0xEA, 0x88, 0x77, 0x66, 0x55, 0x44, 0x33, 0x22, 0x11, 0xA5] =
      .ok (.jmpzFloatAddress 0x1122334455667788, [0xA5]) := by
  decide +kernel

theorem test_decode_jmpnz :
    decode [0xEC, 0xA5] = .ok (.jmpnzByte, [0xA5]) ∧
    decode [0xED, 0xA5] = .ok (.jmpnzInt, [0xA5]) ∧
    decode [0xEE, 0xA5] = .ok (.jmpnzFloat, [0xA5]) ∧
    decode [0xF0, 0x88, 0x77, 0x66, 0x55, 0x44, 0x33, 0x22, 0x11, 0xA5] =
      .ok (.jmpnzByteAddress 0x1122334455667788, [0xA5]) ∧
    decode [0xF1, 0x88, 0x77, 0x66, 0x55, 0x44, 0x33, 0x22, 0x11, 0xA5] =
      .ok (.jmpnzIntAddress 0x1122334455667788, [0xA5]) ∧
    decode [0xF2, 0x88, 0x77, 0x66, 0x55, 0x44, 0x33, 0x22, 0x11, 0xA5] =
      .ok (.jmpnzFloatAddress 0x1122334455667788, [0xA5]) := by
  decide +kernel

/-- V-D4: a byte that is none of the 69 opcodes is refused by name, and so is a missing operand (V-D6, V-D7). -/
theorem test_decode_refuses :
    decode [0x01] = .error (.unknownOpcode 0x01) ∧ decode [0x5F, 0, 0] = .error (.unknownOpcode 0x5F) ∧
    decode [0xE1] = .error (.truncatedOperand "jmp") ∧ decode [0x08] = .error (.truncatedOperand "push-byte") ∧
    decode [] = .error .noOpcode := by
  decide +kernel

/-- The opcode table's numbering: the first byte is bits 7:0, and bits the row does not have are 0. -/
theorem test_decodeTableWord :
    decodeTableWord 16 0x7F08 = some (.pushByte 0x7F) ∧ decodeTableWord 8 0x41 = some .addInt ∧
    decodeTableWord 72 0x0000000000000024F1 = some (.jmpnzIntAddress 0x24) ∧ decodeTableWord 8 0xE1 = some (.jmp 0) ∧
    decodeTableWord 8 0x01 = none := by
  decide +kernel

/-- The placed instruction runs in the very next step: push-byte from reset (V-L1). -/
theorem test_withFetchWord :
    (match step (State.reset.withFetchWord 16 0x7F08) with
      | .next t => (t.pc.toNat, t.sp, t.mem.read 192)
      | _ => (0, 0, 0)) = (2, 1, 0x7F) := by
  decide +kernel

/-! ### One step of each instruction -/

/-- V-L1. -/
theorem test_exec_pushByte :
    seen (.pushByte 0x7F) (engine 0 0 [] []) 192 1 = some (2, 1, 0x7F, none) := by decide +kernel

/-- R132. -/
theorem test_exec_pushInt :
    seen (.pushInt 0x1122334455667788) (engine 0 0 [] ([0x99])) 193 8 = some (9, 9, 0x1122334455667788, none) := by decide +kernel

/-- V-M7. -/
theorem test_exec_pushInt_overflow :
    seen (.pushInt 1) (engine 0 0 [] (List.replicate 57 7)) 249 8 = some (0, 57, 0, some .stackOverflow) := by decide +kernel

/-- V-L2. -/
theorem test_exec_pushFloat :
    seen (.pushFloat 0x3FF8000000000000) (engine 0 0 [] []) 192 8 = some (9, 8, 0x3FF8000000000000, none) := by decide +kernel

/-- V-D8 and R76. -/
theorem test_exec_popByte :
    seen .popByte (engine 255 0 [] ([0xAA])) 192 1 = some (256, 0, 0xAA, none) := by decide +kernel

/-- V-L3. -/
theorem test_exec_popInt_underflow :
    seen .popInt (engine 0 0 [] []) 192 8 = some (0, 0, 0, some .stackUnderflow) := by decide +kernel

/-- R135, R76. -/
theorem test_exec_popInt :
    seen .popInt (engine 0 0 [] (int8 5)) 192 8 = some (1, 0, 5, none) := by decide +kernel

/-- R136, R76. -/
theorem test_exec_popFloat :
    seen .popFloat (engine 0 0 [] (0xEE :: int8 5)) 193 8 = some (1, 1, 5, none) := by decide +kernel

/-- V-L5. -/
theorem test_exec_getByte :
    seen .getByte (engine 0 0x40 [0xAB] (int8 0x40)) 192 1 = some (1, 1, 0xAB, none) := by decide +kernel

/-- V-M4. -/
theorem test_exec_getInt :
    seen .getInt (engine 0 0x40 [0x88, 0x77, 0x66, 0x55, 0x44, 0x33, 0x22, 0x11] (int8 0x40)) 192 8 = some (1, 8, 0x1122334455667788, none) := by decide +kernel

/-- V-M2, R139. -/
theorem test_exec_getFloat_past_end :
    seen .getFloat (engine 0 0 [] (int8 249)) 192 8 = some (0, 8, 249, some .memoryError) := by decide +kernel

/-- R139. -/
theorem test_exec_getFloat :
    seen .getFloat (engine 0 0x40 (int8 0x3FF8000000000000) (int8 0x40)) 192 8 = some (1, 8, 0x3FF8000000000000, none) := by decide +kernel

/-- V-L5. -/
theorem test_exec_putByte :
    seen .putByte (engine 0 0 [] (0xAB :: int8 0x40)) 0x40 1 = some (1, 0, 0xAB, none) := by decide +kernel

/-- V-L6. -/
theorem test_exec_putInt_negative :
    seen .putInt (engine 0 0 [] (int8 5 ++ int8 (-1))) 192 8 = some (0, 16, 5, some .memoryError) := by decide +kernel

/-- R141. -/
theorem test_exec_putInt :
    seen .putInt (engine 0 0 [] (int8 0x1122334455667788 ++ int8 0x40)) 0x40 8 = some (1, 0, 0x1122334455667788, none) := by decide +kernel

/-- R142. -/
theorem test_exec_putFloat :
    seen .putFloat (engine 0 0 [] (int8 0x3FF8000000000000 ++ int8 0x40)) 0x40 8 = some (1, 0, 0x3FF8000000000000, none) := by decide +kernel

/-- V-L4. -/
theorem test_exec_getByteAddress :
    seen (.getByteAddress 0x47) (engine 0 0x40 [0x88, 0x77, 0x66, 0x55, 0x44, 0x33, 0x22, 0x11] []) 192 1 = some (9, 1, 0x11, none) := by decide +kernel

/-- V-L7. -/
theorem test_exec_getIntAddress_past_end :
    seen (.getIntAddress 249) (engine 0 0 [] []) 192 8 = some (0, 0, 0, some .memoryError) := by decide +kernel

/-- V-M4. -/
theorem test_exec_getIntAddress :
    seen (.getIntAddress 0x40) (engine 0 0x40 [0x88, 0x77, 0x66, 0x55, 0x44, 0x33, 0x22, 0x11] []) 192 8 = some (9, 8, 0x1122334455667788, none) := by decide +kernel

/-- V-M4, R145. -/
theorem test_exec_getFloatAddress :
    seen (.getFloatAddress 0x40) (engine 0 0x40 [0x88, 0x77, 0x66, 0x55, 0x44, 0x33, 0x22, 0x11] []) 192 8 = some (9, 8, 0x1122334455667788, none) := by decide +kernel

/-- S-P5. -/
theorem test_exec_putByteAddress :
    seen (.putByteAddress 0x40) (engine 0 0 [] ([0xAB])) 0x40 1 = some (9, 0, 0xAB, none) := by decide +kernel

/-- V-L4. -/
theorem test_exec_putIntAddress :
    seen (.putIntAddress 0x40) (engine 0 0 [] (int8 0x1122334455667788)) 0x47 1 = some (9, 0, 0x11, none) := by decide +kernel

/-- R148. -/
theorem test_exec_putFloatAddress :
    seen (.putFloatAddress 0x40) (engine 0 0 [] (int8 0x3FF8000000000000)) 0x40 8 = some (9, 0, 0x3FF8000000000000, none) := by decide +kernel

/-- R148. -/
theorem test_exec_putFloatAddress_past_end :
    seen (.putFloatAddress 249) (engine 0 0 [] (int8 5)) 192 8 = some (0, 8, 5, some .memoryError) := by decide +kernel

/-- R149. -/
theorem test_exec_getByteStack :
    seen (.getByteStack (-2)) (engine 0 0 [] ([0xAA, 0xBB])) 194 1 = some (9, 3, 0xAA, none) := by decide +kernel

/-- V-L16. -/
theorem test_exec_getIntStack :
    seen (.getIntStack (-8)) (engine 0 0 [] (int8 21)) 200 8 = some (9, 16, 21, none) := by decide +kernel

/-- V-L11. -/
theorem test_exec_getIntStack_outside :
    seen (.getIntStack 57) (engine 0 0 [] []) 192 8 = some (0, 0, 0, some .memoryError) := by decide +kernel

/-- V-L10. -/
theorem test_exec_getFloatStack :
    seen (.getFloatStack 0) (engine 0 192 (int8 77) []) 192 8 = some (9, 8, 77, none) := by decide +kernel

/-- V-L17. -/
theorem test_exec_putByteStack :
    seen (.putByteStack (-1)) (engine 0 0 [] ([0xAA, 0xBB])) 192 1 = some (9, 1, 0xBB, none) := by decide +kernel

/-- V-L14. -/
theorem test_exec_putIntStack :
    seen (.putIntStack 56) (engine 0 0 [] (int8 5)) 248 8 = some (9, 0, 5, none) := by decide +kernel

/-- V-L12. -/
theorem test_exec_putIntStack_outside :
    seen (.putIntStack (-8)) (engine 0 0 [] (int8 5)) 192 8 = some (0, 8, 5, some .memoryError) := by decide +kernel

/-- R154: slot 0 is 8 below SP after the pop. -/
theorem test_exec_putFloatStack :
    seen (.putFloatStack (-8)) (engine 0 0 [] (int8 7 ++ int8 5)) 192 8 = some (9, 8, 5, none) := by decide +kernel

/-- V-A1. -/
theorem test_exec_addByte :
    seen .addByte (engine 0 0 [] ([200, 100])) 192 1 = some (1, 1, 0x2C, none) := by decide +kernel

/-- V-A5. -/
theorem test_exec_addInt :
    seen .addInt (engine 0 0 [] (int8 9223372036854775807 ++ int8 1)) 192 8 = some (1, 8, 0x8000000000000000, none) := by decide +kernel

/-- V-A19. -/
theorem test_exec_addFloat :
    seen .addFloat (engine 0 0 [] (int8 0x3FB999999999999A ++ int8 0x3FC999999999999A)) 192 8 = some (1, 8, 0x3FD3333333333334, none) := by decide +kernel

/-- V-A30. -/
theorem test_exec_addFloat_subnormal :
    seen .addFloat (engine 0 0 [] (int8 1 ++ int8 1)) 192 8 = some (1, 8, 2, none) := by decide +kernel

/-- V-A3. -/
theorem test_exec_subByte :
    seen .subByte (engine 0 0 [] ([4, 6])) 192 1 = some (1, 1, 0xFE, none) := by decide +kernel

/-- V-A6. -/
theorem test_exec_subInt :
    seen .subInt (engine 0 0 [] (int8 (-9223372036854775808) ++ int8 1)) 192 8 = some (1, 8, 9223372036854775807, none) := by decide +kernel

/-- V-A23. -/
theorem test_exec_subFloat :
    seen .subFloat (engine 0 0 [] (int8 0x3FF0000000000000 ++ int8 0x3FF0000000000000)) 192 8 = some (1, 8, 0, none) := by decide +kernel

/-- V-A4. -/
theorem test_exec_mulByte :
    seen .mulByte (engine 0 0 [] ([16, 16])) 192 1 = some (1, 1, 0, none) := by decide +kernel

/-- V-A8. -/
theorem test_exec_mulInt :
    seen .mulInt (engine 0 0 [] (int8 (-1) ++ int8 (-1))) 192 8 = some (1, 8, 1, none) := by decide +kernel

/-- V-A7. -/
theorem test_exec_mulInt_wraps :
    seen .mulInt (engine 0 0 [] (int8 4294967296 ++ int8 4294967296)) 192 8 = some (1, 8, 0, none) := by decide +kernel

/-- V-A29. -/
theorem test_exec_mulFloat :
    seen .mulFloat (engine 0 0 [] (int8 1 ++ int8 0x3FE0000000000000)) 192 8 = some (1, 8, 0, none) := by decide +kernel

/-- V-A10. -/
theorem test_exec_divByte :
    seen .divByte (engine 0 0 [] ([200, 7])) 192 1 = some (1, 1, 28, none) := by decide +kernel

/-- V-A18. -/
theorem test_exec_divByte_zero :
    seen .divByte (engine 0 0 [] ([5, 0])) 192 1 = some (0, 2, 5, some .arithmeticError) := by decide +kernel

/-- V-A13. -/
theorem test_exec_divInt_truncates :
    seen .divInt (engine 0 0 [] (int8 (-7) ++ int8 2)) 192 8 = some (1, 8, 0xFFFFFFFFFFFFFFFD, none) := by decide +kernel

/-- V-A16. -/
theorem test_exec_divInt_wraps :
    seen .divInt (engine 0 0 [] (int8 (-9223372036854775808) ++ int8 (-1))) 192 8 = some (1, 8, 9223372036854775808, none) := by decide +kernel

/-- V-A26. -/
theorem test_exec_divFloat_zero :
    seen .divFloat (engine 0 0 [] (int8 0x3FF0000000000000 ++ int8 0x8000000000000000)) 192 8 = some (1, 8, 0xFFF0000000000000, none) := by decide +kernel

/-- 1/3 to nearest even. -/
theorem test_exec_divFloat :
    seen .divFloat (engine 0 0 [] (int8 0x3FF0000000000000 ++ int8 0x4008000000000000)) 192 8 = some (1, 8, 0x3FD5555555555555, none) := by decide +kernel

/-- V-C1. -/
theorem test_exec_equalByte :
    seen .equalByte (engine 0 0 [] ([5, 5])) 192 1 = some (1, 1, 0xFF, none) := by decide +kernel

/-- V-C2. -/
theorem test_exec_equalInt :
    seen .equalInt (engine 0 0 [] (int8 12 ++ int8 12)) 192 1 = some (1, 1, 0xFF, none) := by decide +kernel

/-- V-C3. -/
theorem test_exec_equalFloat_zeros :
    seen .equalFloat (engine 0 0 [] (int8 0 ++ int8 0x8000000000000000)) 192 1 = some (1, 1, 0xFF, none) := by decide +kernel

/-- V-C10. -/
theorem test_exec_equalFloat_nan :
    seen .equalFloat (engine 0 0 [] (int8 0x7FF8000000000000 ++ int8 0x7FF8000000000000)) 192 1 = some (1, 1, 0, none) := by decide +kernel

/-- R206. -/
theorem test_exec_unequalByte :
    seen .unequalByte (engine 0 0 [] ([5, 5])) 192 1 = some (1, 1, 0, none) := by decide +kernel

/-- V-C11. -/
theorem test_exec_unequalInt :
    seen .unequalInt (engine 0 0 [] (int8 0 ++ int8 (-1))) 192 1 = some (1, 1, 0xFF, none) := by decide +kernel

/-- V-C9. -/
theorem test_exec_unequalFloat :
    seen .unequalFloat (engine 0 0 [] (int8 0x7FF8000000000000 ++ int8 0x7FF8000000000000)) 192 1 = some (1, 1, 0xFF, none) := by decide +kernel

/-- V-C4. -/
theorem test_exec_greaterByte :
    seen .greaterByte (engine 0 0 [] ([255, 1])) 192 1 = some (1, 1, 0xFF, none) := by decide +kernel

/-- V-C5. -/
theorem test_exec_greaterInt :
    seen .greaterInt (engine 0 0 [] (int8 (-1) ++ int8 1)) 192 1 = some (1, 1, 0, none) := by decide +kernel

/-- V-C6. -/
theorem test_exec_greaterFloat_nan :
    seen .greaterFloat (engine 0 0 [] (int8 0x7FF8000000000000 ++ int8 0x3FF0000000000000)) 192 1 = some (1, 1, 0, none) := by decide +kernel

/-- 1.0 > -2.0. -/
theorem test_exec_greaterFloat :
    seen .greaterFloat (engine 0 0 [] (int8 0x3FF0000000000000 ++ int8 0xC000000000000000)) 192 1 = some (1, 1, 0xFF, none) := by decide +kernel

/-- R212. -/
theorem test_exec_smallerByte :
    seen .smallerByte (engine 0 0 [] ([4, 6])) 192 1 = some (1, 1, 0xFF, none) := by decide +kernel

/-- V-C7. -/
theorem test_exec_smallerInt :
    seen .smallerInt (engine 0 0 [] (int8 (-1) ++ int8 1)) 192 1 = some (1, 1, 0xFF, none) := by decide +kernel

/-- V-C8. -/
theorem test_exec_smallerFloat_nan :
    seen .smallerFloat (engine 0 0 [] (int8 0x3FF0000000000000 ++ int8 0x7FF8000000000000)) 192 1 = some (1, 1, 0, none) := by decide +kernel

/-- -2.0 < 1.0. -/
theorem test_exec_smallerFloat :
    seen .smallerFloat (engine 0 0 [] (int8 0xC000000000000000 ++ int8 0x3FF0000000000000)) 192 1 = some (1, 1, 0xFF, none) := by decide +kernel

/-- V-C12. -/
theorem test_exec_and :
    seen .andByte (engine 0 0 [] ([0xF0, 0x3C])) 192 1 = some (1, 1, 0x30, none) := by decide +kernel

/-- V-C13. -/
theorem test_exec_or :
    seen .orByte (engine 0 0 [] ([0xF0, 0x3C])) 192 1 = some (1, 1, 0xFC, none) := by decide +kernel

/-- V-C14. -/
theorem test_exec_xor :
    seen .xorByte (engine 0 0 [] ([0xF0, 0x3C])) 192 1 = some (1, 1, 0xCC, none) := by decide +kernel

/-- V-C15. -/
theorem test_exec_not :
    seen .notByte (engine 0 0 [] ([0x0F])) 192 1 = some (1, 1, 0xF0, none) := by decide +kernel

/-- V-J1. -/
theorem test_exec_ret :
    seen .ret (engine 9 0 [] (int8 0x30)) 192 8 = some (48, 0, 48, none) := by decide +kernel

/-- V-J6. -/
theorem test_exec_ret_illegal :
    seen .ret (engine 9 0 [] (int8 256)) 192 8 = some (9, 8, 256, some .illegalAddress) := by decide +kernel

/-- V-J2. -/
theorem test_exec_jmp :
    seen (.jmp 255) (engine 0 0 [] []) 192 1 = some (255, 0, 0, none) := by decide +kernel

/-- V-J4. -/
theorem test_exec_jmp_illegal :
    seen (.jmp 256) (engine 0 0 [] []) 192 1 = some (0, 0, 0, some .illegalAddress) := by decide +kernel

/-- R235. -/
theorem test_exec_jmpzByte :
    seen .jmpzByte (engine 0 0 [] ([0x00] ++ int8 0x30)) 192 1 = some (48, 0, 0, none) := by decide +kernel

/-- S-E, P4. -/
theorem test_exec_jmpzInt_taken :
    seen .jmpzInt (engine 18 0 [] (int8 0 ++ int8 0x14)) 192 8 = some (20, 0, 0, none) := by decide +kernel

/-- V-J11. -/
theorem test_exec_jmpzInt_untaken :
    seen .jmpzInt (engine 18 0 [] (int8 1 ++ int8 1000)) 192 8 = some (19, 0, 1, none) := by decide +kernel

/-- V-J12. -/
theorem test_exec_jmpzFloat :
    seen .jmpzFloat (engine 18 0 [] (int8 0x8000000000000000 ++ int8 0x30)) 192 8 = some (48, 0, 9223372036854775808, none) := by decide +kernel

/-- V-J13. -/
theorem test_exec_jmpzFloat_nan :
    seen .jmpzFloat (engine 18 0 [] (int8 0x7FF8000000000000 ++ int8 0x30)) 192 8 = some (19, 0, 0x7FF8000000000000, none) := by decide +kernel

/-- P6. -/
theorem test_exec_jmpzByteAddress :
    seen (.jmpzByteAddress 0x2E) (engine 19 0 [] ([0x00])) 192 1 = some (46, 0, 0, none) := by decide +kernel

/-- V-J9. -/
theorem test_exec_jmpzIntAddress_illegal :
    seen (.jmpzIntAddress 256) (engine 9 0 [] (int8 0)) 192 8 = some (9, 8, 0, some .illegalAddress) := by decide +kernel

/-- V-J10. -/
theorem test_exec_jmpzIntAddress_untaken :
    seen (.jmpzIntAddress 256) (engine 9 0 [] (int8 1)) 192 8 = some (18, 0, 1, none) := by decide +kernel

/-- R240. -/
theorem test_exec_jmpzFloatAddress :
    seen (.jmpzFloatAddress 0x30) (engine 9 0 [] (int8 0x8000000000000000)) 192 8 = some (48, 0, 9223372036854775808, none) := by decide +kernel

/-- V-J15. -/
theorem test_exec_jmpnzByte :
    seen .jmpnzByte (engine 11 0 [] ([0x01] ++ int8 0x30)) 192 1 = some (48, 0, 1, none) := by decide +kernel

/-- R242. -/
theorem test_exec_jmpnzInt :
    seen .jmpnzInt (engine 18 0 [] (int8 (-1) ++ int8 0x30)) 192 8 = some (48, 0, 18446744073709551615, none) := by decide +kernel

/-- R243. -/
theorem test_exec_jmpnzFloat :
    seen .jmpnzFloat (engine 18 0 [] (int8 0x8000000000000000 ++ int8 0x30)) 192 8 = some (19, 0, 9223372036854775808, none) := by decide +kernel

/-- R244. -/
theorem test_exec_jmpnzByteAddress :
    seen (.jmpnzByteAddress 0x30) (engine 2 0 [] ([0x00])) 192 1 = some (11, 0, 0, none) := by decide +kernel

/-- P2. -/
theorem test_exec_jmpnzIntAddress :
    seen (.jmpnzIntAddress 0x24) (engine 0x65 0 [] (int8 2)) 192 8 = some (36, 0, 2, none) := by decide +kernel

/-- V-J14. -/
theorem test_exec_jmpnzFloatAddress :
    seen (.jmpnzFloatAddress 0x30) (engine 9 0 [] (int8 0x7FF8000000000000)) 192 8 = some (48, 0, 0x7FF8000000000000, none) := by decide +kernel

/-- V-J16, P7b. -/
theorem test_exec_call :
    seen .call (engine 9 0 [] (int8 0x0B)) 192 8 = some (11, 8, 10, none) := by decide +kernel

/-- V-J7. -/
theorem test_exec_call_illegal :
    seen .call (engine 9 0 [] (int8 300)) 192 8 = some (9, 8, 300, some .illegalAddress) := by decide +kernel

/-- P3. -/
theorem test_exec_callAddress :
    seen (.callAddress 0x1C) (engine 9 0 [] (int8 21)) 200 8 = some (28, 16, 18, none) := by decide +kernel

/-- V-J8. -/
theorem test_exec_callAddress_illegal :
    seen (.callAddress 300) (engine 0 0 [] []) 192 8 = some (0, 0, 0, some .illegalAddress) := by decide +kernel

/-- V-J3. -/
theorem test_exec_end : stepState (engine 5 0 [] []) = { engine 5 0 [] [] with runState := .haltedClean } := by
  decide +kernel

/-- V-D5, V-D7, V-D10: an undefined opcode before its operand, an operand past the end, a fetch at −1. -/
theorem test_step_fetch_errors :
    stepState (engine 255 255 [0x01] []) = (errorHalt (engine 255 255 [0x01] []) .unknownOpcode .active) ∧
    stepState (engine 255 255 [0x08] []) = (errorHalt (engine 255 255 [0x08] []) .memoryError .active) ∧
    stepState (engine (-1) 0 [] []) = (errorHalt (engine (-1) 0 [] []) .memoryError .active) := by
  decide +kernel

/-- V-E2, V-E3, V-E4, P5: STATUS words. -/
theorem test_statusWord :
    (errorHalt (engine 0 0 [] []) .stackUnderflow .underflowed).statusWord = 0x3A ∧
    State.statusWord { engine 0 0 [] [] with runState := .haltedClean } = 0x01 ∧
    (errorHalt (engine 0 0 [] []) .unknownOpcode .active).statusWord = 0x62 ∧
    (errorHalt (engine 0 0 [] []) .stackOverflow .overflowed).statusWord = 0x26 := by
  decide +kernel

/-- The table of R108 names every defined opcode and no other, and names none twice. -/
theorem test_mnemonicTable :
    (∀ op : Byte, (mnemonicOf op).isNone = undefinedOpcode op) ∧ opcodeMnemonics.length = 69 ∧
    (opcodeMnemonics.map Prod.fst).Nodup := by
  decide +kernel

/-- R288: the record of push-byte 0x7F. -/
theorem test_trace :
    traceRecord (engine 0 0 [0x08, 0x7F] []) = some ⟨0, some 0x08, some "push-byte", some (.u8 0x7F), .ok⟩ := by
  decide +kernel

/-! ### Witnesses: states and operands that meet the hypotheses of each statement, clause by clause -/

/-- The hypotheses of BlockedWhenTripped; of UnderflowsBelow for each amount it is stated of; of OverflowsBeyond 1 and 8; of OperandPastEndRaises for 9 and 2 bytes, at the first address where the operand does not fit. -/
theorem witness_sharedHypotheses :
    tripped.latch ≠ .active ∧
    (∀ need ∈ [1, 2, 8, 9, 16], (engine 0 0 [] (List.replicate (need - 1) 1)).Sane ∧
      (engine 0 0 [] (List.replicate (need - 1) 1)).latch = .active ∧ (engine 0 0 [] (List.replicate (need - 1) 1)).sp < need) ∧
    ((engine 0 0 [] (List.replicate 64 1)).Sane ∧ (engine 0 0 [] (List.replicate 64 1)).latch = .active ∧
      (engine 0 0 [] (List.replicate 64 1)).stackSize < (engine 0 0 [] (List.replicate 64 1)).sp + 1) ∧
    ((engine 0 0 [] (List.replicate 57 1)).Sane ∧ (engine 0 0 [] (List.replicate 57 1)).latch = .active ∧
      (engine 0 0 [] (List.replicate 57 1)).stackSize < (engine 0 0 [] (List.replicate 57 1)).sp + 8) ∧
    ((engine 248 248 [0xE1] []).runState = .running ∧ f8Opcode 0xE1 = true ∧ 0 ≤ (engine 248 248 [0xE1] []).pc.toInt ∧
      (engine 248 248 [0xE1] []).pc.toInt < (engine 248 248 [0xE1] []).memSize ∧ (engine 248 248 [0xE1] []).byteAt 248 = 0xE1 ∧
      ((engine 248 248 [0xE1] []).memSize : Int) < (engine 248 248 [0xE1] []).pc.toInt + 9) ∧
    ((engine 255 255 [0x08] []).runState = .running ∧ (engine 255 255 [0x08] []).pc.toInt = 255 ∧
      (engine 255 255 [0x08] []).byteAt 255 = 0x08 ∧ ((engine 255 255 [0x08] []).memSize : Int) < 255 + 2) := by
  unfold State.Sane; decide +kernel

/-- Bytes that decode, with a rest. -/
theorem witness_EncodeInvertsDecode :
    decode [0x08, 0x7F, 0x00] = .ok (.pushByte 0x7F, [0x00]) := by
  decide +kernel

/-- One instruction of each length. -/
theorem witness_LengthIsFixedByOpcode :
    decode [0x08, 0x7F] = .ok (.pushByte 0x7F, []) ∧ decode [0x0C] = .ok (.popByte, []) ∧
    decode [0x09, 1, 0, 0, 0, 0, 0, 0, 0] = .ok (.pushInt 1, []) := by
  decide +kernel

/-- An undefined opcode at the first and at the last address. -/
theorem witness_UndefinedOpcodesHalt :
    ((engine 0 0 [0x01] []).runState = .running ∧ 0 ≤ (engine 0 0 [0x01] []).pc.toInt ∧ (engine 0 0 [0x01] []).pc.toInt < (engine 0 0 [0x01] []).memSize ∧
      undefinedOpcode ((engine 0 0 [0x01] []).byteAt (engine 0 0 [0x01] []).pc.toInt.toNat) = true) ∧
    ((engine 255 255 [0x01] []).runState = .running ∧ 0 ≤ (engine 255 255 [0x01] []).pc.toInt ∧ (engine 255 255 [0x01] []).pc.toInt < (engine 255 255 [0x01] []).memSize ∧
      undefinedOpcode ((engine 255 255 [0x01] []).byteAt (engine 255 255 [0x01] []).pc.toInt.toNat) = true) := by
  decide +kernel

/-- A 9-byte instruction that ends where Memory ends, and a 1-byte one in the last byte; and fetches that decode them. -/
theorem witness_StepRunsDecodedInstruction :
    ((engine 247 247 [0xE1, 5, 0, 0, 0, 0, 0, 0, 0] []).runState = .running ∧ InstrAtPC (.jmp 5) (engine 247 247 [0xE1, 5, 0, 0, 0, 0, 0, 0, 0] [])) ∧
    ((engine 255 255 [0x0C] []).runState = .running ∧ InstrAtPC .popByte (engine 255 255 [0x0C] [])) ∧
    fetch (engine 247 247 [0xE1, 5, 0, 0, 0, 0, 0, 0, 0] []) = .ok (.jmp 5) ∧
    fetch (engine 255 255 [0x0C] []) = .ok .popByte := by
  unfold InstrAtPC; decide +kernel

/-- PC one below and one past Memory; the operands that extend past its end are in witness_sharedHypotheses. -/
theorem witness_FetchPastMemoryHalts :
    ((engine (-1) 0 [] []).runState = .running ∧ (engine (-1) 0 [] []).pc.toInt < 0) ∧
    (engine 256 0 [] []).runState = .running ∧ (engine 256 0 [] []).memSize ≤ (engine 256 0 [] []).pc.toInt := by
  decide +kernel

/-- The least and the greatest sizes. -/
theorem witness_ConstructLeavesResetState :
    ((0 : Nat) ≤ 0 ∧ (0 : Nat) ≤ 2 ^ 63 - 1) ∧ ((2 ^ 63 - 1 : Nat) ≤ 2 ^ 63 - 1) := by
  decide +kernel

/-- V-H4. -/
theorem witness_ConstructRefusesInvalidSizes :
    (State.initial 0 0 true).memSize = 0 ∧ (State.initial 0 0 true).runState = .running := by
  decide +kernel

/-- A program of M bytes and one of M + 1. -/
theorem witness_LoadCopiesFromAddressZero :
    (engine 0 0 [] []).Sane ∧ (List.replicate 256 (1 : Byte)).length ≤ (engine 0 0 [] []).memSize ∧
    (engine 0 0 [] []).memSize < (List.replicate 257 (1 : Byte)).length := by
  unfold State.Sane; decide +kernel

/-- PC one past Memory and one below. -/
theorem witness_SetPCIsUnchecked :
    (engine 0 0 [] []).runState = .running ∧ ((engine 0 0 [] []).memSize : Int) ≤ (256 : Word).toInt ∧ (-1 : Word).toInt < 0 := by
  decide +kernel

/-- A halted engine. -/
theorem witness_HostStepResponds :
    State.runState ({ engine 5 0 [] [] with runState := .haltedClean } : State) ≠ .running := by
  decide +kernel

/-- A Run that answers after one step, in both directions. -/
theorem witness_RunRespondsWithFinalError :
    hostRun 1 (engine 5 0 [] []) = some (({ engine 5 0 [] [] with runState := .haltedClean } : State), none) ∧
    stepState^[1] (engine 5 0 [] []) = ({ engine 5 0 [] [] with runState := .haltedClean } : State) ∧ State.runState ({ engine 5 0 [] [] with runState := .haltedClean } : State) ≠ .running ∧ 1 ≤ 1 := by
  decide +kernel

/-- V-H9. -/
theorem witness_JumpToItselfNeverResponds :
    (engine 0 0 [0xE1] []).runState = .running ∧ InstrAtPC (.jmp (engine 0 0 [0xE1] []).pc) (engine 0 0 [0xE1] []) := by
  unfold InstrAtPC; decide +kernel

/-- V-M1, V-M2, V-M3: the last address that is in bounds, and the first on each side that is not. -/
theorem witness_MemReadIsLittleEndian :
    ((0 : Int) ≤ 248 ∧ (248 : Int) + (8 : Nat) ≤ (engine 0 0 [] []).memSize) ∧ ((engine 0 0 [] []).memSize : Int) < 249 + (8 : Nat) ∧ (-1 : Int) < 0 := by
  decide +kernel

/-- The same addresses, in a sane state. -/
theorem witness_MemWriteIsAllOrNothing :
    (engine 0 0 [] []).Sane ∧ ((0 : Int) ≤ 248 ∧ (248 : Int) + (8 : Nat) ≤ (engine 0 0 [] []).memSize) ∧
    ((engine 0 0 [] []).memSize : Int) < 249 + (8 : Nat) ∧ (-1 : Int) < 0 := by
  unfold State.Sane; decide +kernel

/-- Two memories in canonical form that read alike. -/
theorem witness_CanonicalMemoriesAreExtensional :
    Memory.wf 256 [(0, 1)] = true ∧ Memory.wf 1 [(0, 1)] = true ∧
    ∀ x, Memory.read [(0, 1)] x = Memory.read [(0, 1)] x :=
  ⟨by decide, by decide, fun _ => rfl⟩

/-- Each clause at its boundary: 57 + 8 > 64 and 56 + 8 = 64. -/
theorem witness_PushUnitRule :
    (tripped.Sane ∧ tripped.latch ≠ .active) ∧
    ((engine 0 0 [] (List.replicate 57 1)).Sane ∧ (engine 0 0 [] (List.replicate 57 1)).latch = .active ∧
      (engine 0 0 [] (List.replicate 57 1)).stackSize < (engine 0 0 [] (List.replicate 57 1)).sp + 8) ∧
    ((engine 0 0 [] (List.replicate 56 1)).Sane ∧ (engine 0 0 [] (List.replicate 56 1)).latch = .active ∧
      (engine 0 0 [] (List.replicate 56 1)).sp + 8 ≤ (engine 0 0 [] (List.replicate 56 1)).stackSize) := by
  unfold State.Sane; decide +kernel

/-- Each clause at its boundary: SP = 7 and SP = 8. -/
theorem witness_PopUnitRule :
    (tripped.Sane ∧ tripped.latch ≠ .active) ∧
    ((engine 0 0 [] (List.replicate 7 1)).Sane ∧ (engine 0 0 [] (List.replicate 7 1)).latch = .active ∧
      (engine 0 0 [] (List.replicate 7 1)).sp < 8) ∧
    ((engine 0 0 [] (int8 5)).Sane ∧ (engine 0 0 [] (int8 5)).latch = .active ∧
      8 ≤ (engine 0 0 [] (int8 5)).sp ∧
      5 < 256 ^ 8 ∧
      Holds (engine 0 0 [] (int8 5)) ((engine 0 0 [] (int8 5)).memSize - (engine 0 0 [] (int8 5)).stackSize + ((engine 0 0 [] (int8 5)).sp - 8)) 8 5) := by
  unfold State.Sane Holds; decide +kernel

/-- V-M12, V-M11, V-M10: slot −1, slot 57 and slot 56 of the window. -/
theorem witness_PeekUnitRule :
    (tripped.Sane ∧ tripped.latch ≠ .active) ∧
    ((engine 0 0 [] (List.replicate 8 1)).Sane ∧ (engine 0 0 [] (List.replicate 8 1)).latch = .active ∧
      (engine 0 0 [] (List.replicate 8 1)).sp + (-9 : Int) < 0) ∧
    ((engine 0 0 [] []).Sane ∧ (engine 0 0 [] []).latch = .active ∧
      ((engine 0 0 [] []).stackSize : Int) < (engine 0 0 [] []).sp + 57 + (8 : Nat)) ∧
    ((engine 0 248 (int8 5) []).Sane ∧ (engine 0 248 (int8 5) []).latch = .active ∧
      0 ≤ ((engine 0 248 (int8 5) []).sp : Int) + 56 ∧
      (engine 0 248 (int8 5) []).sp + (56 : Int) + (8 : Nat) ≤ (engine 0 248 (int8 5) []).stackSize ∧
      5 < 256 ^ 8 ∧
      Holds (engine 0 248 (int8 5) []) ((engine 0 248 (int8 5) []).memSize - (engine 0 248 (int8 5) []).stackSize + ((engine 0 248 (int8 5) []).sp + (56 : Int)).toNat) 8 5) := by
  unfold State.Sane Holds; decide +kernel

/-- The same slots. -/
theorem witness_PokeUnitRule :
    (tripped.Sane ∧ tripped.latch ≠ .active) ∧
    ((engine 0 0 [] (List.replicate 8 1)).Sane ∧ (engine 0 0 [] (List.replicate 8 1)).latch = .active ∧
      (engine 0 0 [] (List.replicate 8 1)).sp + (-9 : Int) < 0) ∧
    ((engine 0 0 [] []).Sane ∧ (engine 0 0 [] []).latch = .active ∧
      ((engine 0 0 [] []).stackSize : Int) < (engine 0 0 [] []).sp + 57 + (8 : Nat)) ∧
    ((engine 0 0 [] []).Sane ∧ (engine 0 0 [] []).latch = .active ∧
      0 ≤ ((engine 0 0 [] []).sp : Int) + 56 ∧
      (engine 0 0 [] []).sp + (56 : Int) + (8 : Nat) ≤ (engine 0 0 [] []).stackSize) := by
  unfold State.Sane; decide +kernel

/-- A push that succeeds. -/
theorem witness_PushPopRoundTrip :
    (engine 0 0 [] []).Sane ∧ 5 < 256 ^ 8 ∧ push 8 5 (engine 0 0 [] []) = .ok () (engine 0 0 [] (int8 5)) := by
  unfold State.Sane; decide +kernel

/-- The last push that fits, of each width; the other clauses are in witness_sharedHypotheses. -/
theorem witness_PushStoresImmediate :
    ((0x0A, Instr.pushFloat 5) : Byte × Instr) ∈ [(0x09, .pushInt 5), (0x0A, .pushFloat 5)] ∧
    ((engine 0 0 [] (List.replicate 63 1)).Sane ∧ (engine 0 0 [] (List.replicate 63 1)).latch = .active ∧
      (engine 0 0 [] (List.replicate 63 1)).sp + 1 ≤ (engine 0 0 [] (List.replicate 63 1)).stackSize) ∧
    ((engine 0 0 [] (List.replicate 56 1)).Sane ∧ (engine 0 0 [] (List.replicate 56 1)).latch = .active ∧
      (engine 0 0 [] (List.replicate 56 1)).sp + 8 ≤ (engine 0 0 [] (List.replicate 56 1)).stackSize) := by
  unfold State.Sane; decide +kernel

/-- Exactly the bytes that are popped, of each width. -/
theorem witness_PopDiscardsTop :
    ((0x0D, .popInt, 8) : Byte × Instr × Nat) ∈
      [(0x0C, .popByte, 1), (0x0D, .popInt, 8), (0x0E, .popFloat, 8)] ∧
    ((engine 0 0 [] [1]).Sane ∧ (engine 0 0 [] [1]).latch = .active ∧
      1 ≤ (engine 0 0 [] [1]).sp) ∧
    ((engine 0 0 [] (int8 5)).Sane ∧ (engine 0 0 [] (int8 5)).latch = .active ∧
      8 ≤ (engine 0 0 [] (int8 5)).sp) := by
  unfold State.Sane; decide +kernel

/-- Addresses 248, 249 and −1 for eight bytes. -/
theorem witness_GetReadsPoppedAddress :
    ((0x11, .getInt, 8) : Byte × Instr × Nat) ∈
      [(0x10, .getByte, 1), (0x11, .getInt, 8), (0x12, .getFloat, 8)] ∧
    ((engine 0 0 [] (int8 249)).Sane ∧ (engine 0 0 [] (int8 249)).latch = .active ∧
      8 ≤ (engine 0 0 [] (int8 249)).sp ∧
      Holds (engine 0 0 [] (int8 249)) ((engine 0 0 [] (int8 249)).slot ((engine 0 0 [] (int8 249)).sp - 8)) 8 (249 : Word).toNat ∧
      ((engine 0 0 [] (int8 249)).memSize : Int) < (249 : Word).toInt + (8 : Nat)) ∧
    ((engine 0 0 [] (int8 (-1))).Sane ∧ (engine 0 0 [] (int8 (-1))).latch = .active ∧
      8 ≤ (engine 0 0 [] (int8 (-1))).sp ∧
      Holds (engine 0 0 [] (int8 (-1))) ((engine 0 0 [] (int8 (-1))).slot ((engine 0 0 [] (int8 (-1))).sp - 8)) 8 ((-1) : Word).toNat ∧
      (-1 : Word).toInt < 0) ∧
    ((engine 0 248 [] (int8 248)).Sane ∧ (engine 0 248 [] (int8 248)).latch = .active ∧
      8 ≤ (engine 0 248 [] (int8 248)).sp ∧
      Holds (engine 0 248 [] (int8 248)) ((engine 0 248 [] (int8 248)).slot ((engine 0 248 [] (int8 248)).sp - 8)) 8 (248 : Word).toNat ∧
      0 ≤ (248 : Word).toInt ∧
      (248 : Word).toInt + (8 : Nat) ≤ (engine 0 248 [] (int8 248)).memSize ∧
      Holds (engine 0 248 [] (int8 248)) (248 : Word).toInt.toNat 8 0) := by
  unfold State.Sane Holds; decide +kernel

/-- The same addresses, with a value beneath. -/
theorem witness_PutWritesPoppedAddress :
    ((0x19, .putInt, 8) : Byte × Instr × Nat) ∈
      [(0x18, .putByte, 1), (0x19, .putInt, 8), (0x1A, .putFloat, 8)] ∧
    ((engine 0 0 [] (int8 5 ++ int8 249)).Sane ∧ (engine 0 0 [] (int8 5 ++ int8 249)).latch = .active ∧
      8 + 8 ≤ (engine 0 0 [] (int8 5 ++ int8 249)).sp ∧
      Holds (engine 0 0 [] (int8 5 ++ int8 249)) ((engine 0 0 [] (int8 5 ++ int8 249)).slot ((engine 0 0 [] (int8 5 ++ int8 249)).sp - 8)) 8 (249 : Word).toNat ∧
      Holds (engine 0 0 [] (int8 5 ++ int8 249)) ((engine 0 0 [] (int8 5 ++ int8 249)).slot ((engine 0 0 [] (int8 5 ++ int8 249)).sp - 8 - 8)) 8 5 ∧
      ((engine 0 0 [] (int8 5 ++ int8 249)).memSize : Int) < (249 : Word).toInt + (8 : Nat)) ∧
    ((engine 0 0 [] (int8 5 ++ int8 (-1))).Sane ∧ (engine 0 0 [] (int8 5 ++ int8 (-1))).latch = .active ∧
      8 + 8 ≤ (engine 0 0 [] (int8 5 ++ int8 (-1))).sp ∧
      Holds (engine 0 0 [] (int8 5 ++ int8 (-1))) ((engine 0 0 [] (int8 5 ++ int8 (-1))).slot ((engine 0 0 [] (int8 5 ++ int8 (-1))).sp - 8)) 8 ((-1) : Word).toNat ∧
      Holds (engine 0 0 [] (int8 5 ++ int8 (-1))) ((engine 0 0 [] (int8 5 ++ int8 (-1))).slot ((engine 0 0 [] (int8 5 ++ int8 (-1))).sp - 8 - 8)) 8 5 ∧
      (-1 : Word).toInt < 0) ∧
    ((engine 0 0 [] (int8 5 ++ int8 248)).Sane ∧ (engine 0 0 [] (int8 5 ++ int8 248)).latch = .active ∧
      8 + 8 ≤ (engine 0 0 [] (int8 5 ++ int8 248)).sp ∧
      Holds (engine 0 0 [] (int8 5 ++ int8 248)) ((engine 0 0 [] (int8 5 ++ int8 248)).slot ((engine 0 0 [] (int8 5 ++ int8 248)).sp - 8)) 8 (248 : Word).toNat ∧
      Holds (engine 0 0 [] (int8 5 ++ int8 248)) ((engine 0 0 [] (int8 5 ++ int8 248)).slot ((engine 0 0 [] (int8 5 ++ int8 248)).sp - 8 - 8)) 8 5 ∧
      0 ≤ (248 : Word).toInt ∧
      (248 : Word).toInt + (8 : Nat) ≤ (engine 0 0 [] (int8 5 ++ int8 248)).memSize) := by
  unfold State.Sane Holds; decide +kernel

/-- Addresses 249 and −1; and address 248 with LATCH tripped, with 57 bytes and with 56 bytes on the Stack. -/
theorem witness_GetReadsLiteralAddress :
    ((0x21, .getIntAddress 248, 8) : Byte × Instr × Nat) ∈
      [(0x20, .getByteAddress 248, 1), (0x21, .getIntAddress 248, 8), (0x22, .getFloatAddress 248, 8)] ∧
    (tripped.memSize : Int) < (249 : Word).toInt + (8 : Nat) ∧ (-1 : Word).toInt < 0 ∧
    (0 ≤ (248 : Word).toInt ∧ (248 : Word).toInt + (8 : Nat) ≤ tripped.memSize ∧ tripped.latch ≠ .active) ∧
    ((engine 0 0 [] (List.replicate 57 1)).Sane ∧ (engine 0 0 [] (List.replicate 57 1)).latch = .active ∧
      (engine 0 0 [] (List.replicate 57 1)).stackSize < (engine 0 0 [] (List.replicate 57 1)).sp + 8 ∧
      (248 : Word).toInt + (8 : Nat) ≤ (engine 0 0 [] (List.replicate 57 1)).memSize) ∧
    ((engine 0 0 [] (List.replicate 56 1)).Sane ∧ (engine 0 0 [] (List.replicate 56 1)).latch = .active ∧
      (engine 0 0 [] (List.replicate 56 1)).sp + 8 ≤ (engine 0 0 [] (List.replicate 56 1)).stackSize ∧
      (248 : Word).toInt + (8 : Nat) ≤ (engine 0 0 [] (List.replicate 56 1)).memSize ∧
      Holds (engine 0 0 [] (List.replicate 56 1)) (248 : Word).toInt.toNat 8 0) := by
  unfold State.Sane Holds; decide +kernel

/-- Addresses 249, −1 and 248. -/
theorem witness_PutWritesLiteralAddress :
    ((0x29, .putIntAddress 248, 8) : Byte × Instr × Nat) ∈
      [(0x28, .putByteAddress 248, 1), (0x29, .putIntAddress 248, 8), (0x2A, .putFloatAddress 248, 8)] ∧
    ((engine 0 0 [] (int8 5)).Sane ∧ (engine 0 0 [] (int8 5)).latch = .active ∧
      8 ≤ (engine 0 0 [] (int8 5)).sp ∧
      Holds (engine 0 0 [] (int8 5)) ((engine 0 0 [] (int8 5)).slot ((engine 0 0 [] (int8 5)).sp - 8)) 8 5 ∧
      ((engine 0 0 [] (int8 5)).memSize : Int) < (249 : Word).toInt + (8 : Nat) ∧
      (-1 : Word).toInt < 0 ∧
      0 ≤ (248 : Word).toInt ∧
      (248 : Word).toInt + (8 : Nat) ≤ (engine 0 0 [] (int8 5)).memSize) := by
  unfold State.Sane Holds; decide +kernel

/-- Slots −1, 57 and 56 of the window, and a slot inside it with no room to push. -/
theorem witness_GetCopiesStackSlot :
    ((0x31, .getIntStack 56, 8) : Byte × Instr × Nat) ∈
      [(0x30, .getByteStack 56, 1), (0x31, .getIntStack 56, 8), (0x32, .getFloatStack 56, 8)] ∧
    ((engine 0 0 [] []).Sane ∧ (engine 0 0 [] []).latch = .active ∧
      (engine 0 0 [] []).sp + (-1 : Word).toInt < 0 ∧
      ((engine 0 0 [] []).stackSize : Int) < (engine 0 0 [] []).sp + (57 : Word).toInt + (8 : Nat) ∧
      0 ≤ (engine 0 0 [] []).sp + (56 : Word).toInt ∧
      (engine 0 0 [] []).sp + (56 : Word).toInt + (8 : Nat) ≤ (engine 0 0 [] []).stackSize ∧
      (engine 0 0 [] []).sp + 8 ≤ (engine 0 0 [] []).stackSize ∧
      Holds (engine 0 0 [] []) (slotAddress (engine 0 0 [] []) ((engine 0 0 [] []).sp + (56 : Word).toInt)).toNat 8 0) ∧
    ((engine 0 0 [] (List.replicate 57 1)).Sane ∧ (engine 0 0 [] (List.replicate 57 1)).latch = .active ∧
      0 ≤ (engine 0 0 [] (List.replicate 57 1)).sp + (-8 : Word).toInt ∧
      (engine 0 0 [] (List.replicate 57 1)).sp + (-8 : Word).toInt + (8 : Nat) ≤ (engine 0 0 [] (List.replicate 57 1)).stackSize ∧
      (engine 0 0 [] (List.replicate 57 1)).stackSize < (engine 0 0 [] (List.replicate 57 1)).sp + 8) := by
  unfold State.Sane Holds; decide +kernel

/-- Offsets −9, 49 and 48 from SP after the pop, 8: slots −1, 57 and 56. -/
theorem witness_PutWritesStackSlot :
    ((0x39, .putIntStack 48, 8) : Byte × Instr × Nat) ∈
      [(0x38, .putByteStack 48, 1), (0x39, .putIntStack 48, 8), (0x3A, .putFloatStack 48, 8)] ∧
    ((engine 0 0 [] (int8 7 ++ int8 5)).Sane ∧ (engine 0 0 [] (int8 7 ++ int8 5)).latch = .active ∧
      (engine 0 0 [] (int8 7 ++ int8 5)).sp = 8 + 8 ∧
      Holds (engine 0 0 [] (int8 7 ++ int8 5)) ((engine 0 0 [] (int8 7 ++ int8 5)).slot 8) 8 5 ∧
      ((8 : Nat) : Int) + (-9 : Word).toInt < 0 ∧
      ((engine 0 0 [] (int8 7 ++ int8 5)).stackSize : Int) < (8 : Nat) + (49 : Word).toInt + (8 : Nat) ∧
      0 ≤ ((8 : Nat) : Int) + (48 : Word).toInt ∧
      ((8 : Nat) : Int) + (48 : Word).toInt + (8 : Nat) ≤ (engine 0 0 [] (int8 7 ++ int8 5)).stackSize) := by
  unfold State.Sane Holds; decide +kernel

/-- V-A1. -/
theorem witness_ByteArithmeticWraps :
    ((0x40, .addByte, fun a b => a + b) : Byte × Instr × (Int → Int → Int)) ∈
      [(0x40, .addByte, fun a b => a + b), (0x44, .subByte, fun a b => a - b), (0x48, .mulByte, fun a b => a * b)] ∧
    ((engine 0 0 [] [200, 100]).Sane ∧ (engine 0 0 [] [200, 100]).latch = .active ∧
      2 ≤ (engine 0 0 [] [200, 100]).sp ∧
      Holds (engine 0 0 [] [200, 100]) ((engine 0 0 [] [200, 100]).slot ((engine 0 0 [] [200, 100]).sp - 2)) 1 (200 : Byte).toNat ∧
      Holds (engine 0 0 [] [200, 100]) ((engine 0 0 [] [200, 100]).slot ((engine 0 0 [] [200, 100]).sp - 1)) 1 (100 : Byte).toNat) :=
  ⟨by simp, by unfold State.Sane Holds; decide +kernel⟩

/-- V-A6. -/
theorem witness_IntArithmeticWraps :
    ((0x41, .addInt, fun a b => a + b) : Byte × Instr × (Int → Int → Int)) ∈
      [(0x41, .addInt, fun a b => a + b), (0x45, .subInt, fun a b => a - b), (0x49, .mulInt, fun a b => a * b)] ∧
    ((engine 0 0 [] (int8 (-9223372036854775808) ++ int8 1)).Sane ∧ (engine 0 0 [] (int8 (-9223372036854775808) ++ int8 1)).latch = .active ∧
      16 ≤ (engine 0 0 [] (int8 (-9223372036854775808) ++ int8 1)).sp ∧
      Holds (engine 0 0 [] (int8 (-9223372036854775808) ++ int8 1)) ((engine 0 0 [] (int8 (-9223372036854775808) ++ int8 1)).slot ((engine 0 0 [] (int8 (-9223372036854775808) ++ int8 1)).sp - 16)) 8 ((-9223372036854775808) : Word).toNat ∧
      Holds (engine 0 0 [] (int8 (-9223372036854775808) ++ int8 1)) ((engine 0 0 [] (int8 (-9223372036854775808) ++ int8 1)).slot ((engine 0 0 [] (int8 (-9223372036854775808) ++ int8 1)).sp - 8)) 8 (1 : Word).toNat) :=
  ⟨by simp, by unfold State.Sane Holds; decide +kernel⟩

/-- V-A18 and V-A9. -/
theorem witness_ByteDivision :
    ((engine 0 0 [] [5, 0]).Sane ∧ (engine 0 0 [] [5, 0]).latch = .active ∧
      2 ≤ (engine 0 0 [] [5, 0]).sp ∧
      Holds (engine 0 0 [] [5, 0]) ((engine 0 0 [] [5, 0]).slot ((engine 0 0 [] [5, 0]).sp - 2)) 1 (5 : Byte).toNat ∧
      Holds (engine 0 0 [] [5, 0]) ((engine 0 0 [] [5, 0]).slot ((engine 0 0 [] [5, 0]).sp - 1)) 1 (0 : Byte).toNat ∧
      (0 : Byte) = 0) ∧
    ((engine 0 0 [] [7, 2]).Sane ∧ (engine 0 0 [] [7, 2]).latch = .active ∧
      2 ≤ (engine 0 0 [] [7, 2]).sp ∧
      Holds (engine 0 0 [] [7, 2]) ((engine 0 0 [] [7, 2]).slot ((engine 0 0 [] [7, 2]).sp - 2)) 1 (7 : Byte).toNat ∧
      Holds (engine 0 0 [] [7, 2]) ((engine 0 0 [] [7, 2]).slot ((engine 0 0 [] [7, 2]).sp - 1)) 1 (2 : Byte).toNat ∧
      (2 : Byte) ≠ 0) := by
  unfold State.Sane Holds; decide +kernel

/-- V-A17, V-A16 and V-A13. -/
theorem witness_IntDivision :
    ((engine 0 0 [] (int8 7 ++ int8 0)).Sane ∧ (engine 0 0 [] (int8 7 ++ int8 0)).latch = .active ∧
      16 ≤ (engine 0 0 [] (int8 7 ++ int8 0)).sp ∧
      Holds (engine 0 0 [] (int8 7 ++ int8 0)) ((engine 0 0 [] (int8 7 ++ int8 0)).slot ((engine 0 0 [] (int8 7 ++ int8 0)).sp - 16)) 8 (7 : Word).toNat ∧
      Holds (engine 0 0 [] (int8 7 ++ int8 0)) ((engine 0 0 [] (int8 7 ++ int8 0)).slot ((engine 0 0 [] (int8 7 ++ int8 0)).sp - 8)) 8 (0 : Word).toNat ∧
      (0 : Word) = 0) ∧
    ((engine 0 0 [] (int8 (-9223372036854775808) ++ int8 (-1))).Sane ∧ (engine 0 0 [] (int8 (-9223372036854775808) ++ int8 (-1))).latch = .active ∧
      16 ≤ (engine 0 0 [] (int8 (-9223372036854775808) ++ int8 (-1))).sp ∧
      Holds (engine 0 0 [] (int8 (-9223372036854775808) ++ int8 (-1))) ((engine 0 0 [] (int8 (-9223372036854775808) ++ int8 (-1))).slot ((engine 0 0 [] (int8 (-9223372036854775808) ++ int8 (-1))).sp - 16)) 8 ((-9223372036854775808) : Word).toNat ∧
      Holds (engine 0 0 [] (int8 (-9223372036854775808) ++ int8 (-1))) ((engine 0 0 [] (int8 (-9223372036854775808) ++ int8 (-1))).slot ((engine 0 0 [] (int8 (-9223372036854775808) ++ int8 (-1))).sp - 8)) 8 ((-1) : Word).toNat ∧
      ((-1) : Word) ≠ 0 ∧
      9223372036854775808 = ((-9223372036854775808) : Word).toInt.natAbs / ((-1) : Word).toInt.natAbs ∧
      (9223372036854775808 : Int) = (if (0 ≤ ((-9223372036854775808) : Word).toInt ↔ 0 ≤ ((-1) : Word).toInt) then ((9223372036854775808 : Nat) : Int) else -((9223372036854775808 : Nat) : Int))) ∧
    ((engine 0 0 [] (int8 (-7) ++ int8 2)).Sane ∧ (engine 0 0 [] (int8 (-7) ++ int8 2)).latch = .active ∧
      16 ≤ (engine 0 0 [] (int8 (-7) ++ int8 2)).sp ∧
      Holds (engine 0 0 [] (int8 (-7) ++ int8 2)) ((engine 0 0 [] (int8 (-7) ++ int8 2)).slot ((engine 0 0 [] (int8 (-7) ++ int8 2)).sp - 16)) 8 ((-7) : Word).toNat ∧
      Holds (engine 0 0 [] (int8 (-7) ++ int8 2)) ((engine 0 0 [] (int8 (-7) ++ int8 2)).slot ((engine 0 0 [] (int8 (-7) ++ int8 2)).sp - 8)) 8 (2 : Word).toNat ∧
      (2 : Word) ≠ 0 ∧
      3 = ((-7) : Word).toInt.natAbs / (2 : Word).toInt.natAbs ∧
      (-3 : Int) = (if (0 ≤ ((-7) : Word).toInt ↔ 0 ≤ (2 : Word).toInt) then ((3 : Nat) : Int) else -((3 : Nat) : Int))) := by
  unfold State.Sane Holds; decide +kernel

/-- Two floats on the Stack. -/
theorem witness_FloatArithmeticPushesResult :
    ((0x42, .addFloat, fadd) : Byte × Instr × (Word → Word → Word)) ∈
      [(0x42, .addFloat, fadd), (0x46, .subFloat, fsub), (0x4A, .mulFloat, fmul), (0x4E, .divFloat, fdiv)] ∧
    ((engine 0 0 [] (int8 0x3FF0000000000000 ++ int8 0x4008000000000000)).Sane ∧ (engine 0 0 [] (int8 0x3FF0000000000000 ++ int8 0x4008000000000000)).latch = .active ∧
      16 ≤ (engine 0 0 [] (int8 0x3FF0000000000000 ++ int8 0x4008000000000000)).sp ∧
      Holds (engine 0 0 [] (int8 0x3FF0000000000000 ++ int8 0x4008000000000000)) ((engine 0 0 [] (int8 0x3FF0000000000000 ++ int8 0x4008000000000000)).slot ((engine 0 0 [] (int8 0x3FF0000000000000 ++ int8 0x4008000000000000)).sp - 16)) 8 (0x3FF0000000000000 : Word).toNat ∧
      Holds (engine 0 0 [] (int8 0x3FF0000000000000 ++ int8 0x4008000000000000)) ((engine 0 0 [] (int8 0x3FF0000000000000 ++ int8 0x4008000000000000)).slot ((engine 0 0 [] (int8 0x3FF0000000000000 ++ int8 0x4008000000000000)).sp - 8)) 8 (0x4008000000000000 : Word).toNat) :=
  ⟨by simp, by unfold State.Sane Holds; decide +kernel⟩

/-- A NaN; finite operands whose sum or difference is 0; infinities; zero and nonzero factors and divisors. -/
theorem witness_FloatSpecialValues :
    IsNaNPattern 0x7FF8000000000000 ∧
    (isFinite 0x3FF0000000000000 ∧ isFinite 0xBFF0000000000000 ∧ floatRat 0x3FF0000000000000 + floatRat 0xBFF0000000000000 = 0 ∧
      floatRat 0x3FF0000000000000 - floatRat 0x3FF0000000000000 = 0) ∧
    (posInf = posInf ∨ posInf = negInf) ∧ (negInf = posInf ∨ negInf = negInf) ∧
    (isFinite 0 ∧ floatRat 0 * floatRat 0x3FF0000000000000 = 0 ∧ floatRat 0 = 0 ∧ floatRat 0x3FF0000000000000 ≠ 0) := by
  unfold IsNaNPattern isFinite; decide +kernel

/-- 1.0 and 3.0. -/
theorem witness_FloatRoundsToNearestEven :
    isFinite 0x3FF0000000000000 ∧ isFinite 0x4008000000000000 ∧ floatRat 0x3FF0000000000000 + floatRat 0x4008000000000000 ≠ 0 ∧ floatRat 0x3FF0000000000000 - floatRat 0x4008000000000000 ≠ 0 ∧
    floatRat 0x3FF0000000000000 * floatRat 0x4008000000000000 ≠ 0 ∧ floatRat 0x4008000000000000 ≠ 0 ∧ floatRat 0x3FF0000000000000 / floatRat 0x4008000000000000 ≠ 0 := by
  unfold isFinite; decide +kernel

/-- V-C4. -/
theorem witness_ByteComparisons :
    ((0x68, .greaterByte, fun a b => decide (a > b)) : Byte × Instr × (Nat → Nat → Bool)) ∈
      [(0x60, .equalByte, fun a b => decide (a = b)), (0x64, .unequalByte, fun a b => decide (a ≠ b)),
       (0x68, .greaterByte, fun a b => decide (a > b)), (0x6C, .smallerByte, fun a b => decide (a < b))] ∧
    ((engine 0 0 [] [255, 1]).Sane ∧ (engine 0 0 [] [255, 1]).latch = .active ∧
      2 ≤ (engine 0 0 [] [255, 1]).sp ∧
      Holds (engine 0 0 [] [255, 1]) ((engine 0 0 [] [255, 1]).slot ((engine 0 0 [] [255, 1]).sp - 2)) 1 (255 : Byte).toNat ∧
      Holds (engine 0 0 [] [255, 1]) ((engine 0 0 [] [255, 1]).slot ((engine 0 0 [] [255, 1]).sp - 1)) 1 (1 : Byte).toNat) :=
  ⟨by simp, by unfold State.Sane Holds; decide +kernel⟩

/-- V-C5. -/
theorem witness_IntComparisons :
    ((0x69, .greaterInt, fun a b => decide (a > b)) : Byte × Instr × (Int → Int → Bool)) ∈
      [(0x61, .equalInt, fun a b => decide (a = b)), (0x65, .unequalInt, fun a b => decide (a ≠ b)),
       (0x69, .greaterInt, fun a b => decide (a > b)), (0x6D, .smallerInt, fun a b => decide (a < b))] ∧
    ((engine 0 0 [] (int8 (-1) ++ int8 1)).Sane ∧ (engine 0 0 [] (int8 (-1) ++ int8 1)).latch = .active ∧
      16 ≤ (engine 0 0 [] (int8 (-1) ++ int8 1)).sp ∧
      Holds (engine 0 0 [] (int8 (-1) ++ int8 1)) ((engine 0 0 [] (int8 (-1) ++ int8 1)).slot ((engine 0 0 [] (int8 (-1) ++ int8 1)).sp - 16)) 8 ((-1) : Word).toNat ∧
      Holds (engine 0 0 [] (int8 (-1) ++ int8 1)) ((engine 0 0 [] (int8 (-1) ++ int8 1)).slot ((engine 0 0 [] (int8 (-1) ++ int8 1)).sp - 8)) 8 (1 : Word).toNat) :=
  ⟨by simp, by unfold State.Sane Holds; decide +kernel⟩

/-- V-C3 and V-C10: related zeros, and an unrelated NaN. -/
theorem witness_FloatComparisons :
    ((0x62, .equalFloat, fun a b => ¬ IsNaNPattern a ∧ ¬ IsNaNPattern b ∧ floatOrder a = floatOrder b) : Byte × Instr × (Word → Word → Prop)) ∈
      [(0x62, .equalFloat, fun a b => ¬ IsNaNPattern a ∧ ¬ IsNaNPattern b ∧ floatOrder a = floatOrder b),
       (0x66, .unequalFloat, fun a b => ¬ (¬ IsNaNPattern a ∧ ¬ IsNaNPattern b ∧ floatOrder a = floatOrder b)),
       (0x6A, .greaterFloat, fun a b => ¬ IsNaNPattern a ∧ ¬ IsNaNPattern b ∧ floatOrder a > floatOrder b),
       (0x6E, .smallerFloat, fun a b => ¬ IsNaNPattern a ∧ ¬ IsNaNPattern b ∧ floatOrder a < floatOrder b)] ∧
    ((engine 0 0 [] (int8 0 ++ int8 0x8000000000000000)).Sane ∧ (engine 0 0 [] (int8 0 ++ int8 0x8000000000000000)).latch = .active ∧
      16 ≤ (engine 0 0 [] (int8 0 ++ int8 0x8000000000000000)).sp ∧
      Holds (engine 0 0 [] (int8 0 ++ int8 0x8000000000000000)) ((engine 0 0 [] (int8 0 ++ int8 0x8000000000000000)).slot ((engine 0 0 [] (int8 0 ++ int8 0x8000000000000000)).sp - 16)) 8 (0 : Word).toNat ∧
      Holds (engine 0 0 [] (int8 0 ++ int8 0x8000000000000000)) ((engine 0 0 [] (int8 0 ++ int8 0x8000000000000000)).slot ((engine 0 0 [] (int8 0 ++ int8 0x8000000000000000)).sp - 8)) 8 (0x8000000000000000 : Word).toNat ∧
      (¬ IsNaNPattern 0 ∧ ¬ IsNaNPattern 0x8000000000000000 ∧ floatOrder 0 = floatOrder 0x8000000000000000)) ∧
    ((engine 0 0 [] (int8 0x7FF8000000000000 ++ int8 0x7FF8000000000000)).Sane ∧ (engine 0 0 [] (int8 0x7FF8000000000000 ++ int8 0x7FF8000000000000)).latch = .active ∧
      16 ≤ (engine 0 0 [] (int8 0x7FF8000000000000 ++ int8 0x7FF8000000000000)).sp ∧
      Holds (engine 0 0 [] (int8 0x7FF8000000000000 ++ int8 0x7FF8000000000000)) ((engine 0 0 [] (int8 0x7FF8000000000000 ++ int8 0x7FF8000000000000)).slot ((engine 0 0 [] (int8 0x7FF8000000000000 ++ int8 0x7FF8000000000000)).sp - 16)) 8 (0x7FF8000000000000 : Word).toNat ∧
      Holds (engine 0 0 [] (int8 0x7FF8000000000000 ++ int8 0x7FF8000000000000)) ((engine 0 0 [] (int8 0x7FF8000000000000 ++ int8 0x7FF8000000000000)).slot ((engine 0 0 [] (int8 0x7FF8000000000000 ++ int8 0x7FF8000000000000)).sp - 8)) 8 (0x7FF8000000000000 : Word).toNat ∧
      ¬ (¬ IsNaNPattern 0x7FF8000000000000 ∧ ¬ IsNaNPattern 0x7FF8000000000000 ∧ floatOrder 0x7FF8000000000000 = floatOrder 0x7FF8000000000000)) :=
  ⟨by simp, by unfold State.Sane Holds IsNaNPattern; decide +kernel⟩

/-- V-C12, and V-C15 for not. -/
theorem witness_ByteLogic :
    ((0x70, .andByte, and) : Byte × Instr × (Bool → Bool → Bool)) ∈
      [(0x70, .andByte, and), (0x71, .orByte, or), (0x73, .xorByte, xor)] ∧
    ((engine 0 0 [] [0xF0, 0x3C]).Sane ∧ (engine 0 0 [] [0xF0, 0x3C]).latch = .active ∧
      2 ≤ (engine 0 0 [] [0xF0, 0x3C]).sp ∧
      Holds (engine 0 0 [] [0xF0, 0x3C]) ((engine 0 0 [] [0xF0, 0x3C]).slot ((engine 0 0 [] [0xF0, 0x3C]).sp - 2)) 1 (0xF0 : Byte).toNat ∧
      Holds (engine 0 0 [] [0xF0, 0x3C]) ((engine 0 0 [] [0xF0, 0x3C]).slot ((engine 0 0 [] [0xF0, 0x3C]).sp - 1)) 1 (0x3C : Byte).toNat ∧
      (∀ k < 8, (0x30 : Byte).getLsbD k = and ((0xF0 : Byte).getLsbD k) ((0x3C : Byte).getLsbD k))) ∧
    ((engine 0 0 [] [0x0F]).Sane ∧ (engine 0 0 [] [0x0F]).latch = .active ∧
      1 ≤ (engine 0 0 [] [0x0F]).sp ∧
      Holds (engine 0 0 [] [0x0F]) ((engine 0 0 [] [0x0F]).slot ((engine 0 0 [] [0x0F]).sp - 1)) 1 (0x0F : Byte).toNat) :=
  ⟨by simp, by unfold State.Sane Holds; decide +kernel⟩

/-- A zero byte at the last address. -/
theorem witness_EndHaltsCleanly :
    (engine 255 0 [] []).runState = .running ∧ 0 ≤ (engine 255 0 [] []).pc.toInt ∧
    (engine 255 0 [] []).pc.toInt < (engine 255 0 [] []).memSize ∧
    (engine 255 0 [] []).byteAt (engine 255 0 [] []).pc.toInt.toNat = 0x00 := by
  decide +kernel

/-- Targets 255, 256 and −1. -/
theorem witness_ReturnJumpsToPoppedAddress :
    ((engine 0 0 [] (int8 255)).Sane ∧ (engine 0 0 [] (int8 255)).latch = .active ∧
      8 ≤ (engine 0 0 [] (int8 255)).sp ∧
      Holds (engine 0 0 [] (int8 255)) ((engine 0 0 [] (int8 255)).slot ((engine 0 0 [] (int8 255)).sp - 8)) 8 (255 : Word).toNat ∧
      0 ≤ (255 : Word).toInt ∧
      (255 : Word).toInt < (engine 0 0 [] (int8 255)).memSize) ∧
    ((engine 0 0 [] (int8 256)).Sane ∧ (engine 0 0 [] (int8 256)).latch = .active ∧
      8 ≤ (engine 0 0 [] (int8 256)).sp ∧
      Holds (engine 0 0 [] (int8 256)) ((engine 0 0 [] (int8 256)).slot ((engine 0 0 [] (int8 256)).sp - 8)) 8 (256 : Word).toNat ∧
      ((engine 0 0 [] (int8 256)).memSize : Int) ≤ (256 : Word).toInt) ∧
    ((engine 0 0 [] (int8 (-1))).Sane ∧ (engine 0 0 [] (int8 (-1))).latch = .active ∧
      8 ≤ (engine 0 0 [] (int8 (-1))).sp ∧
      Holds (engine 0 0 [] (int8 (-1))) ((engine 0 0 [] (int8 (-1))).slot ((engine 0 0 [] (int8 (-1))).sp - 8)) 8 ((-1) : Word).toNat ∧
      ((-1) : Word).toInt < 0) := by
  unfold State.Sane Holds; decide +kernel

/-- Targets 0, 255, 256 and −1. -/
theorem witness_JumpSetsPC :
    (0 ≤ (0 : Word).toInt ∧ (255 : Word).toInt < (engine 0 0 [] []).memSize) ∧
    ((engine 0 0 [] []).memSize : Int) ≤ (256 : Word).toInt ∧ (-1 : Word).toInt < 0 := by
  decide +kernel

/-- jmpz-int: taken to 255, to 256 and to −1, and not taken. -/
theorem witness_ConditionalJumpsWithStackTarget :
    ((0xE5, .jmpzInt, 8, fun v => v = 0) : Byte × Instr × Nat × (Nat → Prop)) ∈
      [(0xE4, .jmpzByte, 1, fun v => v = 0), (0xE5, .jmpzInt, 8, fun v => v = 0),
       (0xE6, .jmpzFloat, 8, fun v => v = 0 ∨ v = 2 ^ 63),
       (0xEC, .jmpnzByte, 1, fun v => v ≠ 0), (0xED, .jmpnzInt, 8, fun v => v ≠ 0),
       (0xEE, .jmpnzFloat, 8, fun v => v ≠ 0 ∧ v ≠ 2 ^ 63)] ∧
    ((engine 0 0 [] (int8 0 ++ int8 255)).Sane ∧ (engine 0 0 [] (int8 0 ++ int8 255)).latch = .active ∧
      8 + 8 ≤ (engine 0 0 [] (int8 0 ++ int8 255)).sp ∧
      0 < 256 ^ 8 ∧
      Holds (engine 0 0 [] (int8 0 ++ int8 255)) ((engine 0 0 [] (int8 0 ++ int8 255)).slot ((engine 0 0 [] (int8 0 ++ int8 255)).sp - 8)) 8 (255 : Word).toNat ∧
      Holds (engine 0 0 [] (int8 0 ++ int8 255)) ((engine 0 0 [] (int8 0 ++ int8 255)).slot ((engine 0 0 [] (int8 0 ++ int8 255)).sp - 8 - 8)) 8 0 ∧
      0 = 0 ∧
      0 ≤ (255 : Word).toInt ∧
      (255 : Word).toInt < (engine 0 0 [] (int8 0 ++ int8 255)).memSize) ∧
    ((engine 0 0 [] (int8 0 ++ int8 256)).Sane ∧ (engine 0 0 [] (int8 0 ++ int8 256)).latch = .active ∧
      8 + 8 ≤ (engine 0 0 [] (int8 0 ++ int8 256)).sp ∧
      0 < 256 ^ 8 ∧
      Holds (engine 0 0 [] (int8 0 ++ int8 256)) ((engine 0 0 [] (int8 0 ++ int8 256)).slot ((engine 0 0 [] (int8 0 ++ int8 256)).sp - 8)) 8 (256 : Word).toNat ∧
      Holds (engine 0 0 [] (int8 0 ++ int8 256)) ((engine 0 0 [] (int8 0 ++ int8 256)).slot ((engine 0 0 [] (int8 0 ++ int8 256)).sp - 8 - 8)) 8 0 ∧
      0 = 0 ∧
      ((engine 0 0 [] (int8 0 ++ int8 256)).memSize : Int) ≤ (256 : Word).toInt) ∧
    ((engine 0 0 [] (int8 0 ++ int8 (-1))).Sane ∧ (engine 0 0 [] (int8 0 ++ int8 (-1))).latch = .active ∧
      8 + 8 ≤ (engine 0 0 [] (int8 0 ++ int8 (-1))).sp ∧
      0 < 256 ^ 8 ∧
      Holds (engine 0 0 [] (int8 0 ++ int8 (-1))) ((engine 0 0 [] (int8 0 ++ int8 (-1))).slot ((engine 0 0 [] (int8 0 ++ int8 (-1))).sp - 8)) 8 ((-1) : Word).toNat ∧
      Holds (engine 0 0 [] (int8 0 ++ int8 (-1))) ((engine 0 0 [] (int8 0 ++ int8 (-1))).slot ((engine 0 0 [] (int8 0 ++ int8 (-1))).sp - 8 - 8)) 8 0 ∧
      0 = 0 ∧
      ((-1) : Word).toInt < 0) ∧
    ((engine 0 0 [] (int8 1 ++ int8 1000)).Sane ∧ (engine 0 0 [] (int8 1 ++ int8 1000)).latch = .active ∧
      8 + 8 ≤ (engine 0 0 [] (int8 1 ++ int8 1000)).sp ∧
      1 < 256 ^ 8 ∧
      Holds (engine 0 0 [] (int8 1 ++ int8 1000)) ((engine 0 0 [] (int8 1 ++ int8 1000)).slot ((engine 0 0 [] (int8 1 ++ int8 1000)).sp - 8)) 8 (1000 : Word).toNat ∧
      Holds (engine 0 0 [] (int8 1 ++ int8 1000)) ((engine 0 0 [] (int8 1 ++ int8 1000)).slot ((engine 0 0 [] (int8 1 ++ int8 1000)).sp - 8 - 8)) 8 1 ∧
      ¬ (1 = 0)) :=
  ⟨by simp, by unfold State.Sane Holds; decide +kernel⟩

/-- jmpz-int-address: taken to 255, to 256 and to −1, and not taken. -/
theorem witness_ConditionalJumpsWithLiteralTarget :
    ((0xE9, .jmpzIntAddress 255, 8, fun v => v = 0) : Byte × Instr × Nat × (Nat → Prop)) ∈
      [(0xE8, .jmpzByteAddress 255, 1, fun v => v = 0), (0xE9, .jmpzIntAddress 255, 8, fun v => v = 0),
       (0xEA, .jmpzFloatAddress 255, 8, fun v => v = 0 ∨ v = 2 ^ 63),
       (0xF0, .jmpnzByteAddress 255, 1, fun v => v ≠ 0), (0xF1, .jmpnzIntAddress 255, 8, fun v => v ≠ 0),
       (0xF2, .jmpnzFloatAddress 255, 8, fun v => v ≠ 0 ∧ v ≠ 2 ^ 63)] ∧
    ((engine 0 0 [] (int8 0)).Sane ∧ (engine 0 0 [] (int8 0)).latch = .active ∧
      8 ≤ (engine 0 0 [] (int8 0)).sp ∧
      0 < 256 ^ 8 ∧
      Holds (engine 0 0 [] (int8 0)) ((engine 0 0 [] (int8 0)).slot ((engine 0 0 [] (int8 0)).sp - 8)) 8 0 ∧
      0 = 0 ∧
      0 ≤ (255 : Word).toInt ∧
      (255 : Word).toInt < (engine 0 0 [] (int8 0)).memSize) ∧
    ((engine 0 0 [] (int8 0)).Sane ∧ (engine 0 0 [] (int8 0)).latch = .active ∧
      8 ≤ (engine 0 0 [] (int8 0)).sp ∧
      0 < 256 ^ 8 ∧
      Holds (engine 0 0 [] (int8 0)) ((engine 0 0 [] (int8 0)).slot ((engine 0 0 [] (int8 0)).sp - 8)) 8 0 ∧
      0 = 0 ∧
      ((engine 0 0 [] (int8 0)).memSize : Int) ≤ (256 : Word).toInt) ∧
    ((engine 0 0 [] (int8 0)).Sane ∧ (engine 0 0 [] (int8 0)).latch = .active ∧
      8 ≤ (engine 0 0 [] (int8 0)).sp ∧
      0 < 256 ^ 8 ∧
      Holds (engine 0 0 [] (int8 0)) ((engine 0 0 [] (int8 0)).slot ((engine 0 0 [] (int8 0)).sp - 8)) 8 0 ∧
      0 = 0 ∧
      ((-1) : Word).toInt < 0) ∧
    ((engine 0 0 [] (int8 1)).Sane ∧ (engine 0 0 [] (int8 1)).latch = .active ∧
      8 ≤ (engine 0 0 [] (int8 1)).sp ∧
      1 < 256 ^ 8 ∧
      Holds (engine 0 0 [] (int8 1)) ((engine 0 0 [] (int8 1)).slot ((engine 0 0 [] (int8 1)).sp - 8)) 8 1 ∧
      ¬ (1 = 0)) :=
  ⟨by simp, by unfold State.Sane Holds; decide +kernel⟩

/-- Targets 255, 256 and −1. -/
theorem witness_CallPushesReturnAddress :
    ((engine 0 0 [] (int8 255)).Sane ∧ (engine 0 0 [] (int8 255)).latch = .active ∧
      8 ≤ (engine 0 0 [] (int8 255)).sp ∧
      Holds (engine 0 0 [] (int8 255)) ((engine 0 0 [] (int8 255)).slot ((engine 0 0 [] (int8 255)).sp - 8)) 8 (255 : Word).toNat ∧
      0 ≤ (255 : Word).toInt ∧
      (255 : Word).toInt < (engine 0 0 [] (int8 255)).memSize) ∧
    ((engine 0 0 [] (int8 256)).Sane ∧ (engine 0 0 [] (int8 256)).latch = .active ∧
      8 ≤ (engine 0 0 [] (int8 256)).sp ∧
      Holds (engine 0 0 [] (int8 256)) ((engine 0 0 [] (int8 256)).slot ((engine 0 0 [] (int8 256)).sp - 8)) 8 (256 : Word).toNat ∧
      ((engine 0 0 [] (int8 256)).memSize : Int) ≤ (256 : Word).toInt) ∧
    ((engine 0 0 [] (int8 (-1))).Sane ∧ (engine 0 0 [] (int8 (-1))).latch = .active ∧
      8 ≤ (engine 0 0 [] (int8 (-1))).sp ∧
      Holds (engine 0 0 [] (int8 (-1))) ((engine 0 0 [] (int8 (-1))).slot ((engine 0 0 [] (int8 (-1))).sp - 8)) 8 ((-1) : Word).toNat ∧
      ((-1) : Word).toInt < 0) := by
  unfold State.Sane Holds; decide +kernel

/-- The last return address that fits, and targets 255, 256 and −1. -/
theorem witness_CallAddressPushesReturnAddress :
    ((engine 0 0 [] (List.replicate 56 1)).Sane ∧ (engine 0 0 [] (List.replicate 56 1)).latch = .active ∧
      (engine 0 0 [] (List.replicate 56 1)).sp + 8 ≤ (engine 0 0 [] (List.replicate 56 1)).stackSize ∧
      (255 : Word).toInt < (engine 0 0 [] (List.replicate 56 1)).memSize ∧
      ((engine 0 0 [] (List.replicate 56 1)).memSize : Int) ≤ (256 : Word).toInt ∧
      (-1 : Word).toInt < 0) := by
  unfold State.Sane; decide +kernel

/-- A full Stack at PC 0, with push-byte there: the step overflows. -/
def overflowing : State := engine 0 0 [0x08, 0x01] (List.replicate 64 7)

/-- An empty Stack at PC 0, with pop-byte there: the step underflows. -/
def underflowing : State := engine 0 0 [0x0C] []

/-- Both raise, and `end` at PC 5 halts cleanly. -/
theorem step_examples :
    step overflowing = .next (errorHalt overflowing .stackOverflow .overflowed) ∧
    step underflowing = .next (errorHalt underflowing .stackUnderflow .underflowed) ∧
    step (engine 5 0 [] []) = .next { engine 5 0 [] [] with runState := .haltedClean } ∧
    step (engine 256 0 [] []) = .next (errorHalt (engine 256 0 [] []) .memoryError .active) ∧
    step (errorHalt overflowing .stackOverflow .overflowed) = .next (errorHalt overflowing .stackOverflow .overflowed) :=
  ⟨rfl, rfl, rfl, rfl, rfl⟩

/-- States that meet the invariant and step: to an error halt, to a clean halt, and to themselves. -/
theorem witness_StepKeepsInvariant :
    (overflowing.Inv ∧ (engine 5 0 [] []).Inv ∧ (errorHalt overflowing .stackOverflow .overflowed).Inv) ∧
    step overflowing = .next (errorHalt overflowing .stackOverflow .overflowed) :=
  ⟨by unfold State.Inv State.Sane; decide +kernel, step_examples.1⟩

theorem witness_InvariantHoldsInReachableStates : Reachable (State.initial 256 64 true) :=
  .construct 256 64 true _ rfl

/-- PC at both ends of its range. -/
theorem witness_StepKeepsPcInRange :
    ((engine 256 0 [] []).Sane ∧ (engine 256 0 [] []).PcInRange ∧ overflowing.Sane ∧ overflowing.PcInRange) ∧
    step (engine 256 0 [] []) = .next (errorHalt (engine 256 0 [] []) .memoryError .active) ∧
    step overflowing = .next (errorHalt overflowing .stackOverflow .overflowed) :=
  ⟨by unfold State.PcInRange State.Sane; decide +kernel, step_examples.2.2.2.1, step_examples.1⟩

theorem witness_ErrorHaltRestoresState :
    overflowing.runState = .running ∧ step overflowing = .next (errorHalt overflowing .stackOverflow .overflowed) ∧
    (errorHalt overflowing .stackOverflow .overflowed).runState = .haltedError :=
  ⟨rfl, step_examples.1, rfl⟩

/-- A tripped LATCH, and one that each kind of stack error trips. -/
theorem witness_LatchIsSticky :
    (step (errorHalt overflowing .stackOverflow .overflowed) = .next (errorHalt overflowing .stackOverflow .overflowed) ∧
      (errorHalt overflowing .stackOverflow .overflowed).latch ≠ .active) ∧
    (step overflowing = .next (errorHalt overflowing .stackOverflow .overflowed) ∧ overflowing.latch = .active ∧
      (errorHalt overflowing .stackOverflow .overflowed).latch = .overflowed) ∧
    step underflowing = .next (errorHalt underflowing .stackUnderflow .underflowed) ∧ underflowing.latch = .active ∧
      (errorHalt underflowing .stackUnderflow .underflowed).latch = .underflowed :=
  ⟨⟨step_examples.2.2.2.2, by decide +kernel⟩, ⟨step_examples.1, rfl, rfl⟩, step_examples.2.1, rfl, rfl⟩

theorem witness_BlockedIsUnreachable :
    overflowing.Inv ∧ overflowing.err ≠ some .blocked ∧
    step overflowing = .next (errorHalt overflowing .stackOverflow .overflowed) :=
  ⟨by unfold State.Inv State.Sane; decide +kernel, by decide +kernel, step_examples.1⟩

/-- An engine without the port and a halted one; then running ones with it, clause by clause: PC one below and one past
Memory; an undefined opcode and an F0 one at the last address; push-byte, push-float and jmp with their operand ending where
Memory ends; push-byte and jmp one byte further. -/
theorem witness_TraceRecordDescribesStep :
    (State.initial 256 64 false).traceOn = false ∧
    (errorHalt overflowing .stackOverflow .overflowed).runState ≠ .running ∧
    (∀ s ∈ [engine (-1) 0 [] [], engine 256 0 [] [], engine 255 255 [0x01] [], engine 255 255 [0x0C] [],
        engine 254 254 [0x08, 0x7F] [], engine 247 247 (0x0A :: int8 0x3FF0000000000000) [],
        engine 247 247 (0xE1 :: int8 5) [], engine 255 255 [0x08] [], engine 248 248 [0xE1] []],
      (s.Inv ∧ s.traceOn = true ∧ s.runState = .running) ∧ step s = .next (stepState s)) ∧
    (Holds (engine 247 247 (0x0A :: int8 0x3FF0000000000000) []) 248 8 (0x3FF0000000000000 : Word).toNat ∧
      Holds (engine 247 247 (0xE1 :: int8 5) []) 248 8 (5 : Word).toNat ∧
      f8Opcode 0xE1 = true ∧ f8Opcode 0x0C = false) := by
  refine ⟨rfl, by decide +kernel, ?_, by unfold Holds; decide +kernel⟩
  simp only [List.forall_mem_cons, List.not_mem_nil, false_imp_iff, implies_true, and_true]
  refine ⟨⟨?_, rfl⟩, ⟨?_, rfl⟩, ⟨?_, rfl⟩, ⟨?_, rfl⟩, ⟨?_, rfl⟩, ⟨?_, rfl⟩, ⟨?_, rfl⟩, ⟨?_, rfl⟩, ⟨?_, rfl⟩⟩ <;>
    (unfold State.Inv State.Sane; decide +kernel)

/-- P7a: put-byte-address 9 at PC 0 with 0x00 on the Stack. -/
theorem witness_FetchSeesStoredByte :
    (engine 0 0 [0x28, 9] [0x00]).Sane ∧ (engine 0 0 [0x28, 9] [0x00]).runState = .running ∧
    (engine 0 0 [0x28, 9] [0x00]).latch = .active ∧ 1 ≤ (engine 0 0 [0x28, 9] [0x00]).sp ∧
    InstrAtPC (.putByteAddress 9) (engine 0 0 [0x28, 9] [0x00]) ∧
    (9 : Word).toInt = (engine 0 0 [0x28, 9] [0x00]).pc.toInt + 9 ∧
    (9 : Word).toInt < (engine 0 0 [0x28, 9] [0x00]).memSize ∧
    Holds (engine 0 0 [0x28, 9] [0x00])
      ((engine 0 0 [0x28, 9] [0x00]).slot ((engine 0 0 [0x28, 9] [0x00]).sp - 1)) 1 0x00 := by
  unfold State.Sane InstrAtPC Holds; decide +kernel

end Sys2Proof.Tests
end

section
/-! PROOFS, 00_scope.md. R9, R311: TRACE has no effect on any step. Setting TRACE commutes with every piece of pseudocode; sequencing, branching and the commit keep that. -/
namespace Sys2Proof.Machine

/-! ### Setting TRACE -/

/-- The engine `s` with the parameter TRACE set to `b`. -/
def State.withTrace (b : Bool) (s : State) : State := { s with traceOn := b }

/-- What a piece of pseudocode gives, with TRACE set to `b` in its state. -/
def Res.withTrace {α : Type} (b : Bool) : Res α → Res α
  | .ok a s => .ok a (s.withTrace b)
  | .raised e s => .raised e (s.withTrace b)

/-- Pseudocode that neither reads nor writes TRACE: setting TRACE before it is setting TRACE after it. -/
def TraceBlind {α : Type} (f : State → Res α) : Prop :=
  ∀ b s, f (s.withTrace b) = (f s).withTrace b

/-- The fetch reads MEM, PC and M alone. -/
theorem fetch_withTrace (b : Bool) (s : State) : fetch (s.withTrace b) = fetch s := rfl

/-! ### Sequencing and branching -/

theorem withTrace_bind {α β : Type} {b : Bool} {f g : α → State → Res β}
    (h : ∀ a t, g a (t.withTrace b) = (f a t).withTrace b) (r : Res α) :
    (r.withTrace b).bind g = (r.bind f).withTrace b := by
  cases r with
  | ok a t => exact h a t
  | raised e t => rfl

theorem TraceBlind.bind {α β : Type} {f : State → Res α} {g : α → State → Res β} (hf : TraceBlind f)
    (hg : ∀ a, TraceBlind (g a)) : TraceBlind fun s => (f s).bind g := fun b s => by
  simp only [hf b s]
  exact withTrace_bind (fun a => hg a b) (f s)

/-- A branch on a condition that does not look at TRACE. -/
theorem TraceBlind.ite {α : Type} {p : State → Prop} [DecidablePred p] {f g : State → Res α}
    (hp : ∀ b s, p (s.withTrace b) ↔ p s) (hf : TraceBlind f) (hg : TraceBlind g) :
    TraceBlind fun s => if p s then f s else g s := fun b s => by
  by_cases h : p s
  · simp only [if_pos h, if_pos ((hp b s).mpr h), hf b s]
  · simp only [if_neg h, if_neg (mt (hp b s).mp h), hg b s]

theorem ok_traceBlind {α : Type} (a : α) : TraceBlind (Res.ok a) := fun _ _ => rfl

theorem raised_traceBlind {α : Type} (e : ErrorCode) : TraceBlind (Res.raised e : State → Res α) := fun _ _ => rfl

theorem TraceBlind.thenAdvance {α : Type} {f : State → Res α} (hf : TraceBlind f) :
    TraceBlind fun s => (f s).thenAdvance :=
  hf.bind fun _ => ok_traceBlind _

/-! ### The Memory unit, the Stack unit and the target check -/

theorem memRead_traceBlind (a : Int) (n : Nat) : TraceBlind (memRead a n) :=
  .ite (fun _ _ => .rfl) (fun _ _ => rfl) (raised_traceBlind _)

theorem memWrite_traceBlind (a : Int) (n v : Nat) : TraceBlind (memWrite a n v) :=
  .ite (fun _ _ => .rfl) (fun _ _ => rfl) (raised_traceBlind _)

theorem push_traceBlind (n v : Nat) : TraceBlind (push n v) := by
  refine .ite (fun _ _ => .rfl) (raised_traceBlind _) (.ite (fun _ _ => .rfl) (fun _ _ => rfl) fun b s => ?_)
  rw [memWrite_traceBlind]
  exact withTrace_bind (fun _ _ => rfl) _

theorem pop_traceBlind (n : Nat) : TraceBlind (pop n) :=
  .ite (fun _ _ => .rfl) (raised_traceBlind _) <| .ite (fun _ _ => .rfl) (fun _ _ => rfl) fun b s =>
    memRead_traceBlind _ n b { s with sp := s.sp - n }

theorem peek_traceBlind (off : Int) (n : Nat) : TraceBlind (peek off n) :=
  .ite (fun _ _ => .rfl) (raised_traceBlind _) <|
    .ite (fun _ _ => .rfl) (fun _ _ => memRead_traceBlind _ n _ _) (raised_traceBlind _)

theorem poke_traceBlind (off : Int) (n v : Nat) : TraceBlind (poke off n v) :=
  .ite (fun _ _ => .rfl) (raised_traceBlind _) <|
    .ite (fun _ _ => .rfl) (fun _ _ => memWrite_traceBlind _ n v _ _) (raised_traceBlind _)

theorem redirectTo_traceBlind (t : Word) : TraceBlind (redirectTo t) :=
  .ite (fun _ _ => .rfl) (ok_traceBlind _) (raised_traceBlind _)

/-! ### Typed pops and pushes, and the addressing modes -/

theorem popByte_traceBlind : TraceBlind popByte := (pop_traceBlind 1).bind fun _ => ok_traceBlind _

theorem popWord_traceBlind : TraceBlind popWord := (pop_traceBlind 8).bind fun _ => ok_traceBlind _

theorem pushByte_traceBlind (x : Byte) : TraceBlind (pushByte x) := push_traceBlind 1 _

theorem pushWord_traceBlind (x : Word) : TraceBlind (pushWord x) := push_traceBlind 8 _

theorem withBytes_traceBlind {α : Type} {f : Byte → Byte → State → Res α} (hf : ∀ x y, TraceBlind (f x y)) :
    TraceBlind fun s => withBytes s f :=
  popByte_traceBlind.bind fun y => popByte_traceBlind.bind fun x => hf x y

theorem withWords_traceBlind {α : Type} {f : Word → Word → State → Res α} (hf : ∀ x y, TraceBlind (f x y)) :
    TraceBlind fun s => withWords s f :=
  popWord_traceBlind.bind fun y => popWord_traceBlind.bind fun x => hf x y

theorem withPoppedAddress_traceBlind {f : Int → State → Res Flow} (hf : ∀ a, TraceBlind (f a)) :
    TraceBlind fun s => withPoppedAddress s f :=
  popWord_traceBlind.bind fun _ => hf _

theorem getFrom_traceBlind (t : Ty) (a : Int) : TraceBlind (getFrom t a) :=
  (memRead_traceBlind a _).bind fun _ => (push_traceBlind _ _).thenAdvance

theorem putTo_traceBlind (t : Ty) (a : Int) : TraceBlind (putTo t a) :=
  (pop_traceBlind _).bind fun _ => (memWrite_traceBlind a _ _).thenAdvance

theorem getAtOffset_traceBlind (t : Ty) (off : Word) : TraceBlind (getAtOffset t off) :=
  (peek_traceBlind _ _).bind fun _ => (push_traceBlind _ _).thenAdvance

theorem putAtOffset_traceBlind (t : Ty) (off : Word) : TraceBlind (putAtOffset t off) :=
  (pop_traceBlind _).bind fun _ => (poke_traceBlind _ _ _).thenAdvance

/-! ### The bodies of the families -/

theorem byteArith_traceBlind (op : Byte → Byte → Byte) : TraceBlind (byteArith op) :=
  withBytes_traceBlind fun _ _ => (pushByte_traceBlind _).thenAdvance

theorem wordArith_traceBlind (op : Word → Word → Word) : TraceBlind (wordArith op) :=
  withWords_traceBlind fun _ _ => (pushWord_traceBlind _).thenAdvance

theorem compareBytes_traceBlind (rel : Byte → Byte → Bool) : TraceBlind (compareBytes rel) :=
  withBytes_traceBlind fun _ _ => (pushByte_traceBlind _).thenAdvance

theorem compareWords_traceBlind (rel : Word → Word → Bool) : TraceBlind (compareWords rel) :=
  withWords_traceBlind fun _ _ => (pushByte_traceBlind _).thenAdvance

theorem byteLogic_traceBlind (op : Byte → Byte → Byte) : TraceBlind (byteLogic op) :=
  withBytes_traceBlind fun _ _ => (pushByte_traceBlind _).thenAdvance

theorem jumpIf_traceBlind (taken : Bool) (t : Word) : TraceBlind (jumpIf taken t) :=
  .ite (fun _ _ => .rfl) (redirectTo_traceBlind t) (ok_traceBlind _)

theorem jumpByteStack_traceBlind (cond : Byte → Bool) : TraceBlind (jumpByteStack cond) :=
  popWord_traceBlind.bind fun _ => popByte_traceBlind.bind fun _ => jumpIf_traceBlind _ _

theorem jumpWordStack_traceBlind (cond : Word → Bool) : TraceBlind (jumpWordStack cond) :=
  popWord_traceBlind.bind fun _ => popWord_traceBlind.bind fun _ => jumpIf_traceBlind _ _

theorem jumpByteLiteral_traceBlind (cond : Byte → Bool) (target : Word) : TraceBlind (jumpByteLiteral cond target) :=
  popByte_traceBlind.bind fun _ => jumpIf_traceBlind _ _

theorem jumpWordLiteral_traceBlind (cond : Word → Bool) (target : Word) : TraceBlind (jumpWordLiteral cond target) :=
  popWord_traceBlind.bind fun _ => jumpIf_traceBlind _ _

/-- The push of the return address and the target check of a call (R247, R248): the return address is read from PC. -/
theorem callTo_traceBlind (opw : Nat) (t : Word) :
    TraceBlind fun s => (pushWord (returnAddress opw s) s).bind fun _ s => redirectTo t s :=
  TraceBlind.bind (fun b s => pushWord_traceBlind (returnAddress opw s) b s) fun _ => redirectTo_traceBlind t

/-! ### Instructions and steps -/

/-- A meaning that answers a next state, and the same one but for TRACE when TRACE is set before it. -/
def StepTraceBlind (f : State → Host.Outcome State Fault Refusal) : Prop :=
  ∀ b s, ∃ t, f s = .next t ∧ f (s.withTrace b) = .next (t.withTrace b)

/-- The commit takes TRACE from the body's state when the body completes, and from the state the instruction began in
when it raises (R279). -/
theorem TraceBlind.commit {body : State → Res Flow} (h : TraceBlind body) (opw : Nat) :
    StepTraceBlind fun s => commit opw s (body s) := fun b s => by
  simp only [h b s]
  cases body s with
  | ok flow t => cases flow with
    | advance => exact ⟨_, rfl, rfl⟩
    | redirect p => exact ⟨_, rfl, rfl⟩
  | raised e t => exact ⟨_, rfl, rfl⟩

/-- No instruction looks at TRACE: each arm but end's is the commit of a body that does not. -/
theorem exec_traceBlind (i : Instr) : StepTraceBlind (exec i) := by
  cases i with
  | pushByte imm => exact (pushByte_traceBlind imm).thenAdvance.commit 1
  | pushInt imm | pushFloat imm => exact (pushWord_traceBlind imm).thenAdvance.commit 8
  | popByte | popInt | popFloat => exact (pop_traceBlind _).thenAdvance.commit 0
  | getByte | getInt | getFloat => exact (withPoppedAddress_traceBlind (getFrom_traceBlind _)).commit 0
  | putByte | putInt | putFloat => exact (withPoppedAddress_traceBlind (putTo_traceBlind _)).commit 0
  | getByteAddress | getIntAddress | getFloatAddress => exact (getFrom_traceBlind _ _).commit 8
  | putByteAddress | putIntAddress | putFloatAddress => exact (putTo_traceBlind _ _).commit 8
  | getByteStack | getIntStack | getFloatStack => exact (getAtOffset_traceBlind _ _).commit 8
  | putByteStack | putIntStack | putFloatStack => exact (putAtOffset_traceBlind _ _).commit 8
  | addByte | subByte | mulByte => exact (byteArith_traceBlind _).commit 0
  | addInt | addFloat | subInt | subFloat | mulInt | mulFloat | divFloat => exact (wordArith_traceBlind _).commit 0
  | divByte => exact (withBytes_traceBlind fun _ _ =>
      .ite (fun _ _ => .rfl) (raised_traceBlind _) (pushByte_traceBlind _).thenAdvance).commit 0
  | divInt => exact (withWords_traceBlind fun _ _ =>
      .ite (fun _ _ => .rfl) (raised_traceBlind _) (pushWord_traceBlind _).thenAdvance).commit 0
  | equalByte | unequalByte | greaterByte | smallerByte => exact (compareBytes_traceBlind _).commit 0
  | equalInt | equalFloat | unequalInt | unequalFloat | greaterInt | greaterFloat | smallerInt | smallerFloat =>
    exact (compareWords_traceBlind _).commit 0
  | andByte | orByte | xorByte => exact (byteLogic_traceBlind _).commit 0
  | notByte => exact (popByte_traceBlind.bind fun _ => (pushByte_traceBlind _).thenAdvance).commit 0
  | endOp => exact fun _ _ => ⟨_, rfl, rfl⟩
  | ret => exact (popWord_traceBlind.bind redirectTo_traceBlind).commit 0
  | jmp target => exact (redirectTo_traceBlind target).commit 8
  | jmpzByte | jmpnzByte => exact (jumpByteStack_traceBlind _).commit 0
  | jmpzInt | jmpzFloat | jmpnzInt | jmpnzFloat => exact (jumpWordStack_traceBlind _).commit 0
  | jmpzByteAddress | jmpnzByteAddress => exact (jumpByteLiteral_traceBlind _ _).commit 8
  | jmpzIntAddress | jmpzFloatAddress | jmpnzIntAddress | jmpnzFloatAddress =>
    exact (jumpWordLiteral_traceBlind _ _).commit 8
  | call => exact (popWord_traceBlind.bind fun t => callTo_traceBlind 0 t).commit 0
  | callAddress target => exact (callTo_traceBlind 8 target).commit 8

/-- Running engines that differ in TRACE fetch the same instruction or the same error; a halted one absorbs the step
(R112, R35). -/
theorem step_traceBlind : StepTraceBlind step := fun b s => by
  have hrun : (s.withTrace b).runState = s.runState := rfl
  simp only [step, hrun, fetch_withTrace]
  cases s.runState with
  | running => cases fetch s with
    | ok i => exact exec_traceBlind i b s
    | error e => exact ⟨_, rfl, rfl⟩
  | haltedClean => exact ⟨s, rfl, rfl⟩
  | haltedError => exact ⟨s, rfl, rfl⟩

/-- Settles O58: every instruction, and so the step, commutes with setting TRACE. -/
theorem traceDoesNotAffectSteps : Obligations.TraceDoesNotAffectSteps :=
  fun s b => step_traceBlind b s

end Sys2Proof.Machine
end

section
/-! PROOFS, 10_state.md. One inversion of the step says everything a step can do (R112, R113, R279); the invariant of R44, the range of PC (R32) and the stickiness of LATCH (R34) follow from it case by case. -/
namespace Sys2Proof.Machine

/-! ### Redirects are to checked targets (R230) -/

/-- If the pseudocode ends in a redirect, its target is legal in the state it leaves. -/
def Res.TargetLegal (r : Res Flow) : Prop :=
  ∀ p t, r = .ok (.redirect p) t → legalTarget t p

theorem bind_targetLegal {α : Type} (r : Res α) {f : α → State → Res Flow} (hf : ∀ a t, (f a t).TargetLegal) :
    (r.bind f).TargetLegal := by
  cases r with
  | ok a t => exact hf a t
  | raised e t => nofun

theorem thenAdvance_targetLegal {α : Type} (r : Res α) : r.thenAdvance.TargetLegal :=
  bind_targetLegal r fun _ _ => nofun

theorem redirectTo_targetLegal (p : Word) (s : State) : (redirectTo p s).TargetLegal := by
  unfold redirectTo
  split
  · next h =>
    rintro _ _ ⟨⟩
    exact h
  · nofun

theorem jumpIf_targetLegal (taken : Bool) (p : Word) (s : State) : (jumpIf taken p s).TargetLegal := by
  cases taken with
  | false => nofun
  | true => exact redirectTo_targetLegal p s

theorem withBytes_targetLegal (s : State) {f : Byte → Byte → State → Res Flow} (hf : ∀ a b t, (f a b t).TargetLegal) :
    (withBytes s f).TargetLegal :=
  bind_targetLegal _ fun _ _ => bind_targetLegal _ fun _ _ => hf _ _ _

theorem withWords_targetLegal (s : State) {f : Word → Word → State → Res Flow} (hf : ∀ a b t, (f a b t).TargetLegal) :
    (withWords s f).TargetLegal :=
  bind_targetLegal _ fun _ _ => bind_targetLegal _ fun _ _ => hf _ _ _

theorem getFrom_targetLegal (ty : Ty) (a : Int) (s : State) : (getFrom ty a s).TargetLegal :=
  bind_targetLegal _ fun _ _ => thenAdvance_targetLegal _

theorem putTo_targetLegal (ty : Ty) (a : Int) (s : State) : (putTo ty a s).TargetLegal :=
  bind_targetLegal _ fun _ _ => thenAdvance_targetLegal _

theorem jumpByteStack_targetLegal (c : Byte → Bool) (s : State) : (jumpByteStack c s).TargetLegal :=
  bind_targetLegal _ fun _ _ => bind_targetLegal _ fun _ _ => jumpIf_targetLegal _ _ _

theorem jumpWordStack_targetLegal (c : Word → Bool) (s : State) : (jumpWordStack c s).TargetLegal :=
  bind_targetLegal _ fun _ _ => bind_targetLegal _ fun _ _ => jumpIf_targetLegal _ _ _

theorem callTo_targetLegal (ret p : Word) (s : State) :
    ((pushWord ret s).bind fun _ u => redirectTo p u).TargetLegal :=
  bind_targetLegal _ fun _ u => redirectTo_targetLegal p u

/-! ### Every instruction but end is the commit of a sound body -/

/-- The instruction runs as the commit of some body, which is sound and redirects to checked targets only; the default
advance of the commit passes exactly the operand bytes of the encoding. -/
def CommitsBody (i : Instr) (s : State) : Prop :=
  ∃ r : Res Flow, exec i s = commit i.operandBytes.length s r ∧ r.Sound s ∧ r.TargetLegal

theorem divByte_commits (s : State) : CommitsBody .divByte s := by
  refine ⟨_, rfl, withBytes_sound s fun a b t => ?_, withBytes_targetLegal s fun a b t => ?_⟩
  · split
    · exact raised_sound t nofun nofun nofun
    · exact thenAdvance_sound (pushByte_sound _ t)
  · split
    · nofun
    · exact thenAdvance_targetLegal _

theorem divInt_commits (s : State) : CommitsBody .divInt s := by
  refine ⟨_, rfl, withWords_sound s fun a b t => ?_, withWords_targetLegal s fun a b t => ?_⟩
  · split
    · exact raised_sound t nofun nofun nofun
    · exact thenAdvance_sound (pushWord_sound _ t)
  · split
    · nofun
    · exact thenAdvance_targetLegal _

/-- Every instruction but end, which halts without a commit (R232). -/
theorem exec_commits (i : Instr) (s : State) (hi : i ≠ .endOp) : CommitsBody i s := by
  cases i with
  | pushByte imm => exact ⟨_, rfl, thenAdvance_sound (pushByte_sound imm s), thenAdvance_targetLegal _⟩
  | pushInt imm | pushFloat imm => exact ⟨_, rfl, thenAdvance_sound (pushWord_sound imm s), thenAdvance_targetLegal _⟩
  | popByte | popInt | popFloat => exact ⟨_, rfl, thenAdvance_sound (pop_sound _ s), thenAdvance_targetLegal _⟩
  | getByte | getInt | getFloat =>
    exact ⟨_, rfl, withPoppedAddress_sound s (getFrom_sound _), bind_targetLegal _ fun _ _ => getFrom_targetLegal _ _ _⟩
  | putByte | putInt | putFloat =>
    exact ⟨_, rfl, withPoppedAddress_sound s (putTo_sound _), bind_targetLegal _ fun _ _ => putTo_targetLegal _ _ _⟩
  | getByteAddress | getIntAddress | getFloatAddress =>
    exact ⟨_, rfl, getFrom_sound _ _ s, getFrom_targetLegal _ _ s⟩
  | putByteAddress | putIntAddress | putFloatAddress =>
    exact ⟨_, rfl, putTo_sound _ _ s, putTo_targetLegal _ _ s⟩
  | getByteStack | getIntStack | getFloatStack =>
    exact ⟨_, rfl, getAtOffset_sound _ _ s, bind_targetLegal _ fun _ _ => thenAdvance_targetLegal _⟩
  | putByteStack | putIntStack | putFloatStack =>
    exact ⟨_, rfl, putAtOffset_sound _ _ s, bind_targetLegal _ fun _ _ => thenAdvance_targetLegal _⟩
  | addByte | subByte | mulByte =>
    exact ⟨_, rfl, byteArith_sound _ s, withBytes_targetLegal s fun _ _ _ => thenAdvance_targetLegal _⟩
  | addInt | addFloat | subInt | subFloat | mulInt | mulFloat | divFloat =>
    exact ⟨_, rfl, wordArith_sound _ s, withWords_targetLegal s fun _ _ _ => thenAdvance_targetLegal _⟩
  | divByte => exact divByte_commits s
  | divInt => exact divInt_commits s
  | equalByte | unequalByte | greaterByte | smallerByte =>
    exact ⟨_, rfl, compareBytes_sound _ s, withBytes_targetLegal s fun _ _ _ => thenAdvance_targetLegal _⟩
  | equalInt | equalFloat | unequalInt | unequalFloat | greaterInt | greaterFloat | smallerInt | smallerFloat =>
    exact ⟨_, rfl, compareWords_sound _ s, withWords_targetLegal s fun _ _ _ => thenAdvance_targetLegal _⟩
  | andByte | orByte | xorByte =>
    exact ⟨_, rfl, byteLogic_sound _ s, withBytes_targetLegal s fun _ _ _ => thenAdvance_targetLegal _⟩
  | notByte => exact ⟨_, rfl, (popByte_sound s).bind fun _ t _ => thenAdvance_sound (pushByte_sound _ t),
      bind_targetLegal _ fun _ _ => thenAdvance_targetLegal _⟩
  | endOp => exact absurd rfl hi
  | ret => exact ⟨_, rfl, (popWord_sound s).bind fun p t _ => redirectTo_sound p t,
      bind_targetLegal _ fun p t => redirectTo_targetLegal p t⟩
  | jmp target => exact ⟨_, rfl, redirectTo_sound target s, redirectTo_targetLegal target s⟩
  | jmpzByte | jmpnzByte => exact ⟨_, rfl, jumpByteStack_sound _ s, jumpByteStack_targetLegal _ s⟩
  | jmpzInt | jmpzFloat | jmpnzInt | jmpnzFloat =>
    exact ⟨_, rfl, jumpWordStack_sound _ s, jumpWordStack_targetLegal _ s⟩
  | jmpzByteAddress | jmpnzByteAddress =>
    exact ⟨_, rfl, jumpByteLiteral_sound _ _ s, bind_targetLegal _ fun _ _ => jumpIf_targetLegal _ _ _⟩
  | jmpzIntAddress | jmpzFloatAddress | jmpnzIntAddress | jmpnzFloatAddress =>
    exact ⟨_, rfl, jumpWordLiteral_sound _ _ s, bind_targetLegal _ fun _ _ => jumpIf_targetLegal _ _ _⟩
  | call => exact ⟨_, rfl, (popWord_sound s).bind fun p t _ => (pushWord_sound _ t).bind fun _ u _ => redirectTo_sound p u,
      bind_targetLegal _ fun p t => callTo_targetLegal _ p t⟩
  | callAddress target => exact ⟨_, rfl, (pushWord_sound _ s).bind fun _ u _ => redirectTo_sound target u,
      callTo_targetLegal _ target s⟩

/-! ### A fetch that decodes read its bytes inside Memory (R107, R114) -/

/-- The instructions that a row of the opcode table builds have as many operand bytes as its format. -/
theorem operandBytes_of_row : ∀ row ∈ opcodeTable, match row.shape with
    | .f0 i => i.operandBytes.length = 0
    | .f1 mk => ∀ b, (mk b).operandBytes.length = 1
    | .f8 mk => ∀ v, (mk v).operandBytes.length = 8 := by
  simp only [opcodeTable, dataMovementRows, arithmeticRows, compareLogicRows, controlFlowRows, List.cons_append,
    List.nil_append, List.forall_mem_cons, List.not_mem_nil, false_imp_iff, implies_true, and_true]
  simp [Instr.operandBytes]

/-- Bytes that decode hold the opcode byte and every operand byte. -/
theorem decode_length {bs rest : List Byte} {i : Instr} (h : decode bs = .ok (i, rest)) :
    1 + i.operandBytes.length ≤ bs.length := by
  cases bs with
  | nil => exact nomatch h
  | cons op tail =>
    cases hrow : lookupOpcode op with
    | none => simp [decode, hrow] at h
    | some row =>
      obtain ⟨_, _, shape⟩ := row
      have hwidth := operandBytes_of_row _ (List.mem_of_find?_eq_some hrow)
      simp only [decode, hrow] at h
      split at h
      · exact nomatch h
      · next hlen =>
        rw [List.length_cons]
        cases shape with
        | f0 j =>
          obtain ⟨rfl, rfl⟩ := h
          rw [hwidth]
          omega
        | f1 mk | f8 mk =>
          obtain ⟨rfl, rfl⟩ := h
          simp only [Shape.operandWidth] at hlen
          rw [hwidth]
          omega

/-- An instruction that was fetched lies inside Memory, its operand included. -/
theorem fetch_inside {s : State} {i : Instr} (h : fetch s = .ok i) :
    0 ≤ s.pc.toInt ∧ s.pc.toInt + 1 + i.operandBytes.length ≤ s.memSize := by
  unfold fetch at h
  split at h
  · next j rest hd =>
    obtain rfl : j = i := by simpa using h
    have hlen := decode_length hd
    rw [fetchBytes, Memory.bytes_length, fetchableBytes] at hlen
    split at hlen <;> omega
  · exact nomatch h

/-- A fetch raises neither a stack error nor Blocked, and so keeps LATCH. -/
theorem fetch_latchAfter {s : State} {e : ErrorCode} (h : fetch s = .error e) : LatchAfter s e s.latch := by
  unfold fetch at h
  split at h
  · exact nomatch h
  · next d _ =>
    obtain rfl : fetchError d = e := by simpa using h
    cases d <;> exact .inl ⟨rfl, nofun, nofun, nofun⟩

/-! ### The inversion of the step -/

/-- Where PC can stand after an instruction that completes: past its bytes, all inside Memory, or at a legal target
(R113, R230). -/
def NextPc (s : State) (p : Word) : Prop :=
  (∃ w : Nat, 0 ≤ s.pc.toInt ∧ s.pc.toInt + 1 + w ≤ s.memSize ∧ p = BitVec.ofInt 64 (s.pc.toInt + 1 + w)) ∨
  legalTarget s p

/-- Everything a step from `s` can do. -/
inductive StepTo (s : State) : State → Prop
  /-- A halted engine absorbs the step (R35). -/
  | absorbed (hr : s.runState ≠ .running) : StepTo s s
  /-- end (R232). -/
  | ended (hr : s.runState = .running) : StepTo s { s with runState := .haltedClean }
  /-- Any other instruction, without a raise: it moves MEM and SP, and then PC (R112, R113). -/
  | completed (hr : s.runState = .running) (u : State) (p : Word) (hu : MovedTo s u) (hp : NextPc s p) :
    StepTo s { u with pc := p }
  /-- A raise in the fetch or in the instruction: the error halt (R279). -/
  | raised (hr : s.runState = .running) (e : ErrorCode) (l : Latch) (hl : LatchAfter s e l) : StepTo s (errorHalt s e l)

theorem MovedTo.memSize {s t : State} (h : MovedTo s t) : t.memSize = s.memSize := by
  obtain ⟨-, ⟨-, -, -, hsize, -⟩, -⟩ := h
  exact hsize

/-- The commit of an instruction that was fetched. -/
theorem CommitsBody.stepTo {i : Instr} {s : State} (h : CommitsBody i s) (hr : s.runState = .running)
    (hf : fetch s = .ok i) : ∃ t, exec i s = .next t ∧ StepTo s t := by
  obtain ⟨r, hexec, hsound, hlegal⟩ := h
  rw [hexec]
  cases r with
  | raised e u => exact ⟨_, rfl, .raised hr e u.latch hsound⟩
  | ok flow u =>
    cases flow with
    | advance =>
      obtain ⟨hlo, hhi⟩ := fetch_inside hf
      exact ⟨_, rfl, .completed hr u _ hsound (.inl ⟨_, hlo, hhi, rfl⟩)⟩
    | redirect p =>
      have htarget : legalTarget s p := by
        simpa only [legalTarget, MovedTo.memSize hsound] using hlegal p u rfl
      exact ⟨_, rfl, .completed hr u p hsound (.inr htarget)⟩

theorem step_stepTo (s : State) : ∃ t, step s = .next t ∧ StepTo s t := by
  unfold step
  cases hr : s.runState with
  | running =>
    cases hf : fetch s with
    | error e => exact ⟨_, rfl, .raised hr e s.latch (fetch_latchAfter hf)⟩
    | ok i =>
      by_cases hi : i = .endOp
      · subst hi
        exact ⟨_, rfl, .ended hr⟩
      · exact (exec_commits i s hi).stepTo hr hf
  | haltedClean | haltedError => exact ⟨s, rfl, .absorbed (by simp [hr])⟩

theorem stepTo_of_step {s t : State} (h : step s = .next t) : StepTo s t := by
  obtain ⟨u, hu, hto⟩ := step_stepTo s
  obtain rfl : u = t := by simpa [hu] using h
  exact hto

/-! ### The invariant of R44 -/

/-- While the engine runs, LATCH is ACTIVE and ERR is NONE. -/
theorem State.Inv.of_running {s : State} (h : s.Inv) (hr : s.runState = .running) :
    s.latch = .active ∧ s.err = none := by
  obtain ⟨-, hover, hunder, herr⟩ := h
  constructor
  · cases hl : s.latch with
    | active => rfl
    | overflowed => simpa [hr] using (hover hl).1
    | underflowed => simpa [hr] using (hunder hl).1
  · exact herr.mpr (by simp [hr])

/-- A sane state that has met no error meets the invariant. -/
theorem State.Sane.inv {s : State} (h : s.Sane) (hl : s.latch = .active) (he : s.err = none)
    (hr : s.runState ≠ .haltedError) : s.Inv :=
  ⟨h, by simp [hl], by simp [hl], by simp [he, hr]⟩

/-- The error halt of an untripped engine: a tripped LATCH matches ERR. -/
theorem errorHalt_inv {s : State} {e : ErrorCode} {l : Latch} (h : s.Sane) (hs : s.latch = .active)
    (hl : LatchAfter s e l) : (errorHalt s e l).Inv := by
  have herr : (errorHalt s e l).err = none ↔ (errorHalt s e l).runState ≠ .haltedError := by simp [errorHalt]
  obtain ⟨rfl, -⟩ | ⟨-, rfl, rfl⟩ | ⟨-, rfl, rfl⟩ := hl
  · exact ⟨h, by simp [errorHalt, hs], by simp [errorHalt, hs], herr⟩
  · exact ⟨h, fun _ => ⟨rfl, rfl⟩, nofun, herr⟩
  · exact ⟨h, nofun, fun _ => ⟨rfl, rfl⟩, herr⟩

/-- Settles O50: a running engine has met no error, and each way a step can go keeps the invariant. -/
theorem stepKeepsInvariant : Obligations.StepKeepsInvariant := by
  intro s t hs h
  cases stepTo_of_step h with
  | absorbed => exact hs
  | ended hr =>
    obtain ⟨hl, he⟩ := hs.of_running hr
    exact State.Sane.inv hs.1 hl he nofun
  | completed hr u p hu =>
    obtain ⟨hl, he⟩ := hs.of_running hr
    obtain ⟨-, ⟨hlatch, hrun, herr, -⟩, hsane⟩ := hu
    exact State.Sane.inv (s := { u with pc := p }) (hsane hs.1) (hlatch.trans hl) (herr.trans he) (by simp [hrun, hr])
  | raised hr e l hlatch => exact errorHalt_inv hs.1 (hs.of_running hr).1 hlatch

/-! ### The range of PC (R32) -/

/-- PC never wraps: an address up to M is below 2^63, so its 64-bit pattern reads back as itself. -/
theorem NextPc.inRange {s : State} {p : Word} (hs : s.Sane) (h : NextPc s p) : 0 ≤ p.toInt ∧ p.toInt ≤ s.memSize := by
  obtain ⟨-, -, hsize, -⟩ := hs
  obtain ⟨w, hlo, hhi, rfl⟩ | ⟨hlo, hhi⟩ := h
  · unfold Config.maxMemSize at hsize
    rw [BitVec.toInt_ofInt_eq_self (by decide) (by omega) (by omega)]
    omega
  · omega

/-- Settles O53: PC stays, or it moves past bytes inside Memory or to a legal target. -/
theorem stepKeepsPcInRange : Obligations.StepKeepsPcInRange := by
  intro s t hs hpc h
  cases stepTo_of_step h with
  | absorbed | ended | raised => exact hpc
  | completed hr u p hu hp =>
    simpa only [State.PcInRange, hu.memSize] using hp.inRange hs

/-! ### The canonical form of MEM, the reachable states and LATCH -/

/-- Settles O18: cell by cell, the least listed addresses agree, and so do the bytes there. -/
theorem canonicalMemoriesAreExtensional : Obligations.CanonicalMemoriesAreExtensional :=
  fun _ _ _ _ h h' e => Memory.ext_read h h' e

theorem initial_inv {m n : Nat} (b : Bool) (hnm : n ≤ m) (hm : m ≤ Config.maxMemSize) : (State.initial m n b).Inv :=
  State.Sane.inv ⟨Nat.zero_le n, hnm, hm, rfl⟩ rfl rfl nofun

theorem validSizes_iff (m n : Int) : validSizes m n = true ↔ 0 ≤ n ∧ n ≤ m ∧ m ≤ Config.maxMemSize := by
  simp [validSizes, and_assoc]

theorem construct_inv {m n : Int} {b : Bool} {s : State} (h : construct m n b = .engine s) : s.Inv := by
  unfold construct at h
  split at h
  · next hv =>
    obtain ⟨rfl⟩ := h
    obtain ⟨_, _, _⟩ := (validSizes_iff m n).mp hv
    exact initial_inv b (by omega) (by omega)
  · exact nomatch h

/-- Load writes inside Memory or not at all (R303, R304). -/
theorem hostLoad_inv {s : State} (bs : List Byte) (hs : s.Inv) : (hostLoad bs s).2.Inv := by
  obtain ⟨hsane, hctl⟩ := hs
  unfold hostLoad
  split
  · next hv =>
    have hlen : bs.length ≤ s.memSize := by simpa [validProgram] using hv
    exact ⟨Sane.withMem hsane (Memory.writeBytes_wf hsane.2.2.2 0 bs (by omega)), hctl⟩
  · exact ⟨hsane, hctl⟩

/-- Settles O52, by induction on how the state was reached. -/
theorem invariantHoldsInReachableStates : Obligations.InvariantHoldsInReachableStates := by
  intro s h
  induction h with
  | construct m n b s h => exact construct_inv h
  | load s bs _ ih => exact hostLoad_inv bs ih
  | setPC s v _ ih => exact ih
  | step s t _ h ih => exact stepKeepsInvariant s t ih h

/-- Only a raise changes LATCH: a stack error of an untripped Stack, which the error halt records. -/
theorem StepTo.latch_cases {s t : State} (h : StepTo s t) :
    t.latch = s.latch ∨
    (s.latch = .active ∧ t.latch = .overflowed ∧ t.runState = .haltedError ∧ t.err = some .stackOverflow) ∨
    (s.latch = .active ∧ t.latch = .underflowed ∧ t.runState = .haltedError ∧ t.err = some .stackUnderflow) := by
  cases h with
  | absorbed | ended => exact .inl rfl
  | completed hr u p hu =>
    obtain ⟨-, ⟨hlatch, -⟩, -⟩ := hu
    exact .inl hlatch
  | raised hr e l hl =>
    obtain ⟨hl, -⟩ | ⟨ha, rfl, rfl⟩ | ⟨ha, rfl, rfl⟩ := hl
    · exact .inl hl
    · exact .inr (.inl ⟨ha, rfl, rfl, rfl⟩)
    · exact .inr (.inr ⟨ha, rfl, rfl, rfl⟩)

/-- Settles O55: a step that changes LATCH trips an ACTIVE one by the stack error that it halts with. -/
theorem latchIsSticky : Obligations.LatchIsSticky := by
  intro s t h
  obtain hsame | ⟨ha, hl, hhalt⟩ | ⟨ha, hl, hhalt⟩ := (stepTo_of_step h).latch_cases
  · rw [hsame]
    exact ⟨fun _ => rfl, fun ha ho => by simp [ha] at ho, fun ha hu => by simp [ha] at hu⟩
  · exact ⟨fun hn => absurd ha hn, fun _ _ => hhalt, fun _ hu => by simp [hl] at hu⟩
  · exact ⟨fun hn => absurd ha hn, fun _ ho => by simp [hl] at ho, fun _ _ => hhalt⟩

/-! ### Reset and the STATUS word -/

/-- Settles O8: legal sizes are accepted, and the engine made is the initial state. -/
theorem constructLeavesResetState : Obligations.ConstructLeavesResetState := by
  intro m n trace hnm hm
  have hv : validSizes m n = true := (validSizes_iff m n).mpr (by unfold Config.maxMemSize; omega)
  exact ⟨State.initial m n trace, if_pos hv, fun _ => rfl, rfl, rfl, rfl, rfl, rfl, rfl, rfl, rfl⟩

/-- Settles O51: the sizes chosen for reset are legal. -/
theorem resetMeetsInvariant : Obligations.ResetMeetsInvariant :=
  initial_inv _ (by decide) (by decide)

/-- The fields of a word put together from a 2-bit, a 2-bit and a 4-bit code. -/
theorem packed_fields {r l e : Nat} (hr : r < 4) (hl : l < 4) (he : e < 16) :
    (BitVec.ofNat 64 (r + 4 * l + 16 * e)).extractLsb' 0 2 = BitVec.ofNat 2 r ∧
    (BitVec.ofNat 64 (r + 4 * l + 16 * e)).extractLsb' 2 2 = BitVec.ofNat 2 l ∧
    (BitVec.ofNat 64 (r + 4 * l + 16 * e)).extractLsb' 4 4 = BitVec.ofNat 4 e ∧
    (BitVec.ofNat 64 (r + 4 * l + 16 * e)).extractLsb' 8 56 = 0#56 := by
  refine ⟨?_, ?_, ?_, ?_⟩ <;>
  · apply BitVec.eq_of_toNat_eq
    simp only [BitVec.extractLsb'_toNat, BitVec.toNat_ofNat, Nat.shiftRight_eq_div_pow]
    omega

/-- Settles O15: the codes fit their fields, and each is the literal R42 gives. -/
theorem statusWordPacksFields : Obligations.StatusWordPacksFields := by
  intro s
  have hr : runStateCode s.runState < 4 := by cases s.runState <;> decide
  have hl : latchCode s.latch < 4 := by cases s.latch <;> decide
  have he : errCode s.err < 16 := by
    rcases s.err with _ | e
    · decide
    · cases e <;> decide
  obtain ⟨hrun, hlatch, herr, hrest⟩ := packed_fields hr hl he
  refine ⟨hrun.trans ?_, hlatch.trans ?_, herr.trans ?_, hrest⟩
  · cases s.runState <;> rfl
  · cases s.latch <;> rfl
  · rcases s.err with _ | e
    · rfl
    · cases e <;> rfl

end Sys2Proof.Machine
end

section
/-! PROOFS, 20_memory.md. The Memory unit (R61 to R63), the Stack unit (R70 to R77) and the coherent fetch (R83), from the equation each operation has on a sane state. -/
namespace Sys2Proof.Machine

variable {s : State}

/-! ### The Memory unit (R61 to R63) -/

/-- The little-endian value of bytes is their sum, each weighted by its place (R62). -/
theorem Memory.readLE_eq_sum (m : Memory) (a n : Nat) :
    m.readLE a n = ∑ k ∈ Finset.range n, (m.read (a + k)).toNat * 2 ^ (8 * k) := by
  induction n generalizing a with
  | zero => rfl
  | succ n ih =>
    have shift : ∀ k, (m.read (a + 1 + k)).toNat * 2 ^ (8 * k) * 256 =
        (m.read (a + (k + 1))).toNat * 2 ^ (8 * (k + 1)) := fun k => by
      rw [show a + 1 + k = a + (k + 1) by omega, show 8 * (k + 1) = 8 * k + 8 by omega, Nat.pow_add, Nat.mul_assoc]
    rw [Memory.readLE, ih, Finset.sum_range_succ', Nat.mul_comm 256, Finset.sum_mul, Finset.sum_congr rfl fun k _ => shift k]
    simp [Nat.add_comm]

/-- Below address 0 or past M an access is out of bounds (R61). -/
theorem not_inBounds {a : Int} {n : Nat} (h : a < 0 ∨ s.memSize < a + n) : ¬ inBounds s a n := by omega

/-- Settles O16: the recursion of a little-endian read is the weighted sum of its bytes. -/
theorem memReadIsLittleEndian : Obligations.MemReadIsLittleEndian := by
  intro s a n
  constructor
  · intro hin
    rw [memRead_ok hin, Memory.readLE_eq_sum]
    rfl
  · exact fun hout => memRead_raised (not_inBounds hout)

/-- Settles O17: the bytes written hold the value, those outside keep theirs, and the list of cells stays canonical. -/
theorem memWriteIsAllOrNothing : Obligations.MemWriteIsAllOrNothing := by
  intro s a n v hs
  constructor
  · intro hin
    exact ⟨_, memWrite_ok v hin, rfl, rfl, .refl s, holds_writeLE hs v (by omega),
      fun _ hx => byteAt_writeLE_outside s _ n v hx, Sane.writeLE hs v hin⟩
  · exact fun hout => memWrite_raised v (not_inBounds hout)

/-! ### The Stack unit (R70 to R77) -/

/-- Slot i of the window, as an unbounded integer that is not negative, is the byte at M − S + i (R70). -/
theorem slotAddress_toNat_eq (hs : s.Sane) {i : Int} (hi : 0 ≤ i) :
    (slotAddress s i).toNat = s.memSize - s.stackSize + i.toNat := by
  obtain ⟨-, hwindow, -⟩ := hs
  unfold slotAddress
  omega

/-- Below slot 0 or past S a peek or poke is outside the window (R73, R74; D9). -/
theorem not_inWindow {i : Int} {n : Nat} (h : i < 0 ∨ s.stackSize < i + n) : ¬ inWindow s i n := by omega

theorem peek_outside (ha : s.latch = .active) {off : Int} {n : Nat} (h : s.sp + off < 0 ∨ s.stackSize < s.sp + off + n) :
    peek off n s = .raised .memoryError s := by
  rw [peek, if_neg (by simp [ha]), if_neg (not_inWindow h)]

theorem poke_outside (ha : s.latch = .active) {off : Int} {n : Nat} (v : Nat)
    (h : s.sp + off < 0 ∨ s.stackSize < s.sp + off + n) : poke off n v s = .raised .memoryError s := by
  rw [poke, if_neg (by simp [ha]), if_neg (not_inWindow h)]

/-- A peek inside the window gives the bytes that stand there. -/
theorem peek_inside (hs : s.Sane) (ha : s.latch = .active) {off : Int} {n : Nat} (h : inWindow s (s.sp + off) n) :
    peek off n s = .ok (s.mem.readLE (s.memSize - s.stackSize + (s.sp + off).toNat) n) s := by
  rw [peek_eq hs, if_neg (by simp [ha]), if_pos h, slotAddress_toNat_eq hs h.1]

/-- A poke inside the window writes the bytes there and moves nothing. -/
theorem poke_inside (hs : s.Sane) (ha : s.latch = .active) {off : Int} {n : Nat} (v : Nat)
    (h : inWindow s (s.sp + off) n) : poke off n v s =
      .ok () { s with mem := s.mem.writeLE (s.memSize - s.stackSize + (s.sp + off).toNat) n v } := by
  rw [poke_eq hs, if_neg (by simp [ha]), if_pos h, slotAddress_toNat_eq hs h.1]

/-- Settles O19: the latch, the room above SP, and then the pushed state. -/
theorem pushUnitRule : Obligations.PushUnitRule := by
  intro s n v hs
  rw [← slot_eq hs]
  exact ⟨fun hb => push_blocked hb n v, fun ha hover => push_overflows ha hover v,
    fun ha hfit => ⟨_, push_fits hs ha v hfit, rfl, rfl, .refl s, pushed_holds hs v hfit, fun _ => pushed_outside s n v⟩⟩

/-- Settles O20: the latch, the bytes below SP, and then the value they hold. -/
theorem popUnitRule : Obligations.PopUnitRule := by
  intro s n hs
  rw [← slot_eq hs]
  refine ⟨fun hb => pop_blocked hb n, fun ha hunder => pop_underflows ha hunder, fun ha hfit v hv hheld => ?_⟩
  rw [pop_holds hs ha hfit hheld, Nat.mod_eq_of_lt hv]

/-- Settles O21: the latch, the window, and then the value the bytes hold. -/
theorem peekUnitRule : Obligations.PeekUnitRule := by
  intro s off n hs
  refine ⟨fun hb => peek_blocked hb off n, fun ha hout => peek_outside ha hout, fun ha hlo hhi v hv hheld => ?_⟩
  rw [peek_inside hs ha ⟨hlo, hhi⟩, hheld.readLE, Nat.mod_eq_of_lt hv]

/-- Settles O22: the latch, the window, and then the write. -/
theorem pokeUnitRule : Obligations.PokeUnitRule := by
  intro s off n v hs
  refine ⟨fun hb => poke_blocked hb off n v, fun ha hout => poke_outside ha v hout, fun ha hlo hhi => ?_⟩
  have hroom : s.memSize - s.stackSize + (s.sp + off).toNat + n ≤ s.memSize := by
    obtain ⟨-, hwindow, -⟩ := hs
    omega
  exact ⟨_, poke_inside hs ha v ⟨hlo, hhi⟩, rfl, rfl, .refl s, holds_writeLE hs v hroom,
    fun _ hx => byteAt_writeLE_outside s _ n v hx⟩

/-- A push that succeeds found the latch ACTIVE and room above SP, and left the pushed state. -/
theorem push_ok_inv (hs : s.Sane) {n v : Nat} {t : State} (h : push n v s = .ok () t) :
    s.latch = .active ∧ s.sp + n ≤ s.stackSize ∧ t = s.pushed n v := by
  rw [push_eq hs] at h
  split at h
  · exact nomatch h
  · next hlatch =>
    split at h
    · exact nomatch h
    · next hroom =>
      obtain ⟨-, rfl⟩ := h
      exact ⟨not_not.mp hlatch, by omega, rfl⟩

/-- Popping what was pushed gives the value's low bytes, and SP is back where it was (R77). -/
theorem pop_pushed (hs : s.Sane) (ha : s.latch = .active) {n : Nat} (v : Nat) (h : s.sp + n ≤ s.stackSize) :
    pop n (s.pushed n v) = .ok (v % 256 ^ n) { s.pushed n v with sp := s.sp } := by
  have hsp : (s.pushed n v).sp - n = s.sp := Nat.add_sub_cancel s.sp n
  have hheld : Holds (s.pushed n v) ((s.pushed n v).slot ((s.pushed n v).sp - n)) n v := by
    rw [hsp]
    exact pushed_holds hs v h
  rw [pop_holds (Sane.pushed hs v h) ha (Nat.le_add_left n s.sp) hheld, hsp]

/-- Settles O23: the pop reads the bytes the push wrote, at the SP the push began from. -/
theorem pushPopRoundTrip : Obligations.PushPopRoundTrip := by
  intro s t w v hs hv hpush
  obtain ⟨ha, hroom, rfl⟩ := push_ok_inv hs hpush
  have hpop := pop_pushed hs ha v hroom
  rw [Nat.mod_eq_of_lt hv] at hpop
  exact ⟨_, hpop, rfl⟩

/-! ### The fetch reads the bytes of Memory (R83, R112) -/

/-- A value that fits in `n` bytes is read back from them unchanged. -/
theorem leValue_leBytes_of_lt {n v : Nat} (h : v < 256 ^ n) : leValue (leBytes n v) = v := by
  rw [leValue_leBytes, Nat.mod_eq_of_lt h]

/-- An instruction that its own row of the opcode table builds again is what its encoding decodes to, whatever follows
(R107, R115). -/
theorem decode_encode_of_tableRow {i : Instr} (h : Laws.TableRow.Statement i) (rest : List Byte) :
    decode (encode i ++ rest) = .ok (i, rest) := by
  obtain ⟨⟨op, mnemonic, shape⟩, hrow, -, hbuild⟩ := h
  cases shape with
  | f0 j =>
    obtain ⟨rfl, hbytes⟩ := hbuild
    simp [decode, encode, hrow, hbytes, Shape.operandWidth]
  | f1 mk =>
    obtain ⟨x, rfl, hbytes⟩ := hbuild
    have hvalue := leValue_leBytes_of_lt (n := 1) x.isLt
    simp [decode, encode, hrow, hbytes, Shape.operandWidth, List.take_left', List.drop_left', hvalue]
  | f8 mk =>
    obtain ⟨x, rfl, hbytes⟩ := hbuild
    have hvalue := leValue_leBytes_of_lt (n := 8) x.isLt
    simp [decode, encode, hrow, hbytes, Shape.operandWidth, List.take_left', List.drop_left', hvalue]

/-- No encoding is longer than the bytes the fetch looks at (R101). -/
theorem encode_length_le_of_tableRow {i : Instr} (h : Laws.TableRow.Statement i) : (encode i).length ≤ maxInstrBytes := by
  obtain ⟨⟨op, mnemonic, shape⟩, -, -, hbuild⟩ := h
  cases shape with
  | f0 j =>
    obtain ⟨-, hbytes⟩ := hbuild
    simp [encode, hbytes, maxInstrBytes]
  | f1 mk | f8 mk =>
    obtain ⟨x, -, hbytes⟩ := hbuild
    simp [encode, hbytes, maxInstrBytes]

/-- What the fetch sees begins with the bytes of the instruction at PC. -/
theorem fetchBytes_take_of_instrAtPC {i : Instr} (hlen : (encode i).length ≤ maxInstrBytes) (h : InstrAtPC i s) :
    (fetchBytes s).take (encode i).length = encode i := by
  obtain ⟨hlo, hhi, hbytes⟩ := h
  have hpos : 0 < (encode i).length := Nat.succ_pos _
  have hfetchable : (encode i).length ≤ fetchableBytes s := by
    rw [fetchableBytes, if_pos ⟨hlo, by omega⟩]
    omega
  rw [fetchBytes, Memory.bytes_take _ _ hfetchable]
  apply List.ext_getElem?
  intro k
  by_cases hk : k < (encode i).length
  · rw [Memory.bytes_getElem? _ _ hk]
    exact hbytes k hk
  · rw [List.getElem?_eq_none (by simp; omega), List.getElem?_eq_none (by omega)]

/-- The fetch gives the instruction whose bytes stand at PC. -/
theorem fetch_of_instrAtPC {i : Instr} (hrow : Laws.TableRow.Statement i) (h : InstrAtPC i s) : fetch s = .ok i := by
  have htake := fetchBytes_take_of_instrAtPC (encode_length_le_of_tableRow hrow) h
  rw [fetch, ← List.take_append_drop (encode i).length (fetchBytes s), htake, decode_encode_of_tableRow hrow]

/-- A running engine executes the instruction whose bytes stand at PC (R112). -/
theorem step_of_instrAtPC {i : Instr} (hr : s.runState = .running) (hrow : Laws.TableRow.Statement i)
    (h : InstrAtPC i s) : step s = exec i s := by
  rw [step, hr, fetch_of_instrAtPC hrow h]

/-- Where the byte 0x00 stands at PC, inside Memory, a running engine halts cleanly (R232). -/
theorem step_of_zero_at_pc (hr : s.runState = .running) (hlo : 0 ≤ s.pc.toInt) (hhi : s.pc.toInt < s.memSize)
    (h : s.byteAt s.pc.toInt.toNat = 0x00) : step s = .next { s with runState := .haltedClean } := by
  have hend : InstrAtPC .endOp s := by
    refine ⟨hlo, by simp [encode, Instr.operandBytes]; omega, fun k hk => ?_⟩
    obtain rfl : k = 0 := by simpa [encode, Instr.operandBytes] using hk
    exact congrArg some h
  exact step_of_instrAtPC hr Laws.TableRow.endOp hend

/-- put-T and put-T-address, once their address is known and legal: the value on top of the Stack goes there (R140, R146). -/
theorem putTo_holds (hs : s.Sane) (ha : s.latch = .active) {ty : Ty} {a : Int} {v : Nat} (hn : ty.width ≤ s.sp)
    (hheld : Holds s (s.slot (s.sp - ty.width)) ty.width v) (hin : inBounds s a ty.width) :
    putTo ty a s =
      .ok .advance { s with sp := s.sp - ty.width, mem := s.mem.writeLE a.toNat ty.width v } := by
  rw [putTo, pop_holds hs ha hn hheld, Res.bind_ok, memWrite_ok (s := { s with sp := s.sp - ty.width }) _ hin,
    Res.thenAdvance_ok, Memory.writeLE_mod]

/-- Settles O60: the store leaves 0x00 at PC0 + 9, where PC then stands, and the next fetch reads Memory as it is. -/
theorem fetchSeesStoredByte : Obligations.FetchSeesStoredByte := by
  intro s a hs hr ha hsp hat hnext hmem htop
  have hlo : 0 ≤ a.toInt := by
    obtain ⟨hpc, -⟩ := hat
    omega
  have hput : putTo .byte (sext64 a) s =
      .ok .advance { s with sp := s.sp - 1, mem := s.mem.writeLE a.toInt.toNat 1 0x00 } :=
    putTo_holds hs ha hsp htop ⟨hlo, by simp only [sext64, Ty.width]; omega⟩
  have hpc : BitVec.ofInt 64 (s.pc.toInt + 1 + (8 : Nat)) = a := by
    rw [show s.pc.toInt + 1 + (8 : Nat) = a.toInt by omega, BitVec.ofInt_toInt]
  have hstored : (s.mem.writeLE a.toInt.toNat 1 0x00).read a.toInt.toNat = 0x00 :=
    holds_writeLE hs 0x00 (by omega) 0 Nat.one_pos
  refine ⟨{ s with sp := s.sp - 1, mem := s.mem.writeLE a.toInt.toNat 1 0x00, pc := a }, ?_, rfl,
    step_of_zero_at_pc hr hlo hmem hstored⟩
  calc step s = exec (.putByteAddress a) s := step_of_instrAtPC hr (Laws.TableRow.putByteAddress a) hat
    _ = commit 8 s (putTo .byte (sext64 a) s) := rfl
    _ = _ := by rw [hput, commit_advance, hpc]

end Sys2Proof.Machine
end

section
/-! PROOFS, 30_encoding.md. Encoding and decoding invert each other (R100 to R107, R115), the opcode byte alone fixes the format (R107, R108, R110), and the step runs what it fetched or halts with the error of its fetch (R112, R114). -/
namespace Sys2Proof.Machine

variable {s : State} {op : Byte} {row : OpRow}

/-! ### Decoding inverts encoding -/

open Laws in
/-- Every instruction is built again by its own row of the opcode table. -/
theorem tableRow_of_instr (i : Instr) : TableRow.Statement i := by
  cases i with
  | pushByte x => exact TableRow.pushByte x
  | pushInt x => exact TableRow.pushInt x
  | pushFloat x => exact TableRow.pushFloat x
  | popByte => exact TableRow.popByte
  | popInt => exact TableRow.popInt
  | popFloat => exact TableRow.popFloat
  | getByte => exact TableRow.getByte
  | getInt => exact TableRow.getInt
  | getFloat => exact TableRow.getFloat
  | putByte => exact TableRow.putByte
  | putInt => exact TableRow.putInt
  | putFloat => exact TableRow.putFloat
  | getByteAddress x => exact TableRow.getByteAddress x
  | getIntAddress x => exact TableRow.getIntAddress x
  | getFloatAddress x => exact TableRow.getFloatAddress x
  | putByteAddress x => exact TableRow.putByteAddress x
  | putIntAddress x => exact TableRow.putIntAddress x
  | putFloatAddress x => exact TableRow.putFloatAddress x
  | getByteStack x => exact TableRow.getByteStack x
  | getIntStack x => exact TableRow.getIntStack x
  | getFloatStack x => exact TableRow.getFloatStack x
  | putByteStack x => exact TableRow.putByteStack x
  | putIntStack x => exact TableRow.putIntStack x
  | putFloatStack x => exact TableRow.putFloatStack x
  | addByte => exact TableRow.addByte
  | addInt => exact TableRow.addInt
  | addFloat => exact TableRow.addFloat
  | subByte => exact TableRow.subByte
  | subInt => exact TableRow.subInt
  | subFloat => exact TableRow.subFloat
  | mulByte => exact TableRow.mulByte
  | mulInt => exact TableRow.mulInt
  | mulFloat => exact TableRow.mulFloat
  | divByte => exact TableRow.divByte
  | divInt => exact TableRow.divInt
  | divFloat => exact TableRow.divFloat
  | equalByte => exact TableRow.equalByte
  | equalInt => exact TableRow.equalInt
  | equalFloat => exact TableRow.equalFloat
  | unequalByte => exact TableRow.unequalByte
  | unequalInt => exact TableRow.unequalInt
  | unequalFloat => exact TableRow.unequalFloat
  | greaterByte => exact TableRow.greaterByte
  | greaterInt => exact TableRow.greaterInt
  | greaterFloat => exact TableRow.greaterFloat
  | smallerByte => exact TableRow.smallerByte
  | smallerInt => exact TableRow.smallerInt
  | smallerFloat => exact TableRow.smallerFloat
  | andByte => exact TableRow.andByte
  | orByte => exact TableRow.orByte
  | notByte => exact TableRow.notByte
  | xorByte => exact TableRow.xorByte
  | endOp => exact TableRow.endOp
  | ret => exact TableRow.ret
  | jmp x => exact TableRow.jmp x
  | jmpzByte => exact TableRow.jmpzByte
  | jmpzInt => exact TableRow.jmpzInt
  | jmpzFloat => exact TableRow.jmpzFloat
  | jmpzByteAddress x => exact TableRow.jmpzByteAddress x
  | jmpzIntAddress x => exact TableRow.jmpzIntAddress x
  | jmpzFloatAddress x => exact TableRow.jmpzFloatAddress x
  | jmpnzByte => exact TableRow.jmpnzByte
  | jmpnzInt => exact TableRow.jmpnzInt
  | jmpnzFloat => exact TableRow.jmpnzFloat
  | jmpnzByteAddress x => exact TableRow.jmpnzByteAddress x
  | jmpnzIntAddress x => exact TableRow.jmpnzIntAddress x
  | jmpnzFloatAddress x => exact TableRow.jmpnzFloatAddress x
  | call => exact TableRow.call
  | callAddress x => exact TableRow.callAddress x

/-- Settles O1: the row of the instruction's opcode reads back the operand that the encoder wrote. -/
theorem decodeInvertsEncode : Obligations.DecodeInvertsEncode :=
  fun i rest => decode_encode_of_tableRow (tableRow_of_instr i) rest

/-- Bytes decode when they are seen to begin with an encoding. -/
theorem decode_of_eq_encode {bytes rest : List Byte} {i : Instr} (h : bytes = encode i ++ rest) :
    decode bytes = .ok (i, rest) := by
  rw [h, decodeInvertsEncode]

/-- Settles O5: each byte sequence begins with the encoding of the instruction named. -/
theorem writtenOutBytesDecode : Obligations.WrittenOutBytesDecode :=
  ⟨decode_of_eq_encode (by decide), decode_of_eq_encode (by decide), decode_of_eq_encode (by decide),
    decode_of_eq_encode (by decide), decode_of_eq_encode (by decide), decode_of_eq_encode (by decide),
    decode_of_eq_encode (by decide)⟩

/-! ### Encoding inverts decoding -/

/-- The encoder writes each instruction that the row builds as the row's opcode and the operand it is built from. -/
def EncodesRow (row : OpRow) : Prop :=
  match row.shape with
  | .f0 i => encode i = [row.opcode]
  | .f1 mk => ∀ x, encode (mk x) = row.opcode :: leBytes 1 x.toNat
  | .f8 mk => ∀ x, encode (mk x) = row.opcode :: leBytes 8 x.toNat

theorem encodesRow_of_mem_table : ∀ row ∈ opcodeTable, EncodesRow row := by
  simp only [opcodeTable, dataMovementRows, arithmeticRows, compareLogicRows, controlFlowRows, List.cons_append,
    List.nil_append, List.forall_mem_cons, List.not_mem_nil, false_imp_iff, implies_true, and_true, EncodesRow]
  simp [encode, Instr.opcode, Instr.operandBytes]

/-- The row that the lookup finds bears the opcode looked up. -/
theorem opcode_of_lookup (h : lookupOpcode op = some row) : row.opcode = op := by
  simpa using List.find?_some h

/-- No bit of an operand is ignored: encoding the value of the first `n` bytes gives those bytes back (R106). -/
theorem leBytes_of_take {w : Nat} (n : Nat) (hw : 2 ^ w = 256 ^ n) {bs : List Byte} (h : n ≤ bs.length) :
    leBytes n (BitVec.ofNat w (leValue (bs.take n))).toNat = bs.take n := by
  have hlen : (bs.take n).length = n := by simp [h]
  have hlt := leValue_lt (bs.take n)
  have hback := leBytes_leValue (bs.take n)
  rw [hlen] at hlt hback
  rw [BitVec.toNat_ofNat, hw, Nat.mod_eq_of_lt hlt, hback]

/-- Settles O2: the row that decoded the bytes encodes its instruction as its own opcode and the operand bytes it read. -/
theorem encodeInvertsDecode : Obligations.EncodeInvertsDecode := by
  intro bytes rest i h
  cases bytes with
  | nil => exact nomatch h
  | cons op tail =>
    cases hrow : lookupOpcode op with
    | none => simp [decode, hrow] at h
    | some row =>
      have henc := encodesRow_of_mem_table row (List.mem_of_find?_eq_some hrow)
      obtain rfl := opcode_of_lookup hrow
      obtain ⟨op, mnemonic, shape⟩ := row
      simp only [decode, hrow] at h
      split at h
      · exact nomatch h
      · next hlen =>
        rw [Nat.not_lt] at hlen
        cases shape with
        | f0 j =>
          obtain ⟨rfl, rfl⟩ := h
          rw [henc, List.singleton_append]
        | f1 mk =>
          obtain ⟨rfl, rfl⟩ := h
          rw [henc, leBytes_of_take 1 rfl hlen, List.cons_append, List.take_append_drop]
        | f8 mk =>
          obtain ⟨rfl, rfl⟩ := h
          rw [henc, leBytes_of_take 8 rfl hlen, List.cons_append, List.take_append_drop]

/-! ### What the opcode byte fixes -/

/-- opw of R107, by the opcode lists of R101. -/
def operandWidthOf (op : Byte) : Nat := if op = 0x08#8 then 1 else if f8Opcode op then 8 else 0

/-- The opcode table against the lists of R101 and R110, over all 256 values: it has no row for an undefined opcode, and
for every other one a row of the format listed. -/
theorem lookupOpcode_operandWidth : ∀ op : Byte, (lookupOpcode op).map (fun row => row.shape.operandWidth) =
    if undefinedOpcode op then none else some (operandWidthOf op) := by
  decide +kernel

theorem lookupOpcode_eq_none_iff : lookupOpcode op = none ↔ undefinedOpcode op = true := by
  rw [← Option.map_eq_none_iff (f := fun row => row.shape.operandWidth), lookupOpcode_operandWidth]
  simp

theorem operandWidth_of_lookup (h : lookupOpcode op = some row) : row.shape.operandWidth = operandWidthOf op := by
  have hwidth := lookupOpcode_operandWidth op
  rw [h] at hwidth
  split at hwidth
  · exact nomatch hwidth
  · exact Option.some.inj hwidth

/-- An instruction has as many operand bytes as its opcode says (R107). -/
theorem operandBytes_length (i : Instr) : i.operandBytes.length = operandWidthOf i.opcode := by
  obtain ⟨row, hrow, -, hbuild⟩ := tableRow_of_instr i
  rw [← operandWidth_of_lookup hrow]
  cases hshape : row.shape with
  | f0 j =>
    obtain ⟨-, hbytes⟩ := hshape ▸ hbuild
    rw [hbytes]; rfl
  | f1 mk | f8 mk =>
    obtain ⟨x, -, hbytes⟩ := hshape ▸ hbuild
    rw [hbytes, leBytes_length]; rfl

/-- Settles O3: what decoded is an encoding, whose opcode byte fixes its operand bytes. -/
theorem lengthIsFixedByOpcode : Obligations.LengthIsFixedByOpcode := by
  intro op bytes rest i h
  have hbytes := encodeInvertsDecode _ _ _ h
  obtain ⟨rfl, -⟩ := List.cons.inj hbytes
  rw [hbytes, List.length_append, encode, List.length_cons, operandBytes_length, operandWidthOf]
  omega

/-! ### Bytes that do not decode -/

theorem decode_of_lookup_none (h : lookupOpcode op = none) (rest : List Byte) :
    decode (op :: rest) = .error (.unknownOpcode op) := by
  rw [decode, h]

/-- An operand that is cut short (R114). -/
theorem decode_of_short_operand (h : lookupOpcode op = some row) {rest : List Byte}
    (hlen : rest.length < row.shape.operandWidth) : decode (op :: rest) = .error (.truncatedOperand row.mnemonic) := by
  simp only [decode, h, if_pos hlen]

/-- The decoder refuses an opcode by name exactly when it has no row for it. -/
theorem decode_unknown_iff (op : Byte) (rest : List Byte) :
    decode (op :: rest) = .error (.unknownOpcode op) ↔ undefinedOpcode op = true := by
  rw [← lookupOpcode_eq_none_iff]
  refine ⟨fun h => ?_, fun h => decode_of_lookup_none h rest⟩
  cases hrow : lookupOpcode op with
  | none => rfl
  | some row =>
    obtain ⟨_, _, shape⟩ := row
    simp only [decode, hrow] at h
    split at h
    · simp at h
    · cases shape <;> exact nomatch h

/-! ### The step of a running engine (R112) -/

theorem step_of_fetch {i : Instr} (hr : s.runState = .running) (h : fetch s = .ok i) : step s = exec i s := by
  rw [step, hr, h]

/-- Bytes at PC that do not decode halt the engine with the error of its fetch, and change nothing else (R114, R276). -/
theorem fetchRaises_of_decode {e : DecodeError} (hr : s.runState = .running) (h : decode (fetchBytes s) = .error e) :
    FetchRaises s (fetchError e) := by
  rw [FetchRaises, step, hr, fetch, h]
  rfl

/-- Settles O6: the fetch gives the instruction whose bytes stand at PC, and the step executes what was fetched. -/
theorem stepRunsDecodedInstruction : Obligations.StepRunsDecodedInstruction :=
  ⟨fun _ i hr h => step_of_instrAtPC hr (tableRow_of_instr i) h, fun _ _ => step_of_fetch⟩

/-- Settles O4: the table has no row for a listed value, and so no fetch of one decodes. -/
theorem undefinedOpcodesHalt : Obligations.UndefinedOpcodesHalt := by
  refine ⟨by decide +kernel, decode_unknown_iff, fun s hr hlo hhi hop => ?_⟩
  have hdecode : decode (fetchBytes s) = .error (.unknownOpcode (s.byteAt s.pc.toInt.toNat)) := by
    rw [fetchBytes_inside hlo hhi, decode_unknown_iff, hop]
  exact fetchRaises_of_decode hr hdecode

/-! ### Fetching past the end of Memory (R114) -/

/-- A defined opcode whose operand would extend past Memory raises MemoryError. -/
theorem operandPastEndRaises (hdef : undefinedOpcode op = false) : OperandPastEndRaises op (1 + operandWidthOf op) := by
  intro s hr hlo hhi hop hend
  cases hrow : lookupOpcode op with
  | none => simp [lookupOpcode_eq_none_iff.mp hrow] at hdef
  | some row =>
    have hshort : (s.mem.bytes (s.pc.toInt.toNat + 1) (min 8 (s.memSize - s.pc.toInt.toNat - 1))).length <
        row.shape.operandWidth := by
      rw [Memory.bytes_length, operandWidth_of_lookup hrow]
      omega
    have hdecode := decode_of_short_operand hrow hshort
    rw [← hop, ← fetchBytes_inside hlo hhi] at hdecode
    exact fetchRaises_of_decode hr hdecode

/-- The F8 opcodes are defined and have eight operand bytes. -/
theorem operandWidthOf_f8 : ∀ op : Byte, f8Opcode op = true → undefinedOpcode op = false ∧ operandWidthOf op = 8 := by
  decide +kernel

/-- Settles O7: outside Memory there is no opcode byte, and near its end too few operand bytes. -/
theorem fetchPastMemoryHalts : Obligations.FetchPastMemoryHalts := by
  refine ⟨fun s hr hout => ?_, fun op hop => ?_, operandPastEndRaises (op := 0x08) (by decide)⟩
  · exact fetchRaises_of_decode (e := .noOpcode) hr (by rw [fetchBytes_outside hout, decode])
  · obtain ⟨hdef, hwidth⟩ := operandWidthOf_f8 op hop
    have hraises := operandPastEndRaises hdef
    rwa [hwidth] at hraises

/-! ### Every step answers -/

/-- No way a step can go changes M, S or TRACE. -/
theorem StepTo.sizes {t : State} (h : StepTo s t) :
    t.memSize = s.memSize ∧ t.stackSize = s.stackSize ∧ t.traceOn = s.traceOn := by
  cases h with
  | absorbed | ended | raised => exact ⟨rfl, rfl, rfl⟩
  | completed hr u p hu =>
    obtain ⟨-, ⟨-, -, -, hsizes⟩, -⟩ := hu
    exact hsizes

/-- Settles O56: the inversion of the step holds in every state. -/
theorem stepAlwaysAnswers : Obligations.StepAlwaysAnswers := by
  intro s
  obtain ⟨t, hstep, hto⟩ := step_stepTo s
  exact ⟨t, hstep, hto.sizes⟩

end Sys2Proof.Machine
end

section
/-! PROOFS, 40_data_movement.md. Push, pop, get and put in their addressing modes (R130 to R154). The three instructions of a family are one body at the three types; what the body gives, raise by raise and when it completes, is said once and then committed. -/
namespace Sys2Proof.Machine

variable {s t : State} {i : Instr} {op : Byte} {operand : List Byte} {body : State → Res Flow}

/-! ### An instruction as its encoding and the commit of its body -/

theorem encodes_of_encode {bytes : List Byte} (h : encode i = bytes) : Encodes bytes i :=
  ⟨h, fun rest => decode_of_eq_encode (by rw [h])⟩

/-- The opcode byte of an instruction is none of the undefined values. -/
theorem undefinedOpcode_opcode (i : Instr) : undefinedOpcode i.opcode = false := by
  obtain ⟨row, hrow, -⟩ := tableRow_of_instr i
  rw [← Bool.not_eq_true, ← lookupOpcode_eq_none_iff, hrow]
  exact Option.some_ne_none row

/-- An instruction cut short by the end of Memory raises MemoryError (R114). -/
theorem operandPastEnd_of_encode (h : encode i = op :: operand) : OperandPastEndRaises op (1 + operand.length) := by
  obtain ⟨rfl, rfl⟩ := List.cons.inj h
  rw [operandBytes_length]
  exact operandPastEndRaises (undefinedOpcode_opcode i)

/-- The bytes of `i` are `op` and the operand, and `i` runs as the commit of `body`, whose default advance passes exactly
these bytes (R112, R113). -/
structure RunsBody (op : Byte) (operand : List Byte) (body : State → Res Flow) (i : Instr) : Prop where
  bytes : encode i = op :: operand
  meaning : ∀ s, exec i s = commit operand.length s (body s)

theorem RunsBody.encodes (h : RunsBody op operand body i) : Encodes (op :: operand) i := encodes_of_encode h.bytes

theorem RunsBody.operandPastEnd (h : RunsBody op operand body i) : OperandPastEndRaises op (1 + operand.length) :=
  operandPastEnd_of_encode h.bytes

/-- A raise of the body is the error halt, with LATCH as the raise left it (R279). -/
theorem RunsBody.raises (h : RunsBody op operand body i) {e : ErrorCode} {l : Latch} (hb : body s = .raised e t)
    (hl : t.latch = l) : Raises i s e l := by
  rw [Raises, h.meaning, hb, commit_raised, hl]
  rfl

theorem RunsBody.blockedWhenTripped (h : RunsBody op operand body i)
    (hb : ∀ s, s.latch ≠ .active → body s = .raised .blocked s) : BlockedWhenTripped i :=
  fun s hl => h.raises (hb s hl) rfl

/-- A body that moved SP and wrote some bytes of Memory completes the instruction. -/
theorem RunsBody.completes (h : RunsBody op operand body i) (hs : s.Sane) {sp lo n v : Nat} (hin : lo + n ≤ s.memSize)
    (hb : body s = .ok .advance { s with mem := s.mem.writeLE lo n v, sp := sp }) :
    Completes i s (s.pc + BitVec.ofNat 64 (1 + operand.length)) sp lo n v := by
  have hexec := h.meaning s
  rw [hb, commit_advance] at hexec
  exact ⟨_, hexec, advance_eq s.pc operand.length, rfl, .refl s, holds_writeLE hs v hin,
    fun x hx => byteAt_writeLE_outside s lo n v hx⟩

/-! ### The three instructions of a family -/

/-- The byte, int and float instruction of a family run its body at the three types (R13). -/
theorem family_runsBody {family : Ty → State → Res Flow} {opB opI opF : Byte} {iB iI iF : Instr} {w : Nat}
    (h : (op, i, w) ∈ [(opB, iB, 1), (opI, iI, 8), (opF, iF, 8)]) (hB : RunsBody opB operand (family .byte) iB)
    (hI : RunsBody opI operand (family .int) iI) (hF : RunsBody opF operand (family .float) iF) :
    ∃ ty : Ty, w = ty.width ∧ RunsBody op operand (family ty) i := by
  simp only [List.mem_cons, Prod.mk.injEq, List.not_mem_nil, or_false] at h
  obtain ⟨rfl, rfl, rfl⟩ | ⟨rfl, rfl, rfl⟩ | ⟨rfl, rfl, rfl⟩ := h
  · exact ⟨.byte, rfl, hB⟩
  · exact ⟨.int, rfl, hI⟩
  · exact ⟨.float, rfl, hF⟩

/-- An instruction with an eight-byte operand (F8), its bytes in the order of R101. -/
theorem runsBody_f8 {v : Word} (henc : encode i = op :: leBytes 8 v.toNat)
    (hexec : ∀ s, exec i s = commit 8 s (body s)) : RunsBody op (opnd64 v) body i :=
  ⟨by rw [henc, leBytes_eq_opnd64], hexec⟩

/-! ### Bodies that end in a push -/

/-- A push stores the low bytes of its value only. -/
theorem push_mod (n v : Nat) (s : State) : push n (v % 256 ^ n) s = push n v s := by
  simp only [push, memWrite, Memory.writeLE_mod]

section
variable {n v : Nat}

theorem RunsBody.blocked_of_push (h : RunsBody op operand body i) (hb : body s = (push n v s).thenAdvance)
    (hl : s.latch ≠ .active) : Raises i s .blocked s.latch :=
  h.raises (hb.trans (by rw [push_blocked hl, Res.thenAdvance_raised])) rfl

theorem RunsBody.overflows_of_push (h : RunsBody op operand body i) (hb : body s = (push n v s).thenAdvance)
    (ha : s.latch = .active) (hover : s.stackSize < s.sp + n) : Raises i s .stackOverflow .overflowed :=
  h.raises (hb.trans (by rw [push_overflows ha hover, Res.thenAdvance_raised])) rfl

/-- A push at SP = `p` that fits: the value stands in slot `p`, and SP is above it. -/
theorem RunsBody.completes_of_push (h : RunsBody op operand body i) (hs : s.Sane) (ha : s.latch = .active) {p : Nat}
    (hfit : p + n ≤ s.stackSize) (hb : body s = (push n v { s with sp := p }).thenAdvance) :
    Completes i s (s.pc + BitVec.ofNat 64 (1 + operand.length)) (p + n) (s.slot p) n v := by
  have hsane : State.Sane { s with sp := p } := Sane.withSp hs (by omega)
  have hroom : s.slot p + n ≤ s.memSize := by
    have hslot := slot_eq hs p
    obtain ⟨-, hwindow, -⟩ := hs
    omega
  refine h.completes hs hroom ?_
  rw [hb, push_fits hsane ha v hfit]
  rfl

end

/-! ### push-T (R131 to R133) -/

/-- An instruction that pushes a value of `n` bytes and does no more. -/
theorem pushes_immediate {n v : Nat} (h : RunsBody op operand (fun s => (push n v s).thenAdvance) i) :
    BlockedWhenTripped i ∧ OverflowsBeyond i n ∧
    ∀ s : State, s.Sane → s.latch = .active → s.sp + n ≤ s.stackSize →
      Completes i s (s.pc + BitVec.ofNat 64 (1 + operand.length)) (s.sp + n) (s.slot s.sp) n v :=
  ⟨fun _ hl => h.blocked_of_push rfl hl, fun _ _ ha hover => h.overflows_of_push rfl ha hover,
    fun s hs ha hfit => h.completes_of_push (p := s.sp) hs ha hfit rfl⟩

theorem pushByte_runsBody (imm : Byte) :
    RunsBody 0x08 [imm] (fun s => (push 1 imm.toNat s).thenAdvance) (.pushByte imm) :=
  ⟨by simp [encode, Instr.opcode, Instr.operandBytes, leBytes], fun _ => rfl⟩

/-- Settles O24: each push-T is the push of its immediate. -/
theorem pushStoresImmediate : Obligations.PushStoresImmediate := by
  refine ⟨fun imm => (pushByte_runsBody imm).encodes, (pushByte_runsBody 0).operandPastEnd,
    fun imm => pushes_immediate (pushByte_runsBody imm), fun v op i h => ?_⟩
  have hrun : RunsBody op (opnd64 v) (fun s => (push 8 v.toNat s).thenAdvance) i := by
    simp only [List.mem_cons, Prod.mk.injEq, List.not_mem_nil, or_false] at h
    obtain ⟨rfl, rfl⟩ | ⟨rfl, rfl⟩ := h
    · exact runsBody_f8 rfl fun _ => rfl
    · exact runsBody_f8 rfl fun _ => rfl
  exact ⟨hrun.encodes, hrun.operandPastEnd, pushes_immediate hrun⟩

/-! ### pop-T (R134 to R136) -/

/-- A body that moved SP alone completes the instruction and stores nothing. -/
theorem RunsBody.completesStoringNothing (h : RunsBody op operand body i) {sp : Nat}
    (hb : body s = .ok .advance { s with sp := sp }) :
    CompletesStoringNothing i s (s.pc + BitVec.ofNat 64 (1 + operand.length)) sp := by
  have hexec := h.meaning s
  rw [hb, commit_advance] at hexec
  exact ⟨_, hexec, advance_eq s.pc operand.length, rfl, .refl s, fun _ => rfl⟩

/-- Settles O25: the latch, the bytes below SP, and then SP alone moves. -/
theorem popDiscardsTop : Obligations.PopDiscardsTop := by
  intro op i w h
  obtain ⟨ty, rfl, hrun⟩ := family_runsBody (family := fun ty s => (pop ty.width s).thenAdvance) h
    ⟨rfl, fun _ => rfl⟩ ⟨rfl, fun _ => rfl⟩ ⟨rfl, fun _ => rfl⟩
  refine ⟨hrun.encodes, hrun.blockedWhenTripped fun s hl => ?_, fun s hs ha hunder => ?_, fun s hs ha hfit => ?_⟩
  · rw [pop_blocked hl, Res.thenAdvance_raised]
  · have hbody : (pop ty.width s).thenAdvance = .raised .stackUnderflow { s with latch := .underflowed } := by
      rw [pop_underflows ha hunder, Res.thenAdvance_raised]
    exact hrun.raises hbody rfl
  · obtain ⟨v, hpop⟩ := pop_fits hs ha hfit
    exact hrun.completesStoringNothing (by rw [hpop, Res.thenAdvance_ok])

/-! ### Reading Memory and then pushing (R137, R143) -/

section
variable {ty : Ty} {a : Int} {v : Nat}

theorem getFrom_outside (h : a < 0 ∨ s.memSize < a + ty.width) : getFrom ty a s = .raised .memoryError s := by
  rw [getFrom, memRead_raised (not_inBounds h), Res.bind_raised]

/-- The value is read before the push. -/
theorem getFrom_inside (h : inBounds s a ty.width) (hheld : Holds s a.toNat ty.width v) :
    getFrom ty a s = (push ty.width v s).thenAdvance := by
  rw [getFrom, memRead_ok h, Res.bind_ok, hheld.readLE, push_mod]

end

/-! ### Popping the address (R130) -/

section
variable {f : Int → State → Res Flow}

theorem withPoppedAddress_blocked (hl : s.latch ≠ .active) : withPoppedAddress s f = .raised .blocked s := by
  rw [withPoppedAddress, popWord_blocked hl, Res.bind_raised]

theorem withPoppedAddress_underflows (ha : s.latch = .active) (h : s.sp < 8) :
    withPoppedAddress s f = .raised .stackUnderflow { s with latch := .underflowed } := by
  rw [withPoppedAddress, popWord, pop_underflows ha h, Res.bind_raised, Res.bind_raised]

/-- Eight bytes on the Stack are some address. -/
theorem withPoppedAddress_fits (hs : s.Sane) (ha : s.latch = .active) (h : 8 ≤ s.sp) :
    ∃ a, withPoppedAddress s f = f a { s with sp := s.sp - 8 } := by
  obtain ⟨v, hpop⟩ := pop_fits hs ha h
  exact ⟨_, by rw [withPoppedAddress, popWord, hpop, Res.bind_ok, Res.bind_ok]⟩

theorem withPoppedAddress_holds (hs : s.Sane) (ha : s.latch = .active) (h : 8 ≤ s.sp) {a : Word}
    (hheld : Holds s (s.slot (s.sp - 8)) 8 a.toNat) :
    withPoppedAddress s f = f a.toInt { s with sp := s.sp - 8 } := by
  rw [withPoppedAddress, popWord_holds hs ha h hheld, Res.bind_ok, sext64]

end

/-- Settles O26: the address is popped, Memory is read there, and the value is pushed into the slot of the address. -/
theorem getReadsPoppedAddress : Obligations.GetReadsPoppedAddress := by
  intro op i w h
  obtain ⟨ty, rfl, hrun⟩ := family_runsBody (family := fun ty s => withPoppedAddress s (getFrom ty)) h
    ⟨rfl, fun _ => rfl⟩ ⟨rfl, fun _ => rfl⟩ ⟨rfl, fun _ => rfl⟩
  refine ⟨hrun.encodes, hrun.blockedWhenTripped fun s hl => withPoppedAddress_blocked hl,
    fun s hs ha hunder => hrun.raises (withPoppedAddress_underflows ha hunder) rfl, fun s a hs ha hsp haddr => ?_⟩
  have hbody := withPoppedAddress_holds (f := getFrom ty) hs ha hsp haddr
  constructor
  · exact fun hout => hrun.raises (hbody.trans (getFrom_outside (s := { s with sp := s.sp - 8 }) hout)) ha
  · intro hlo hhi v hheld
    have hwidth : ty.width ≤ 8 := by cases ty <;> decide
    have hfit : s.sp - 8 + ty.width ≤ s.stackSize := by
      obtain ⟨hwindow, -⟩ := hs
      omega
    exact hrun.completes_of_push hs ha hfit (hbody.trans (getFrom_inside ⟨hlo, hhi⟩ hheld))

/-- Settles O28: Memory is read at the literal address first, and the value is then pushed. -/
theorem getReadsLiteralAddress : Obligations.GetReadsLiteralAddress := by
  intro a op i w h
  obtain ⟨ty, rfl, hrun⟩ := family_runsBody (family := fun ty s => getFrom ty a.toInt s) h
    (runsBody_f8 rfl fun _ => rfl) (runsBody_f8 rfl fun _ => rfl) (runsBody_f8 rfl fun _ => rfl)
  refine ⟨hrun.encodes, hrun.operandPastEnd, fun s hout => hrun.raises (getFrom_outside hout) rfl, fun s hlo hhi => ?_⟩
  have hbody := getFrom_inside (s := s) ⟨hlo, hhi⟩ (holds_readLE s _ ty.width)
  exact ⟨hrun.blocked_of_push hbody, fun _ ha hover => hrun.overflows_of_push hbody ha hover,
    fun hs ha hfit v hheld => hrun.completes_of_push (p := s.sp) hs ha hfit (getFrom_inside ⟨hlo, hhi⟩ hheld)⟩

/-! ### Popping and then writing Memory (R140, R146) -/

section
variable {ty : Ty} {a : Int}

theorem putTo_blocked (hl : s.latch ≠ .active) : putTo ty a s = .raised .blocked s := by
  rw [putTo, pop_blocked hl, Res.bind_raised]

theorem putTo_underflows (ha : s.latch = .active) (h : s.sp < ty.width) :
    putTo ty a s = .raised .stackUnderflow { s with latch := .underflowed } := by
  rw [putTo, pop_underflows ha h, Res.bind_raised]

theorem putTo_outside (hs : s.Sane) (ha : s.latch = .active) (hsp : ty.width ≤ s.sp)
    (h : a < 0 ∨ s.memSize < a + ty.width) :
    putTo ty a s = .raised .memoryError { s with sp := s.sp - ty.width } := by
  obtain ⟨v, hpop⟩ := pop_fits hs ha hsp
  rw [putTo, hpop, Res.bind_ok, memWrite_raised (s := { s with sp := s.sp - ty.width }) v (not_inBounds h),
    Res.thenAdvance_raised]

end

/-- Settles O27: the address and the value are popped, and the value is written at the address. -/
theorem putWritesPoppedAddress : Obligations.PutWritesPoppedAddress := by
  intro op i w h
  obtain ⟨ty, rfl, hrun⟩ := family_runsBody (family := fun ty s => withPoppedAddress s (putTo ty)) h
    ⟨rfl, fun _ => rfl⟩ ⟨rfl, fun _ => rfl⟩ ⟨rfl, fun _ => rfl⟩
  refine ⟨hrun.encodes, hrun.blockedWhenTripped fun s hl => withPoppedAddress_blocked hl, fun s hs ha hunder => ?_,
    fun s a v hs ha hsp haddr hheld => ?_⟩
  · by_cases hsp : s.sp < 8
    · exact hrun.raises (withPoppedAddress_underflows ha hsp) rfl
    · obtain ⟨a, hbody⟩ := withPoppedAddress_fits (f := putTo ty) hs ha (Nat.le_of_not_lt hsp)
      have hvalue : s.sp - 8 < ty.width := by omega
      exact hrun.raises (hbody.trans (putTo_underflows (s := { s with sp := s.sp - 8 }) ha hvalue)) rfl
  · have hbody := withPoppedAddress_holds (f := putTo ty) hs ha (by omega) haddr
    have hsane : State.Sane { s with sp := s.sp - 8 } := Sane.popped hs 8
    have hvalue : ty.width ≤ s.sp - 8 := by omega
    constructor
    · exact fun hout => hrun.raises (hbody.trans (putTo_outside hsane ha hvalue hout)) ha
    · exact fun hlo hhi => hrun.completes hs (by omega) (hbody.trans (putTo_holds hsane ha hvalue hheld ⟨hlo, hhi⟩))

/-- Settles O29: the value is popped and written at the literal address. -/
theorem putWritesLiteralAddress : Obligations.PutWritesLiteralAddress := by
  intro a op i w h
  obtain ⟨ty, rfl, hrun⟩ := family_runsBody (family := fun ty s => putTo ty a.toInt s) h
    (runsBody_f8 rfl fun _ => rfl) (runsBody_f8 rfl fun _ => rfl) (runsBody_f8 rfl fun _ => rfl)
  refine ⟨hrun.encodes, hrun.operandPastEnd, hrun.blockedWhenTripped fun s hl => putTo_blocked hl,
    fun s hs ha hunder => hrun.raises (putTo_underflows ha hunder) rfl,
    fun s v hs ha hsp hheld => ⟨fun hout => ?_, fun hlo hhi => ?_⟩⟩
  · exact hrun.raises (putTo_outside hs ha hsp hout) ha
  · exact hrun.completes hs (by omega) (putTo_holds hs ha hsp hheld ⟨hlo, hhi⟩)

/-! ### get-T-stack (R149 to R151) -/

section
variable {ty : Ty} {off : Word} {v : Nat}

theorem getAtOffset_blocked (hl : s.latch ≠ .active) : getAtOffset ty off s = .raised .blocked s := by
  rw [getAtOffset, peek_blocked hl, Res.bind_raised]

theorem getAtOffset_outside (ha : s.latch = .active)
    (h : s.sp + off.toInt < 0 ∨ s.stackSize < s.sp + off.toInt + ty.width) :
    getAtOffset ty off s = .raised .memoryError s := by
  rw [getAtOffset, sext64, peek_outside ha h, Res.bind_raised]

/-- The slot is read before the push. -/
theorem getAtOffset_inside (hs : s.Sane) (ha : s.latch = .active) (h : inWindow s (s.sp + off.toInt) ty.width)
    (hheld : Holds s (slotAddress s (s.sp + off.toInt)).toNat ty.width v) :
    getAtOffset ty off s = (push ty.width v s).thenAdvance := by
  rw [getAtOffset, sext64, peek_eq hs, if_neg (not_not.mpr ha), if_pos h, Res.bind_ok, hheld.readLE, push_mod]

end

/-- Settles O30: the latch, the window, and then the push of what stands in the slot. -/
theorem getCopiesStackSlot : Obligations.GetCopiesStackSlot := by
  intro off op i w h
  obtain ⟨ty, rfl, hrun⟩ := family_runsBody (family := fun ty s => getAtOffset ty off s) h
    (runsBody_f8 rfl fun _ => rfl) (runsBody_f8 rfl fun _ => rfl) (runsBody_f8 rfl fun _ => rfl)
  refine ⟨hrun.encodes, hrun.operandPastEnd, hrun.blockedWhenTripped fun s hl => getAtOffset_blocked hl,
    fun s hs ha => ⟨fun hout => ?_, fun hlo hhi => ⟨fun hover => ?_, fun hfit v hheld => ?_⟩⟩⟩
  · exact hrun.raises (getAtOffset_outside ha hout) ha
  · exact hrun.overflows_of_push (getAtOffset_inside hs ha ⟨hlo, hhi⟩ (holds_readLE s _ _)) ha hover
  · exact hrun.completes_of_push (p := s.sp) hs ha hfit (getAtOffset_inside hs ha ⟨hlo, hhi⟩ hheld)

/-! ### put-T-stack (R152 to R154) -/

/-- The bytes of a slot range inside the window end inside Memory. -/
theorem slotAddress_room (hs : s.Sane) {j : Int} {n : Nat} (h : inWindow s j n) :
    (slotAddress s j).toNat + n ≤ s.memSize := by
  have haddr := slotAddress_toNat_eq hs h.1
  obtain ⟨-, hwindow, -⟩ := hs
  omega

section
variable {ty : Ty} {off : Word} {v sp' : Nat}

theorem putAtOffset_blocked (hl : s.latch ≠ .active) : putAtOffset ty off s = .raised .blocked s := by
  rw [putAtOffset, pop_blocked hl, Res.bind_raised]

theorem putAtOffset_underflows (ha : s.latch = .active) (h : s.sp < ty.width) :
    putAtOffset ty off s = .raised .stackUnderflow { s with latch := .underflowed } := by
  rw [putAtOffset, pop_underflows ha h, Res.bind_raised]

/-- With a value on top of the Stack, put-T-stack is the poke of that value from SP after the pop (D10). -/
theorem putAtOffset_popped (hs : s.Sane) (ha : s.latch = .active) (hsp : s.sp = sp' + ty.width)
    (hheld : Holds s (s.slot sp') ty.width v) :
    putAtOffset ty off s = (poke off.toInt ty.width (v % 256 ^ ty.width) { s with sp := sp' }).thenAdvance := by
  obtain rfl : sp' = s.sp - ty.width := by omega
  rw [putAtOffset, sext64, pop_holds hs ha (by omega) hheld, Res.bind_ok]

theorem putAtOffset_outside (hs : s.Sane) (ha : s.latch = .active) (hsp : s.sp = sp' + ty.width)
    (hheld : Holds s (s.slot sp') ty.width v) (h : sp' + off.toInt < 0 ∨ s.stackSize < sp' + off.toInt + ty.width) :
    putAtOffset ty off s = .raised .memoryError { s with sp := sp' } := by
  rw [putAtOffset_popped hs ha hsp hheld, poke_outside (s := { s with sp := sp' }) ha _ h, Res.thenAdvance_raised]

theorem putAtOffset_inside (hs : s.Sane) (ha : s.latch = .active) (hsp : s.sp = sp' + ty.width)
    (hheld : Holds s (s.slot sp') ty.width v) (h : inWindow s (sp' + off.toInt) ty.width) :
    putAtOffset ty off s = .ok .advance
      { s with mem := s.mem.writeLE (slotAddress s (sp' + off.toInt)).toNat ty.width v, sp := sp' } := by
  have hle : sp' ≤ s.stackSize := by
    obtain ⟨hwindow, -⟩ := hs
    omega
  have hsane : State.Sane { s with sp := sp' } := Sane.withSp hs hle
  rw [putAtOffset_popped hs ha hsp hheld, poke_eq hsane, if_neg (not_not.mpr ha), if_pos h, Res.thenAdvance_ok,
    Memory.writeLE_mod, slotAddress_sp]

end

/-- Settles O31: the value is popped, and the window that bounds the store is taken from SP after the pop. -/
theorem putWritesStackSlot : Obligations.PutWritesStackSlot := by
  intro off op i w h
  obtain ⟨ty, rfl, hrun⟩ := family_runsBody (family := fun ty s => putAtOffset ty off s) h
    (runsBody_f8 rfl fun _ => rfl) (runsBody_f8 rfl fun _ => rfl) (runsBody_f8 rfl fun _ => rfl)
  refine ⟨hrun.encodes, hrun.operandPastEnd, hrun.blockedWhenTripped fun s hl => putAtOffset_blocked hl,
    fun s hs ha hunder => hrun.raises (putAtOffset_underflows ha hunder) rfl,
    fun s v sp' hs ha hsp hheld => ⟨fun hout => ?_, fun hlo hhi => ?_⟩⟩
  · exact hrun.raises (putAtOffset_outside hs ha hsp hheld hout) ha
  · exact hrun.completes hs (slotAddress_room hs ⟨hlo, hhi⟩) (putAtOffset_inside hs ha hsp hheld ⟨hlo, hhi⟩)

end Sys2Proof.Machine
end

section
/-! PROOFS, 41_arithmetic.md, instructions. The common sequence of R170 (pop B, pop A, push the result) is said once for values of `n` bytes, raise by raise and when it completes; the byte and int operations and the divisions (R171 to R173) then differ in what they push. -/
namespace Sys2Proof.Machine

variable {s : State} {i : Instr} {op : Byte}

/-! ### Popping two values (R170) -/

/-- Pop B, the top, and then A, the deeper value, of `n` bytes each, and go on with A and B. -/
def withPair (n : Nat) (s : State) (f : Nat → Nat → State → Res Flow) : Res Flow :=
  (pop n s).bind fun y s => (pop n s).bind fun x s => f x y s

theorem withBytes_eq (s : State) (f : Byte → Byte → State → Res Flow) :
    withBytes s f = withPair 1 s fun x y => f (BitVec.ofNat 8 x) (BitVec.ofNat 8 y) := by
  unfold withBytes withPair popByte
  cases pop 1 s with
  | raised e t => rfl
  | ok y t =>
    simp only [Res.bind_ok]
    cases pop 1 t <;> rfl

theorem withWords_eq (s : State) (f : Word → Word → State → Res Flow) :
    withWords s f = withPair 8 s fun x y => f (BitVec.ofNat 64 x) (BitVec.ofNat 64 y) := by
  unfold withWords withPair popWord
  cases pop 8 s with
  | raised e t => rfl
  | ok y t =>
    simp only [Res.bind_ok]
    cases pop 8 t <;> rfl

section
variable {n : Nat} {f : Nat → Nat → State → Res Flow}

theorem withPair_blocked (hl : s.latch ≠ .active) : withPair n s f = .raised .blocked s := by
  rw [withPair, pop_blocked hl, Res.bind_raised]

/-- Either pop can underflow, and LATCH is all that is kept of the raise. -/
theorem withPair_underflows (hs : s.Sane) (ha : s.latch = .active) (h : s.sp < 2 * n) :
    ∃ t, withPair n s f = .raised .stackUnderflow t ∧ t.latch = .underflowed := by
  rcases Nat.lt_or_ge s.sp n with htop | htop
  · exact ⟨_, by rw [withPair, pop_underflows ha htop, Res.bind_raised], rfl⟩
  · obtain ⟨y, hpop⟩ := pop_fits hs ha htop
    have hdeeper : s.sp - n < n := by omega
    exact ⟨_, by rw [withPair, hpop, Res.bind_ok, pop_underflows (s := { s with sp := s.sp - n }) ha hdeeper,
      Res.bind_raised], rfl⟩

theorem withPair_holds (hs : s.Sane) (ha : s.latch = .active) (h : 2 * n ≤ s.sp) {x y : Nat}
    (hltx : x < 256 ^ n) (hlty : y < 256 ^ n) (hx : Holds s (s.slot (s.sp - 2 * n)) n x)
    (hy : Holds s (s.slot (s.sp - n)) n y) :
    withPair n s f = f x y { s with sp := s.sp - 2 * n } := by
  have hslot : s.sp - n - n = s.sp - 2 * n := by omega
  have hdeeper : Holds { s with sp := s.sp - n } (State.slot { s with sp := s.sp - n } (s.sp - n - n)) n x := by
    rw [slot_sp, hslot]
    exact hx
  rw [withPair, pop_holds hs ha (by omega) hy, Res.bind_ok,
    pop_holds (s := { s with sp := s.sp - n }) (Sane.popped hs n) ha (by simp only; omega) hdeeper, Res.bind_ok, hslot,
    Nat.mod_eq_of_lt hltx, Nat.mod_eq_of_lt hlty]

end

/-- The two bytes on top of the Stack go to `f`, the deeper one as A. -/
theorem withBytes_holds {f : Byte → Byte → State → Res Flow} (hs : s.Sane) (ha : s.latch = .active) (h : 2 ≤ s.sp)
    {a b : Byte} (hheldA : Holds s (s.slot (s.sp - 2)) 1 a.toNat) (hheldB : Holds s (s.slot (s.sp - 1)) 1 b.toNat) :
    withBytes s f = f a b { s with sp := s.sp - 2 } := by
  rw [withBytes_eq, withPair_holds (n := 1) hs ha h a.isLt b.isLt hheldA hheldB, BitVec.ofNat_toNat, BitVec.ofNat_toNat,
    BitVec.setWidth_eq, BitVec.setWidth_eq]

/-- The two words on top of the Stack go to `f`, the deeper one as A. -/
theorem withWords_holds {f : Word → Word → State → Res Flow} (hs : s.Sane) (ha : s.latch = .active) (h : 16 ≤ s.sp)
    {a b : Word} (hheldA : Holds s (s.slot (s.sp - 16)) 8 a.toNat) (hheldB : Holds s (s.slot (s.sp - 8)) 8 b.toNat) :
    withWords s f = f a b { s with sp := s.sp - 16 } := by
  rw [withWords_eq, withPair_holds (n := 8) hs ha h a.isLt b.isLt hheldA hheldB, BitVec.ofNat_toNat, BitVec.ofNat_toNat,
    BitVec.setWidth_eq, BitVec.setWidth_eq]

/-! ### Instructions that pop two values -/

/-- What every instruction that pops two values of `n` bytes raises before its own work (R170). -/
theorem RunsBody.pair_raises {n : Nat} {f : Nat → Nat → State → Res Flow}
    (h : RunsBody op [] (fun s => withPair n s f) i) : BlockedWhenTripped i ∧ UnderflowsBelow i (2 * n) := by
  refine ⟨h.blockedWhenTripped fun s hl => withPair_blocked hl, fun s hs ha hunder => ?_⟩
  obtain ⟨t, hbody, hlatch⟩ := withPair_underflows (f := f) hs ha hunder
  exact h.raises hbody hlatch

theorem RunsBody.bytes_raise {f : Byte → Byte → State → Res Flow} (h : RunsBody op [] (fun s => withBytes s f) i) :
    BlockedWhenTripped i ∧ UnderflowsBelow i 2 := by
  simp only [withBytes_eq] at h
  exact h.pair_raises

theorem RunsBody.words_raise {f : Word → Word → State → Res Flow} (h : RunsBody op [] (fun s => withWords s f) i) :
    BlockedWhenTripped i ∧ UnderflowsBelow i 16 := by
  simp only [withWords_eq] at h
  exact h.pair_raises

/-- A result pushed where operands were popped fits: it stands in the slot of the deeper one, and SP is above it. -/
theorem RunsBody.completes_in_place {operand : List Byte} {body : State → Res Flow} (h : RunsBody op operand body i)
    (hs : s.Sane) (ha : s.latch = .active) {p n v sp' : Nat} (hsp' : p + n = sp') (hfit : sp' ≤ s.sp)
    (hb : body s = (push n v { s with sp := p }).thenAdvance) :
    Completes i s (s.pc + BitVec.ofNat 64 (1 + operand.length)) sp' (s.slot p) n v := by
  have hroom : p + n ≤ s.stackSize := by
    obtain ⟨hwindow, -⟩ := hs
    omega
  exact hsp' ▸ h.completes_of_push hs ha hroom hb

/-- An instruction that pushes a byte made of the two bytes it pops. -/
theorem byteArith_instruction {g : Byte → Byte → Byte} (h : RunsBody op [] (byteArith g) i) :
    Encodes [op] i ∧ BlockedWhenTripped i ∧ UnderflowsBelow i 2 ∧
    ∀ (s : State) (a b : Byte), s.Sane → s.latch = .active → 2 ≤ s.sp →
      Holds s (s.slot (s.sp - 2)) 1 a.toNat → Holds s (s.slot (s.sp - 1)) 1 b.toNat →
      Completes i s (s.pc + 1) (s.sp - 1) (s.slot (s.sp - 2)) 1 (g a b).toNat := by
  obtain ⟨hblocked, hunder⟩ := h.bytes_raise
  exact ⟨h.encodes, hblocked, hunder, fun s a b hs ha hsp hheldA hheldB =>
    h.completes_in_place hs ha (by omega) (by omega) (withBytes_holds hs ha hsp hheldA hheldB)⟩

/-- An instruction that pushes a word made of the two words it pops. -/
theorem wordArith_instruction {g : Word → Word → Word} (h : RunsBody op [] (wordArith g) i) :
    Encodes [op] i ∧ BlockedWhenTripped i ∧ UnderflowsBelow i 16 ∧
    ∀ (s : State) (a b : Word), s.Sane → s.latch = .active → 16 ≤ s.sp →
      Holds s (s.slot (s.sp - 16)) 8 a.toNat → Holds s (s.slot (s.sp - 8)) 8 b.toNat →
      Completes i s (s.pc + 1) (s.sp - 8) (s.slot (s.sp - 16)) 8 (g a b).toNat := by
  obtain ⟨hblocked, hunder⟩ := h.words_raise
  exact ⟨h.encodes, hblocked, hunder, fun s a b hs ha hsp hheldA hheldB =>
    h.completes_in_place hs ha (by omega) (by omega) (withWords_holds hs ha hsp hheldA hheldB)⟩

/-! ### Addition, subtraction and multiplication (R171, R172, R174) -/

/-- Settles O32: each instruction pushes the residue mod 256 of its operation on A and B. -/
theorem byteArithmeticWraps : Obligations.ByteArithmeticWraps := by
  intro op i f h
  obtain ⟨g, hrun, hg⟩ : ∃ g, RunsBody op [] (byteArith g) i ∧
      ∀ a b : Byte, (g a b).toNat = (f a.toNat b.toNat % 256).toNat := by
    simp only [List.mem_cons, Prod.mk.injEq, List.not_mem_nil, or_false] at h
    obtain ⟨rfl, rfl, rfl⟩ | ⟨rfl, rfl, rfl⟩ | ⟨rfl, rfl, rfl⟩ := h
    · exact ⟨byteAdd, ⟨rfl, fun _ => rfl⟩, fun _ _ => BitVec.toNat_ofInt _⟩
    · exact ⟨byteSub, ⟨rfl, fun _ => rfl⟩, fun _ _ => BitVec.toNat_ofInt _⟩
    · exact ⟨byteMul, ⟨rfl, fun _ => rfl⟩, fun _ _ => BitVec.toNat_ofInt _⟩
  simp only [← hg]
  exact byteArith_instruction hrun

/-- Settles O33: each instruction pushes the residue mod 2^64 of its operation on A and B, read as signed. -/
theorem intArithmeticWraps : Obligations.IntArithmeticWraps := by
  intro op i f h
  obtain ⟨g, hrun, hg⟩ : ∃ g, RunsBody op [] (wordArith g) i ∧
      ∀ a b : Word, (g a b).toNat = (f a.toInt b.toInt % 2 ^ 64).toNat := by
    simp only [List.mem_cons, Prod.mk.injEq, List.not_mem_nil, or_false] at h
    obtain ⟨rfl, rfl, rfl⟩ | ⟨rfl, rfl, rfl⟩ | ⟨rfl, rfl, rfl⟩ := h
    · exact ⟨intAdd, ⟨rfl, fun _ => rfl⟩, fun _ _ => BitVec.toNat_ofInt _⟩
    · exact ⟨intSub, ⟨rfl, fun _ => rfl⟩, fun _ _ => BitVec.toNat_ofInt _⟩
    · exact ⟨intMul, ⟨rfl, fun _ => rfl⟩, fun _ _ => BitVec.toNat_ofInt _⟩
  simp only [← hg]
  exact wordArith_instruction hrun

/-- Settles O36: each instruction pushes its operation on the patterns A and B, whatever they are. -/
theorem floatArithmeticPushesResult : Obligations.FloatArithmeticPushesResult := by
  intro op i f h
  have hrun : RunsBody op [] (wordArith f) i := by
    simp only [List.mem_cons, Prod.mk.injEq, List.not_mem_nil, or_false] at h
    obtain ⟨rfl, rfl, rfl⟩ | ⟨rfl, rfl, rfl⟩ | ⟨rfl, rfl, rfl⟩ | ⟨rfl, rfl, rfl⟩ := h
    all_goals exact ⟨rfl, fun _ => rfl⟩
  exact wordArith_instruction hrun

/-! ### Division (R173) -/

/-- Settles O34: both bytes are popped, and a nonzero divisor's quotient, which is at most A, is pushed. -/
theorem byteDivision : Obligations.ByteDivision := by
  have hrun : RunsBody 0x4C [] (fun s => withBytes s fun a b s =>
      if b = 0 then .raised .arithmeticError s else (pushByte (byteDiv a b) s).thenAdvance) .divByte :=
    ⟨rfl, fun _ => rfl⟩
  obtain ⟨hblocked, hunder⟩ := hrun.bytes_raise
  refine ⟨hrun.encodes, hblocked, hunder, fun s a b hs ha hsp hheldA hheldB => ?_⟩
  constructor
  · exact fun hzero => hrun.raises ((withBytes_holds hs ha hsp hheldA hheldB).trans (if_pos hzero)) ha
  · intro hne
    have hquot : (byteDiv a b).toNat = a.toNat / b.toNat :=
      Nat.mod_eq_of_lt ((Nat.div_le_self _ _).trans_lt a.isLt)
    rw [← hquot]
    exact hrun.completes_in_place hs ha (by omega) (by omega)
      ((withBytes_holds hs ha hsp hheldA hheldB).trans (if_neg hne))

/-- Division that rounds toward zero, by magnitudes and signs. -/
theorem tdiv_eq_signed_natAbs (x y : Int) : x.tdiv y =
    if (0 ≤ x ↔ 0 ≤ y) then ((x.natAbs / y.natAbs : Nat) : Int) else -((x.natAbs / y.natAbs : Nat) : Int) := by
  have hneg : ∀ k : Nat, ¬ (0 : Int) ≤ Int.negSucc k := fun k => by omega
  cases x with
  | ofNat m => cases y with
    | ofNat k => exact (if_pos (iff_of_true (Int.natCast_nonneg m) (Int.natCast_nonneg k))).symm
    | negSucc k => exact (if_neg fun h => hneg k (h.mp (Int.natCast_nonneg m))).symm
  | negSucc m => cases y with
    | ofNat k => exact (if_neg fun h => hneg m (h.mpr (Int.natCast_nonneg k))).symm
    | negSucc k => exact (if_pos (iff_of_false (hneg m) (hneg k))).symm

theorem sext64_eq_zero_iff (p : Word) : sext64 p = 0 ↔ p = 0 :=
  BitVec.toInt_inj (y := 0#64)

/-- Settles O35: both words are popped, and a nonzero divisor's quotient, rounded toward zero and wrapped, is pushed. -/
theorem intDivision : Obligations.IntDivision := by
  have hrun : RunsBody 0x4D [] (fun s => withWords s fun a b s =>
      if sext64 b = 0 then .raised .arithmeticError s else (pushWord (intDiv a b) s).thenAdvance) .divInt :=
    ⟨rfl, fun _ => rfl⟩
  obtain ⟨hblocked, hunder⟩ := hrun.words_raise
  refine ⟨hrun.encodes, hblocked, hunder, fun s a b hs ha hsp hheldA hheldB => ?_⟩
  constructor
  · intro hzero
    exact hrun.raises
      ((withWords_holds hs ha hsp hheldA hheldB).trans (if_pos ((sext64_eq_zero_iff b).mpr hzero))) ha
  · rintro hne m q rfl rfl
    rw [← tdiv_eq_signed_natAbs]
    have hquot : (intDiv a b).toNat = (a.toInt.tdiv b.toInt % 2 ^ 64).toNat := BitVec.toNat_ofInt _
    rw [← hquot]
    exact hrun.completes_in_place hs ha (by omega) (by omega)
      ((withWords_holds hs ha hsp hheldA hheldB).trans (if_neg (mt (sext64_eq_zero_iff b).mp hne)))

end Sys2Proof.Machine
end

section
/-! PROOFS, 41_arithmetic.md, floats (R174). A finite pattern is a signed count of units of 2^-1074, and so an operation's exact result is a quotient of integers; it is rounded once, for all four operations, by comparing integer distances. -/
namespace Sys2Proof.Machine

variable {p a b : Word}

/-! ### A pattern as its sign bit and bits 62:0 -/

/-- Bits 62:0. -/
def floatMagnitude (p : Word) : Nat := p.toNat % 2 ^ 63

theorem floatMagnitude_lt (p : Word) : floatMagnitude p < 2 ^ 63 := Nat.mod_lt _ (by norm_num)

theorem floatPattern_fields (p : Word) : floatPattern p.msb (floatMagnitude p) = p := by
  apply BitVec.eq_of_toNat_eq
  have hlt := p.isLt
  rw [floatPattern_toNat _ (floatMagnitude_lt p), BitVec.msb_eq_decide, floatMagnitude]
  simp only [decide_eq_true_eq]
  split <;> omega

/-- The magnitude of the value, in units of 2^-1074. -/
def floatUnits (p : Word) : Nat := magnitudeUnits (floatMagnitude p)

theorem fieldUnits_eq_floatUnits (p : Word) : fieldUnits (floatExponent p) (floatFraction p) = floatUnits p := by
  have hexp : floatExponent p = floatMagnitude p / 2 ^ 52 := by
    unfold floatExponent floatMagnitude
    omega
  have hfrac : floatFraction p = floatMagnitude p % 2 ^ 52 := by
    unfold floatFraction floatMagnitude
    omega
  rw [floatUnits, magnitudeUnits, hexp, hfrac]

theorem floatUnits_pattern (n : Bool) {m : Nat} (h : m < 2 ^ 63) : floatUnits (floatPattern n m) = magnitudeUnits m := by
  rw [← fieldUnits_eq_floatUnits, floatPattern_exponent n h, floatPattern_fraction n h, magnitudeUnits]

theorem magnitudeUnits_eq_zero_iff (m : Nat) : magnitudeUnits m = 0 ↔ m = 0 := by
  unfold magnitudeUnits fieldUnits
  split
  · omega
  · have hpos : 0 < (2 ^ 52 + m % 2 ^ 52) * 2 ^ (m / 2 ^ 52 - 1) := by positivity
    omega

/-- The value is zero for the two zero patterns only. -/
theorem eq_zeroPattern_iff (n : Bool) : p = floatPattern n 0 ↔ p.msb = n ∧ floatUnits p = 0 := by
  constructor
  · rintro rfl
    exact ⟨floatPattern_msb n (by norm_num), by rw [floatUnits_pattern n (by norm_num)]; rfl⟩
  · rintro ⟨rfl, hzero⟩
    rw [← (magnitudeUnits_eq_zero_iff _).mp hzero, floatPattern_fields]

theorem eq_negZero_iff : p = negZero ↔ p.msb = true ∧ floatUnits p = 0 := eq_zeroPattern_iff true

theorem eq_posZero_iff : p = 0 ↔ p.msb = false ∧ floatUnits p = 0 := eq_zeroPattern_iff false

/-- The last fraction bit is the parity of bits 62:0. -/
theorem floatPattern_even (n : Bool) {m : Nat} (h : m < 2 ^ 63) (heven : m % 2 = 0) :
    (floatPattern n m).getLsbD 0 = false := by
  rw [BitVec.getLsbD, Nat.testBit_zero, floatPattern_toNat n h]
  cases n <;> simp <;> omega

theorem isFinite_pattern (n : Bool) {m : Nat} (h : m < infMagnitude) : isFinite (floatPattern n m) := by
  unfold infMagnitude at h
  rw [isFinite, floatExponent_eq, floatPattern_exponent n (by omega)]
  omega

/-! ### The value of a finite pattern as a signed integer of units -/

/-- The value, in units of 2^-1074. -/
def floatInt (p : Word) : Int := signedUnits p.msb (floatUnits p)

theorem floatVal_eq_fin (h : isFinite p) : floatVal p = .fin p.msb (floatUnits p) := by
  rw [floatVal_of_finite h, fieldUnits_eq_floatUnits]

theorem floatRat_eq_floatInt (p : Word) : floatRat p = (floatInt p : ℚ) / 2 ^ 1074 := by
  rw [floatRat_eq, fieldUnits_eq_floatUnits, floatInt]

theorem signedUnits_eq_zero_iff (n : Bool) (u : Nat) : signedUnits n u = 0 ↔ u = 0 := by
  cases n <;> simp [signedUnits]

theorem signedUnits_not (n : Bool) (u : Nat) : signedUnits (!n) u = -signedUnits n u := by
  cases n <;> simp [signedUnits]

theorem signedUnits_add (n : Bool) (u v : Nat) : signedUnits n (u + v) = signedUnits n u + signedUnits n v := by
  cases n
  · rfl
  · simp only [signedUnits, if_true]
    omega

theorem signedUnits_mul (n : Bool) (u k : Nat) : signedUnits n (u * k) = signedUnits n u * k := by
  cases n <;> simp [signedUnits]

theorem signedUnits_xor_mul (m n : Bool) (u v : Nat) :
    signedUnits (xor m n) (u * v) = signedUnits m u * signedUnits n v := by
  cases m <;> cases n <;> simp [signedUnits]

theorem signedUnits_natAbs (z : Int) : signedUnits (decide (z < 0)) z.natAbs = z := by
  unfold signedUnits
  simp only [decide_eq_true_eq]
  split <;> omega

theorem floatRat_eq_zero_iff (p : Word) : floatRat p = 0 ↔ floatUnits p = 0 := by
  rw [floatRat_eq_floatInt, div_eq_zero_iff, or_iff_left (by positivity), Int.cast_eq_zero, floatInt,
    signedUnits_eq_zero_iff]

theorem floatInt_pattern (n : Bool) {m : Nat} (h : m < 2 ^ 63) :
    floatInt (floatPattern n m) = signedUnits n (magnitudeUnits m) := by
  rw [floatInt, floatPattern_msb n h, floatUnits_pattern n h]

/-! ### Rounding a signed quotient -/

/-- The distance of a value from a value of the same sign. -/
theorem signedUnits_dist_same (neg : Bool) (u d n : Nat) :
    (signedUnits neg u * d - signedUnits neg n).natAbs = (((u * d : Nat) : Int) - n).natAbs := by
  rw [← signedUnits_mul]
  cases neg with
  | false => rfl
  | true =>
    simp only [signedUnits, if_true]
    omega

/-- The distance of a value from a value of the other sign. -/
theorem signedUnits_dist_opposite (neg : Bool) (u d n : Nat) :
    (signedUnits (!neg) u * d - signedUnits neg n).natAbs = u * d + n := by
  have hsum : signedUnits (!neg) u * d - signedUnits neg n = signedUnits (!neg) (u * d + n) := by
    rw [signedUnits_add, signedUnits_mul, signedUnits_not neg n, sub_eq_add_neg]
  rw [hsum]
  cases neg
  · exact Int.natAbs_neg _
  · rfl

/-- Below the overflow threshold no signed value is nearer to the signed quotient than the rounded one, which is even in a
tie. A value of the other sign is no nearer than the value of its magnitude, and the tie is then a tie with that one. -/
theorem roundMagnitude_nearest_signed (neg c : Bool) (n : Nat) {d : Nat} (hd : 0 < d)
    (hM : roundMagnitude n d < infMagnitude) (m : Nat) :
    (signedUnits neg (magnitudeUnits (roundMagnitude n d)) * d - signedUnits neg n).natAbs ≤
      (signedUnits c (magnitudeUnits m) * d - signedUnits neg n).natAbs ∧
    ((signedUnits neg (magnitudeUnits (roundMagnitude n d)) * d - signedUnits neg n).natAbs =
        (signedUnits c (magnitudeUnits m) * d - signedUnits neg n).natAbs →
      signedUnits c (magnitudeUnits m) ≠ signedUnits neg (magnitudeUnits (roundMagnitude n d)) →
      roundMagnitude n d % 2 = 0) := by
  obtain ⟨hnear, htie⟩ := roundMagnitude_nearest n hd hM m
  obtain ⟨hzero, -⟩ := roundMagnitude_nearest n hd hM 0
  rw [(magnitudeUnits_eq_zero_iff 0).mpr rfl] at hzero
  rw [signedUnits_dist_same]
  obtain rfl | rfl := Bool.eq_or_eq_not c neg
  · rw [signedUnits_dist_same]
    exact ⟨hnear, fun heq hne => htie heq fun h => hne (by rw [h])⟩
  · rw [signedUnits_dist_opposite]
    refine ⟨by omega, fun heq hne => htie (by omega) fun hsame => hne ?_⟩
    have hprod : magnitudeUnits (roundMagnitude n d) * d = 0 := by
      rw [hsame] at heq
      omega
    have hunits : magnitudeUnits (roundMagnitude n d) = 0 := (Nat.mul_eq_zero.mp hprod).resolve_right hd.ne'
    rw [hsame, hunits, (signedUnits_eq_zero_iff _ 0).mpr rfl, (signedUnits_eq_zero_iff _ 0).mpr rfl]

/-- The rational ±n/d, of units of 2^-1074. -/
def unitsRat (neg : Bool) (n d : Nat) : ℚ := (signedUnits neg n : ℚ) / d / 2 ^ 1074

theorem unitsRat_true (n d : Nat) : unitsRat true n d = -unitsRat false n d := by
  simp only [unitsRat, signedUnits, if_true, Bool.false_eq_true, if_false, Int.cast_neg, neg_div]

theorem unitsRat_false_nonneg (n d : Nat) : 0 ≤ unitsRat false n d :=
  div_nonneg (div_nonneg (Nat.cast_nonneg n) (Nat.cast_nonneg d)) (pow_nonneg two_pos.le _)

theorem abs_unitsRat (neg : Bool) (n d : Nat) : |unitsRat neg n d| = unitsRat false n d := by
  cases neg
  · exact abs_of_nonneg (unitsRat_false_nonneg n d)
  · rw [unitsRat_true, abs_neg, abs_of_nonneg (unitsRat_false_nonneg n d)]

/-- Distances from a quotient of units are those of integers, over a common denominator. -/
theorem abs_floatRat_sub (p : Word) (neg : Bool) (n : Nat) {d : Nat} (hd : 0 < d) :
    |floatRat p - unitsRat neg n d| = ((floatInt p * d - signedUnits neg n).natAbs : ℚ) / (d * 2 ^ 1074) := by
  rw [floatRat_eq_floatInt, unitsRat]
  have hT : (0 : ℚ) < 2 ^ 1074 := pow_pos two_pos _
  generalize (2 : ℚ) ^ 1074 = T at *
  have hd' : (0 : ℚ) < d := Nat.cast_pos.mpr hd
  have hdiff : (floatInt p : ℚ) / T - signedUnits neg n / d / T =
      ((floatInt p * d - signedUnits neg n : Int) : ℚ) / (d * T) := by
    push_cast
    field_simp
  rw [hdiff, abs_div, abs_of_pos (mul_pos hd' hT), Nat.cast_natAbs, Int.cast_abs]

/-! ### The overflow threshold 2^1024 − 2^970 -/

/-- The threshold in units, (2^54 − 1) · 2^(e + k) at e = 970 and k = 1074, against the quotient `n / d`. The exponents are
variables so that no tactic evaluates the powers. -/
theorem threshold_le_div_iff (n : Nat) {d : Nat} (hd : 0 < d) (e k : Nat) :
    (2 : ℚ) ^ (e + 54) - 2 ^ e ≤ (n : ℚ) / d / 2 ^ k ↔ 18014398509481983 * 2 ^ (e + k) * d ≤ n := by
  have hd' : (0 : ℚ) < d := Nat.cast_pos.mpr hd
  have hscaled : ((2 : ℚ) ^ (e + 54) - 2 ^ e) * (d * 2 ^ k) = ((18014398509481983 * 2 ^ (e + k) * d : Nat) : ℚ) := by
    push_cast
    rw [pow_add, pow_add]
    ring
  rw [div_div, le_div_iff₀ (by positivity), hscaled, Nat.cast_le]

/-- A quotient of units is at or above the threshold exactly when its rounded magnitude is an infinity's. -/
theorem threshold_le_iff (n : Nat) {d : Nat} (hd : 0 < d) :
    2 ^ 1024 - 2 ^ 970 ≤ unitsRat false n d ↔ roundMagnitude n d = infMagnitude :=
  (threshold_le_div_iff n hd 970 1074).trans (roundMagnitude_overflow n hd (970 + 1074) rfl).symm

theorem isRoundedTo_posInf {x : ℚ} (h : 2 ^ 1024 - 2 ^ 970 ≤ x) : IsRoundedTo x posInf := by
  rw [IsRoundedTo, if_pos h]

theorem isRoundedTo_negInf {x : ℚ} (h : 2 ^ 1024 - 2 ^ 970 ≤ -x) : IsRoundedTo x negInf := by
  have hneg : x ≤ -(2 ^ 1024 - 2 ^ 970) := le_neg.mp h
  have hpos : (0 : ℚ) < 2 ^ 1024 - 2 ^ 970 := sub_pos.mpr (pow_lt_pow_right₀ one_lt_two (by norm_num))
  have hlt : x < 2 ^ 1024 - 2 ^ 970 := (hneg.trans_lt (neg_lt_zero.mpr hpos)).trans hpos
  rw [IsRoundedTo, if_neg hlt.not_ge, if_pos hneg]

/-- Below the threshold the rounded value is finite, nearest and even in a tie. -/
theorem isRoundedTo_finite {x : ℚ} {r : Word} (h : ¬ 2 ^ 1024 - 2 ^ 970 ≤ |x|) (hfin : isFinite r)
    (hnear : ∀ c : Word, |floatRat r - x| ≤ |floatRat c - x| ∧
      (|floatRat r - x| = |floatRat c - x| → floatRat c ≠ floatRat r → r.getLsbD 0 = false)) : IsRoundedTo x r := by
  have hpos : ¬ 2 ^ 1024 - 2 ^ 970 ≤ x := fun hx => h (hx.trans (le_abs_self x))
  have hneg : ¬ x ≤ -(2 ^ 1024 - 2 ^ 970) := fun hx => h ((le_neg.mp hx).trans (neg_le_abs x))
  rw [IsRoundedTo, if_neg hpos, if_neg hneg]
  exact ⟨hfin, fun c _ => hnear c⟩

/-! ### The rounded pattern -/

theorem roundMagnitude_le (n d : Nat) : roundMagnitude n d ≤ infMagnitude := by
  rw [roundMagnitude_eq]
  exact min_le_right _ _

theorem roundMagnitude_lt (n d : Nat) : roundMagnitude n d < 2 ^ 63 :=
  (roundMagnitude_le n d).trans_lt (by decide)

/-- No value is nearer to the quotient than the pattern of a rounded magnitude that is finite. -/
theorem floatPattern_nearest (neg : Bool) (n : Nat) {d : Nat} (hd : 0 < d) (hM : roundMagnitude n d < infMagnitude)
    {r : Word} (hr : r = floatPattern neg (roundMagnitude n d)) (c : Word) :
    |floatRat r - unitsRat neg n d| ≤ |floatRat c - unitsRat neg n d| ∧
    (|floatRat r - unitsRat neg n d| = |floatRat c - unitsRat neg n d| → floatRat c ≠ floatRat r →
      r.getLsbD 0 = false) := by
  have hlt := roundMagnitude_lt n d
  obtain ⟨hnear, htie⟩ := roundMagnitude_nearest_signed neg c.msb n hd hM (floatMagnitude c)
  rw [← floatInt_pattern neg hlt, ← hr] at hnear htie
  have hden : (0 : ℚ) < d * 2 ^ 1074 := mul_pos (Nat.cast_pos.mpr hd) (pow_pos two_pos _)
  rw [abs_floatRat_sub _ _ _ hd, abs_floatRat_sub _ _ _ hd]
  constructor
  · exact (div_le_div_iff_of_pos_right hden).mpr (Nat.cast_le.mpr hnear)
  · intro heq hne
    have hdist := Nat.cast_injective ((div_left_inj' hden.ne').mp heq)
    have heven := htie hdist fun hint => hne (by rw [floatRat_eq_floatInt, floatRat_eq_floatInt, ← hint]; rfl)
    rw [hr]
    exact floatPattern_even neg hlt heven

/-- The pattern put together from a sign and a rounded magnitude is the signed quotient rounded to nearest, ties to even. -/
theorem isRoundedTo_pattern (neg : Bool) (n : Nat) {d : Nat} (hd : 0 < d) :
    IsRoundedTo (unitsRat neg n d) (floatPattern neg (roundMagnitude n d)) := by
  by_cases hover : roundMagnitude n d = infMagnitude
  · have hle := (threshold_le_iff n hd).mpr hover
    rw [hover]
    cases neg
    · exact isRoundedTo_posInf hle
    · exact isRoundedTo_negInf (by rwa [unitsRat_true, neg_neg])
  · have hM := lt_of_le_of_ne (roundMagnitude_le n d) hover
    refine isRoundedTo_finite ?_ (isFinite_pattern neg hM) (floatPattern_nearest neg n hd hM rfl)
    rwa [abs_unitsRat, threshold_le_iff n hd]

/-- A result that is rounded to nearest and has the sign of the exact one. -/
def RoundsWithSign (x : ℚ) (r : Word) : Prop := IsRoundedTo x r ∧ r.msb = decide (x < 0)

theorem unitsRat_neg_iff {neg : Bool} {n d : Nat} (h0 : unitsRat neg n d ≠ 0) : unitsRat neg n d < 0 ↔ neg = true := by
  cases neg with
  | false => simp [(unitsRat_false_nonneg n d).not_gt]
  | true =>
    rw [unitsRat_true] at h0 ⊢
    simpa using lt_of_le_of_ne (unitsRat_false_nonneg n d) (neg_ne_zero.mp h0).symm

theorem roundsWithSign_pattern {neg : Bool} {n d : Nat} (hd : 0 < d) {x : ℚ} (hx : x = unitsRat neg n d) (h0 : x ≠ 0) :
    RoundsWithSign x (floatPattern neg (roundMagnitude n d)) := by
  subst hx
  refine ⟨isRoundedTo_pattern neg n hd, ?_⟩
  rw [floatPattern_msb neg (roundMagnitude_lt n d)]
  simp only [unitsRat_neg_iff h0, Bool.decide_eq_true]

/-! ### The four operations on finite values -/

theorem fadd_of_finite (ha : isFinite a) (hb : isFinite b) :
    fadd a b = addFinite a.msb (floatUnits a) b.msb (floatUnits b) := by
  rw [fadd, floatVal_eq_fin ha, floatVal_eq_fin hb]; rfl

theorem fsub_of_finite (ha : isFinite a) (hb : isFinite b) :
    fsub a b = addFinite a.msb (floatUnits a) (!b.msb) (floatUnits b) := by
  rw [fsub, floatVal_eq_fin ha, floatVal_eq_fin hb]; rfl

theorem fmul_of_finite (ha : isFinite a) (hb : isFinite b) :
    fmul a b = floatPattern (xor a.msb b.msb) (roundMagnitude (floatUnits a * floatUnits b) (2 ^ 1074)) := by
  rw [fmul, floatVal_eq_fin ha, floatVal_eq_fin hb, mulValues]

theorem fdiv_of_finite (ha : isFinite a) (hb : isFinite b) : fdiv a b =
    if floatUnits b = 0 then
      if floatUnits a = 0 then nanResult .fdiv a b else floatPattern (xor a.msb b.msb) infMagnitude
    else floatPattern (xor a.msb b.msb) (roundMagnitude (floatUnits a * 2 ^ 1074) (floatUnits b)) := by
  rw [fdiv, floatVal_eq_fin ha, floatVal_eq_fin hb, divValues]

/-- A sum that is not zero is rounded. -/
theorem addFinite_rounds (na : Bool) (ua : Nat) (nb : Bool) (ub : Nat) {x : ℚ}
    (hx : x = ((signedUnits na ua + signedUnits nb ub : Int) : ℚ) / 2 ^ 1074) (h0 : x ≠ 0) :
    RoundsWithSign x (addFinite na ua nb ub) := by
  unfold addFinite
  generalize signedUnits na ua + signedUnits nb ub = z at *
  have hz : z ≠ 0 := by
    rintro rfl
    exact h0 (by rw [hx, Int.cast_zero, zero_div])
  simp only [if_neg hz]
  exact roundsWithSign_pattern one_pos (by rw [unitsRat, signedUnits_natAbs, Nat.cast_one, div_one, hx]) h0

theorem fadd_rounds (ha : isFinite a) (hb : isFinite b) (h0 : floatRat a + floatRat b ≠ 0) :
    RoundsWithSign (floatRat a + floatRat b) (fadd a b) := by
  rw [fadd_of_finite ha hb]
  refine addFinite_rounds _ _ _ _ ?_ h0
  rw [floatRat_eq_floatInt, floatRat_eq_floatInt, ← add_div, ← Int.cast_add, floatInt, floatInt]

theorem fsub_rounds (ha : isFinite a) (hb : isFinite b) (h0 : floatRat a - floatRat b ≠ 0) :
    RoundsWithSign (floatRat a - floatRat b) (fsub a b) := by
  rw [fsub_of_finite ha hb]
  refine addFinite_rounds _ _ _ _ ?_ h0
  rw [floatRat_eq_floatInt, floatRat_eq_floatInt, ← sub_div, ← Int.cast_sub, floatInt, floatInt, signedUnits_not,
    sub_eq_add_neg]

/-- The units of the product are over 2^1074. -/
theorem fmul_rounds (ha : isFinite a) (hb : isFinite b) (h0 : floatRat a * floatRat b ≠ 0) :
    RoundsWithSign (floatRat a * floatRat b) (fmul a b) := by
  rw [fmul_of_finite ha hb]
  have hexact : floatRat a * floatRat b = unitsRat (xor a.msb b.msb) (floatUnits a * floatUnits b) (2 ^ 1074) := by
    rw [floatRat_eq_floatInt, floatRat_eq_floatInt, unitsRat, signedUnits_xor_mul, floatInt, floatInt, Int.cast_mul,
      Nat.cast_pow, Nat.cast_ofNat, div_mul_div_comm, div_div]
  exact roundsWithSign_pattern (pow_pos two_pos _) hexact h0

theorem signedUnits_xor_div (m n : Bool) (u v : Nat) :
    (signedUnits (xor m n) u : ℚ) / v = signedUnits m u / signedUnits n v := by
  cases m <;> cases n <;> simp [signedUnits, neg_div, div_neg]

/-- The units of the quotient are 2^1074 times the quotient of the units. -/
theorem fdiv_rounds (ha : isFinite a) (hb : isFinite b) (hne : floatRat b ≠ 0) (h0 : floatRat a / floatRat b ≠ 0) :
    RoundsWithSign (floatRat a / floatRat b) (fdiv a b) := by
  have hub : floatUnits b ≠ 0 := mt (floatRat_eq_zero_iff b).mpr hne
  have hT : (2 : ℚ) ^ 1074 ≠ 0 := pow_ne_zero _ two_ne_zero
  rw [fdiv_of_finite ha hb, if_neg hub]
  refine roundsWithSign_pattern (Nat.pos_of_ne_zero hub) ?_ h0
  rw [floatRat_eq_floatInt, floatRat_eq_floatInt, div_div_div_cancel_right₀ hT, unitsRat, signedUnits_xor_div,
    signedUnits_mul, Int.cast_mul, Int.cast_natCast, Nat.cast_pow, Nat.cast_ofNat, div_right_comm,
    mul_div_cancel_right₀ _ hT, floatInt, floatInt]

/-- Settles O38: each operation's exact result is a signed quotient of units, which is rounded. -/
theorem floatRoundsToNearestEven : Obligations.FloatRoundsToNearestEven := by
  intro a b ha hb
  refine ⟨?_, ?_, ?_, ?_⟩
  · rintro _ rfl h0
    exact fadd_rounds ha hb h0
  · rintro _ rfl h0
    exact fsub_rounds ha hb h0
  · rintro _ rfl h0
    exact fmul_rounds ha hb h0
  · rintro _ hne rfl h0
    exact fdiv_rounds ha hb hne h0

end Sys2Proof.Machine
end

section
/-! PROOFS, 41_arithmetic.md, special float values (R174; 00_scope.md R8). An operation looks at the class of each operand; NaN, infinite and zero results are read off its table of classes. -/
namespace Sys2Proof.Machine

variable {a b : Word}

/-! ### Classes and their patterns -/

theorem floatVal_eq_inf (h : a = posInf ∨ a = negInf) : floatVal a = .inf a.msb := by
  obtain rfl | rfl := h
  · exact floatVal_posInf
  · exact floatVal_negInf

theorem nanResult_isNaN (op : FloatOp) (a b : Word) : IsNaNPattern (nanResult op a b) := by
  unfold nanResult
  generalize Config.nanPattern op a b = q
  obtain ⟨n, v, hv⟩ := q
  have hlt : infMagnitude + (v + 1) < 2 ^ 63 := by
    unfold infMagnitude
    omega
  rw [IsNaNPattern, floatExponent_eq, floatFraction_eq, floatPattern_exponent n hlt, floatPattern_fraction n hlt]
  unfold infMagnitude
  omega

/-- The infinity whose sign is the XOR of two signs. -/
theorem floatPattern_xor_inf (m n : Bool) : floatPattern (xor m n) infMagnitude = if m = n then posInf else negInf := by
  cases m <;> cases n <;> rfl

/-- The zero whose sign is the XOR of two signs. -/
theorem floatPattern_xor_zero (m n : Bool) : floatPattern (xor m n) 0 = if m = n then 0 else negZero := by
  cases m <;> cases n <;> rfl

/-! ### NaN operands -/

theorem addValues_nan_right (nan : Word) (v : FloatVal) : addValues nan v .nan = nan := by cases v <;> rfl

theorem mulValues_nan_right (nan : Word) (v : FloatVal) : mulValues nan v .nan = nan := by cases v <;> rfl

theorem divValues_nan_right (nan : Word) (v : FloatVal) : divValues nan v .nan = nan := by cases v <;> rfl

/-- With a NaN operand every operation gives its NaN result. -/
theorem nan_operand (h : IsNaNPattern a ∨ IsNaNPattern b) :
    fadd a b = nanResult .fadd a b ∧ fsub a b = nanResult .fsub a b ∧ fmul a b = nanResult .fmul a b ∧
    fdiv a b = nanResult .fdiv a b := by
  unfold fadd fsub fmul fdiv
  obtain h | h := h
  · rw [floatVal_of_nan h]
    exact ⟨rfl, rfl, rfl, rfl⟩
  · rw [floatVal_of_nan h]
    exact ⟨addValues_nan_right _ _, addValues_nan_right _ _, mulValues_nan_right _ _, divValues_nan_right _ _⟩

/-! ### Infinite operands -/

theorem infinities_cancel :
    fadd posInf negInf = nanResult .fadd posInf negInf ∧ fadd negInf posInf = nanResult .fadd negInf posInf ∧
    fsub posInf posInf = nanResult .fsub posInf posInf ∧ fsub negInf negInf = nanResult .fsub negInf negInf := by
  unfold fadd fsub
  rw [floatVal_posInf, floatVal_negInf]
  exact ⟨rfl, rfl, rfl, rfl⟩

theorem infinities_add :
    fadd posInf posInf = posInf ∧ fadd negInf negInf = negInf ∧ fsub posInf negInf = posInf ∧
    fsub negInf posInf = negInf := by
  unfold fadd fsub
  rw [floatVal_posInf, floatVal_negInf]
  exact ⟨rfl, rfl, rfl, rfl⟩

theorem infinity_add_finite (hb : isFinite b) :
    fadd posInf b = posInf ∧ fadd negInf b = negInf ∧ fsub posInf b = posInf ∧ fsub negInf b = negInf := by
  unfold fadd fsub
  rw [floatVal_posInf, floatVal_negInf, floatVal_eq_fin hb]
  exact ⟨rfl, rfl, rfl, rfl⟩

theorem finite_add_infinity (ha : isFinite a) :
    fadd a posInf = posInf ∧ fadd a negInf = negInf ∧ fsub a posInf = negInf ∧ fsub a negInf = posInf := by
  unfold fadd fsub
  rw [floatVal_posInf, floatVal_negInf, floatVal_eq_fin ha]
  exact ⟨rfl, rfl, rfl, rfl⟩

theorem infinities_mul_div (ha : a = posInf ∨ a = negInf) (hb : b = posInf ∨ b = negInf) :
    fmul a b = (if a.msb = b.msb then posInf else negInf) ∧ fdiv a b = nanResult .fdiv a b := by
  unfold fmul fdiv
  rw [floatVal_eq_inf ha, floatVal_eq_inf hb]
  exact ⟨floatPattern_xor_inf _ _, rfl⟩

/-- An infinity times a finite value: a NaN for zero, else the infinity of the sign. -/
theorem infinity_mul_finite (ha : a = posInf ∨ a = negInf) (hb : isFinite b) :
    fmul a b = (if floatRat b = 0 then nanResult .fmul a b else if a.msb = b.msb then posInf else negInf) ∧
    fmul b a = (if floatRat b = 0 then nanResult .fmul b a else if a.msb = b.msb then posInf else negInf) := by
  unfold fmul
  rw [floatVal_eq_inf ha, floatVal_eq_fin hb]
  simp only [floatRat_eq_zero_iff, ← floatPattern_xor_inf]
  exact ⟨rfl, by rw [Bool.xor_comm]; rfl⟩

theorem infinity_div_finite (ha : a = posInf ∨ a = negInf) (hb : isFinite b) :
    fdiv a b = (if a.msb = b.msb then posInf else negInf) ∧ fdiv b a = (if a.msb = b.msb then 0 else negZero) := by
  unfold fdiv
  rw [floatVal_eq_inf ha, floatVal_eq_fin hb, ← floatPattern_xor_inf, ← floatPattern_xor_zero]
  exact ⟨rfl, by rw [Bool.xor_comm]; rfl⟩

/-! ### Results that are exactly zero, and division by zero -/

/-- A sum that is exactly zero is −0 only if both values are negative zeros. -/
theorem addFinite_of_sum_zero {na nb : Bool} {ua ub : Nat} (h : signedUnits na ua + signedUnits nb ub = 0) :
    addFinite na ua nb ub = if (na = true ∧ ua = 0) ∧ nb = true ∧ ub = 0 then negZero else 0 := by
  have hsign : (na && nb) = true ↔ (na = true ∧ ua = 0) ∧ nb = true ∧ ub = 0 := by
    rw [Bool.and_eq_true]
    constructor
    · rintro ⟨rfl, rfl⟩
      simp only [signedUnits, if_true] at h
      exact ⟨⟨rfl, by omega⟩, rfl, by omega⟩
    · rintro ⟨⟨rfl, -⟩, rfl, -⟩
      exact ⟨rfl, rfl⟩
  simp only [addFinite, h, if_true, floatPattern_zero, hsign]

theorem floatRat_add_eq_zero_iff (a b : Word) : floatRat a + floatRat b = 0 ↔ floatInt a + floatInt b = 0 := by
  rw [floatRat_eq_floatInt, floatRat_eq_floatInt, ← add_div, div_eq_zero_iff,
    or_iff_left (pow_ne_zero _ two_ne_zero), ← Int.cast_add, Int.cast_eq_zero]

theorem floatRat_sub_eq_zero_iff (a b : Word) : floatRat a - floatRat b = 0 ↔ floatInt a + -floatInt b = 0 := by
  rw [floatRat_eq_floatInt, floatRat_eq_floatInt, ← sub_div, div_eq_zero_iff,
    or_iff_left (pow_ne_zero _ two_ne_zero), ← Int.cast_sub, Int.cast_eq_zero, sub_eq_add_neg]

theorem fadd_of_sum_zero (ha : isFinite a) (hb : isFinite b) (h : floatRat a + floatRat b = 0) :
    fadd a b = if a = negZero ∧ b = negZero then negZero else 0 := by
  rw [fadd_of_finite ha hb, addFinite_of_sum_zero ((floatRat_add_eq_zero_iff a b).mp h)]
  simp only [eq_negZero_iff]

theorem fsub_of_difference_zero (ha : isFinite a) (hb : isFinite b) (h : floatRat a - floatRat b = 0) :
    fsub a b = if a = negZero ∧ b = 0 then negZero else 0 := by
  have hsum : signedUnits a.msb (floatUnits a) + signedUnits (!b.msb) (floatUnits b) = 0 := by
    rw [signedUnits_not]
    exact (floatRat_sub_eq_zero_iff a b).mp h
  rw [fsub_of_finite ha hb, addFinite_of_sum_zero hsum]
  simp only [eq_negZero_iff, eq_posZero_iff, Bool.not_eq_true']

theorem roundMagnitude_zero {d : Nat} (hd : 0 < d) : roundMagnitude 0 d = 0 := by
  simp [roundMagnitude, roundHalfEven, hd]

theorem fmul_of_product_zero (ha : isFinite a) (hb : isFinite b) (h : floatRat a * floatRat b = 0) :
    fmul a b = if a.msb = b.msb then 0 else negZero := by
  have hunits : floatUnits a * floatUnits b = 0 := by
    rwa [mul_eq_zero, floatRat_eq_zero_iff, floatRat_eq_zero_iff, ← Nat.mul_eq_zero] at h
  rw [fmul_of_finite ha hb, hunits, roundMagnitude_zero (Nat.two_pow_pos _), floatPattern_xor_zero]

/-- Division by zero: the infinity of the sign, or a NaN for 0 / 0. -/
theorem fdiv_by_zero (ha : isFinite a) (hb : isFinite b) (h : floatRat b = 0) : fdiv a b =
    if floatRat a = 0 then nanResult .fdiv a b else if a.msb = b.msb then posInf else negInf := by
  rw [fdiv_of_finite ha hb, if_pos ((floatRat_eq_zero_iff b).mp h), floatPattern_xor_inf]
  simp only [floatRat_eq_zero_iff]

theorem fdiv_of_zero (ha : isFinite a) (hb : isFinite b) (hne : floatRat b ≠ 0) (h : floatRat a = 0) :
    fdiv a b = if a.msb = b.msb then 0 else negZero := by
  have hub : floatUnits b ≠ 0 := mt (floatRat_eq_zero_iff b).mpr hne
  rw [fdiv_of_finite ha hb, if_neg hub, (floatRat_eq_zero_iff a).mp h, Nat.zero_mul,
    roundMagnitude_zero (Nat.pos_of_ne_zero hub), floatPattern_xor_zero]

/-- Settles O37: the clauses are the classes of the operands, one lemma each. -/
theorem floatSpecialValues : Obligations.FloatSpecialValues := by
  refine ⟨nanResult_isNaN, fun a b => nan_operand, infinities_cancel, infinities_add, fun a b ha hb => ?_,
    fun a b => infinities_mul_div, fun a b ha hb => ?_, fun a b ha hb => ?_⟩
  · obtain ⟨haddP, haddN, hsubP, hsubN⟩ := infinity_add_finite hb
    obtain ⟨haddP', haddN', hsubP', hsubN'⟩ := finite_add_infinity ha
    exact ⟨haddP, haddN, haddP', haddN', hsubP, hsubN, hsubP', hsubN', fadd_of_sum_zero ha hb,
      fsub_of_difference_zero ha hb⟩
  · obtain ⟨hmul, hmul'⟩ := infinity_mul_finite ha hb
    exact ⟨hmul, hmul', infinity_div_finite ha hb⟩
  · exact ⟨fmul_of_product_zero ha hb, fun h hne => (fdiv_by_zero ha hb h).trans (if_neg hne),
      fun h h0 => (fdiv_by_zero ha hb h).trans (if_pos h0), fdiv_of_zero ha hb⟩

end Sys2Proof.Machine
end

section
/-! PROOFS, 42_compare_logic.md. The byte instructions pop and push as the byte arithmetic does; a word comparison pushes one byte where it popped sixteen (R200, R201). What is left of each instruction is its relation (R202) or its operation on bits. -/
namespace Sys2Proof.Machine

variable {i : Instr} {op : Byte}

/-! ### Truth bytes (R201) -/

theorem truthByte_toNat (t : Bool) : (truthByte t).toNat = if t then 0xFF else 0x00 := by cases t <;> rfl

/-- An instruction that pushes the truth byte of a relation of the two bytes it pops. -/
theorem compareBytes_instruction {rel : Byte → Byte → Bool} (h : RunsBody op [] (compareBytes rel) i) :
    Encodes [op] i ∧ BlockedWhenTripped i ∧ UnderflowsBelow i 2 ∧
    ∀ (s : State) (a b : Byte), s.Sane → s.latch = .active → 2 ≤ s.sp →
      Holds s (s.slot (s.sp - 2)) 1 a.toNat → Holds s (s.slot (s.sp - 1)) 1 b.toNat →
      Completes i s (s.pc + 1) (s.sp - 1) (s.slot (s.sp - 2)) 1 (if rel a b then 0xFF else 0x00) := by
  simp only [← truthByte_toNat]
  exact byteArith_instruction (g := fun a b => truthByte (rel a b)) h

/-- An instruction that pushes the truth byte of a relation of the two words it pops. -/
theorem compareWords_instruction {rel : Word → Word → Bool} (h : RunsBody op [] (compareWords rel) i) :
    Encodes [op] i ∧ BlockedWhenTripped i ∧ UnderflowsBelow i 16 ∧
    ∀ (s : State) (a b : Word), s.Sane → s.latch = .active → 16 ≤ s.sp →
      Holds s (s.slot (s.sp - 16)) 8 a.toNat → Holds s (s.slot (s.sp - 8)) 8 b.toNat →
      Completes i s (s.pc + 1) (s.sp - 15) (s.slot (s.sp - 16)) 1 (if rel a b then 0xFF else 0x00) := by
  simp only [← truthByte_toNat]
  obtain ⟨hblocked, hunder⟩ := h.words_raise
  exact ⟨h.encodes, hblocked, hunder, fun s a b hs ha hsp hheldA hheldB =>
    h.completes_in_place hs ha (by omega) (by omega) (withWords_holds hs ha hsp hheldA hheldB)⟩

/-- Settles O39: each instruction compares A and B as unsigned numbers. -/
theorem byteComparisons : Obligations.ByteComparisons := by
  intro op i rel h
  have hrun : RunsBody op [] (compareBytes fun a b => rel a.toNat b.toNat) i := by
    simp only [List.mem_cons, Prod.mk.injEq, List.not_mem_nil, or_false] at h
    obtain ⟨rfl, rfl, rfl⟩ | ⟨rfl, rfl, rfl⟩ | ⟨rfl, rfl, rfl⟩ | ⟨rfl, rfl, rfl⟩ := h
    all_goals exact ⟨rfl, fun _ => rfl⟩
  exact compareBytes_instruction hrun

/-- Settles O40: each instruction compares A and B as signed numbers. -/
theorem intComparisons : Obligations.IntComparisons := by
  intro op i rel h
  have hrun : RunsBody op [] (compareWords fun a b => rel a.toInt b.toInt) i := by
    simp only [List.mem_cons, Prod.mk.injEq, List.not_mem_nil, or_false] at h
    obtain ⟨rfl, rfl, rfl⟩ | ⟨rfl, rfl, rfl⟩ | ⟨rfl, rfl, rfl⟩ | ⟨rfl, rfl, rfl⟩ := h
    all_goals exact ⟨rfl, fun _ => rfl⟩
  exact compareWords_instruction hrun

/-! ### Bitwise logic (R215 to R218) -/

/-- A byte that is popped first underflows an empty Stack, whatever follows. -/
theorem RunsBody.byte_raise {f : Byte → State → Res Flow} (h : RunsBody op [] (fun s => (popByte s).bind f) i) :
    BlockedWhenTripped i ∧ UnderflowsBelow i 1 := by
  refine ⟨h.blockedWhenTripped fun s hl => ?_, fun s _ ha hunder => ?_⟩
  · rw [popByte_blocked hl, Res.bind_raised]
  · exact h.raises (by rw [popByte, pop_underflows ha hunder, Res.bind_raised, Res.bind_raised]) rfl

theorem xor_ones_toNat (a : Byte) : ((0xFF : Byte) ^^^ a).toNat = 255 - a.toNat := by
  have hnot : (0xFF : Byte) ^^^ a = ~~~a := BitVec.allOnes_xor
  rw [hnot, BitVec.toNat_not]

/-- Settles O42: a byte is known by its bits, which the two-operand instructions combine one by one; `not` pushes where it
popped. (The name `byteLogic` is the model's.) -/
theorem byteLogic_holds : Obligations.ByteLogic := by
  constructor
  · intro op i f h
    obtain ⟨g, hrun, hg⟩ : ∃ g, RunsBody op [] (byteLogic g) i ∧
        ∀ (a b : Byte) (k : Nat), (g a b).getLsbD k = f (a.getLsbD k) (b.getLsbD k) := by
      simp only [List.mem_cons, Prod.mk.injEq, List.not_mem_nil, or_false] at h
      obtain ⟨rfl, rfl, rfl⟩ | ⟨rfl, rfl, rfl⟩ | ⟨rfl, rfl, rfl⟩ := h
      · exact ⟨(· &&& ·), ⟨rfl, fun _ => rfl⟩, fun _ _ _ => BitVec.getLsbD_and⟩
      · exact ⟨(· ||| ·), ⟨rfl, fun _ => rfl⟩, fun _ _ _ => BitVec.getLsbD_or⟩
      · exact ⟨(· ^^^ ·), ⟨rfl, fun _ => rfl⟩, fun _ _ _ => BitVec.getLsbD_xor⟩
    obtain ⟨henc, hblocked, hunder, hcomp⟩ := byteArith_instruction hrun
    refine ⟨henc, hblocked, hunder, fun s a b r hs ha hsp hheldA hheldB hbits => ?_⟩
    have hr : r = g a b := BitVec.eq_of_getLsbD_eq fun k hk => by rw [hbits k hk, hg]
    exact hr ▸ hcomp s a b hs ha hsp hheldA hheldB
  · have hrun : RunsBody 0x72 [] (fun s => (popByte s).bind fun a s => (pushByte (0xFF ^^^ a) s).thenAdvance) .notByte :=
      ⟨rfl, fun _ => rfl⟩
    obtain ⟨hblocked, hunder⟩ := hrun.byte_raise
    refine ⟨hrun.encodes, hblocked, hunder, fun s a hs ha hsp hheld => ?_⟩
    rw [← xor_ones_toNat]
    exact hrun.completes_in_place hs ha (by omega) le_rfl (by rw [popByte_holds hs ha hsp hheld, Res.bind_ok]; rfl)

end Sys2Proof.Machine
end

section
/-! PROOFS, 42_compare_logic.md, floats (R202). IEEE-754 order is the order of signed counts of units of 2^-1074, with the infinities at ±2^1024, past every finite value. -/
namespace Sys2Proof.Machine

variable {p a b : Word} {v w : FloatVal}

/-! ### The classes of patterns (R8) -/

/-- A pattern whose exponent bits are all one and whose fraction is zero is an infinity. -/
theorem pattern_class (p : Word) : IsNaNPattern p ∨ (p = posInf ∨ p = negInf) ∨ isFinite p := by
  by_cases hexp : (p.extractLsb' 52 11).toNat = 2047
  · by_cases hfrac : (p.extractLsb' 0 52).toNat = 0
    · have hmag : floatMagnitude p = infMagnitude := by
        rw [floatExponent_eq, floatExponent] at hexp
        rw [floatFraction_eq, floatFraction] at hfrac
        unfold floatMagnitude infMagnitude
        omega
      have hp := floatPattern_fields p
      rw [hmag, floatPattern_inf] at hp
      split at hp
      · exact .inr (.inl (.inr hp.symm))
      · exact .inr (.inl (.inl hp.symm))
    · exact .inl ⟨hexp, hfrac⟩
  · exact .inr (.inr hexp)

theorem floatVal_eq_nan_iff (p : Word) : floatVal p = .nan ↔ IsNaNPattern p := by
  refine ⟨fun h => ?_, floatVal_of_nan⟩
  obtain hnan | hinf | hfin := pattern_class p
  · exact hnan
  · exact nomatch (floatVal_eq_inf hinf).symm.trans h
  · exact nomatch (floatVal_eq_fin hfin).symm.trans h

/-! ### Places in the order -/

/-- The place of a value in the order, in units, the infinities standing at `top` and `-top`; that of a NaN means nothing. -/
def FloatVal.rank (top : Nat) : FloatVal → Int
  | .nan => 0
  | .inf neg => signedUnits neg top
  | .fin neg units => signedUnits neg units

/-- If the value is finite, it lies between the places of the infinities. -/
def FloatVal.Bounded (top : Nat) : FloatVal → Prop
  | .nan => True
  | .inf _ => True
  | .fin _ units => units < top

section
variable {top : Nat}

theorem signedUnits_ne_infinity {u : Nat} (h : u < top) (m n : Bool) : signedUnits m top ≠ signedUnits n u := by
  unfold signedUnits
  split <;> split <;> omega

theorem infinity_lt_signedUnits_iff {u : Nat} (h : u < top) (m n : Bool) :
    signedUnits m top < signedUnits n u ↔ m = true := by
  cases m <;> simp [signedUnits] <;> split <;> omega

theorem signedUnits_lt_infinity_iff {u : Nat} (h : u < top) (m n : Bool) :
    signedUnits m u < signedUnits n top ↔ n = false := by
  cases n <;> simp [signedUnits] <;> split <;> omega

theorem infinity_eq_infinity_iff (htop : 0 < top) (m n : Bool) : signedUnits m top = signedUnits n top ↔ m = n := by
  cases m <;> cases n <;> simp [signedUnits]
  all_goals omega

theorem infinity_lt_infinity_iff (htop : 0 < top) (m n : Bool) :
    signedUnits m top < signedUnits n top ↔ m = true ∧ n = false := by
  cases m <;> cases n <;> simp [signedUnits]
  all_goals omega

/-- IEEE equality: no NaN, and the same place. -/
theorem FloatVal.eq_iff_rank (htop : 0 < top) (hv : v.Bounded top) (hw : w.Bounded top) :
    v.eq w = true ↔ v ≠ .nan ∧ w ≠ .nan ∧ v.rank top = w.rank top := by
  cases v with
  | nan => simp [FloatVal.eq]
  | inf m => cases w with
    | nan => simp [FloatVal.eq]
    | inf n => simp [FloatVal.eq, rank, infinity_eq_infinity_iff htop]
    | fin n u => simp [FloatVal.eq, rank, signedUnits_ne_infinity hw]
  | fin m u => cases w with
    | nan => simp [FloatVal.eq]
    | inf n => simp [FloatVal.eq, rank, (signedUnits_ne_infinity hv n m).symm]
    | fin n u' => simp [FloatVal.eq, rank]

/-- IEEE less-than: no NaN, and a lower place. -/
theorem FloatVal.lt_iff_rank (htop : 0 < top) (hv : v.Bounded top) (hw : w.Bounded top) :
    v.lt w = true ↔ v ≠ .nan ∧ w ≠ .nan ∧ v.rank top < w.rank top := by
  cases v with
  | nan => simp [FloatVal.lt]
  | inf m => cases w with
    | nan => simp [FloatVal.lt]
    | inf n => simp [FloatVal.lt, rank, infinity_lt_infinity_iff htop]
    | fin n u => simp [FloatVal.lt, rank, infinity_lt_signedUnits_iff hw]
  | fin m u => cases w with
    | nan => simp [FloatVal.lt]
    | inf n => simp [FloatVal.lt, rank, signedUnits_lt_infinity_iff hv]
    | fin n u' => simp [FloatVal.lt, rank]

end

/-! ### The places of patterns -/

/-- The magnitude at which `floatOrder` places the infinities, 2^1024, in units of 2^-1074. -/
def infinityUnits : Nat := 2 ^ (1024 + 1074)

theorem infinityUnits_pos : 0 < infinityUnits := pow_pos two_pos (1024 + 1074)

theorem fieldUnits_lt {e f c n : Nat} (he : e ≤ c + 1) (hf : f < 2 ^ 52) (hn : n = 53 + c) : fieldUnits e f < 2 ^ n := by
  rw [hn, Nat.pow_add]
  have hscale : 2 ^ (e - 1) ≤ 2 ^ c := Nat.pow_le_pow_right two_pos (by omega)
  have hone : 1 ≤ 2 ^ c := Nat.one_le_two_pow
  unfold fieldUnits
  split
  · omega
  · exact Nat.mul_lt_mul_of_lt_of_le (by omega) hscale (by positivity)

theorem floatUnits_lt (h : isFinite p) : floatUnits p < infinityUnits := by
  have hexp : floatExponent p ≤ 2045 + 1 := by
    rw [isFinite, floatExponent_eq] at h
    have hlt : floatExponent p < 2 ^ 11 := Nat.mod_lt _ (by norm_num)
    omega
  have hfrac : floatFraction p < 2 ^ 52 := Nat.mod_lt _ (by norm_num)
  rw [← fieldUnits_eq_floatUnits, infinityUnits]
  exact fieldUnits_lt hexp hfrac rfl

theorem floatVal_bounded (p : Word) : (floatVal p).Bounded infinityUnits := by
  obtain hnan | hinf | hfin := pattern_class p
  · rw [floatVal_of_nan hnan]
    trivial
  · rw [floatVal_eq_inf hinf]
    trivial
  · rw [floatVal_eq_fin hfin]
    exact floatUnits_lt hfin

/-! ### The order as rationals -/

/-- The exponents are variables so that no tactic evaluates the powers. -/
theorem signed_two_pow (n : Bool) (e k : Nat) :
    (signedUnits n (2 ^ (e + k)) : ℚ) / 2 ^ k = if n then -2 ^ e else 2 ^ e := by
  cases n <;> simp [signedUnits, pow_add, neg_div]

theorem floatOrder_finite (h : isFinite p) : floatOrder p = floatRat p := by
  have hpos : p ≠ posInf := by
    rintro rfl
    exact h rfl
  have hneg : p ≠ negInf := by
    rintro rfl
    exact h rfl
  rw [floatOrder, if_neg hpos, if_neg hneg]

theorem floatOrder_eq_rank (h : ¬ IsNaNPattern p) : floatOrder p = ((floatVal p).rank infinityUnits : ℚ) / 2 ^ 1074 := by
  obtain (rfl | rfl) | hfin := (pattern_class p).resolve_left h
  · rw [floatVal_posInf, FloatVal.rank, infinityUnits, signed_two_pow]
    rfl
  · rw [floatVal_negInf, FloatVal.rank, infinityUnits, signed_two_pow]
    rfl
  · rw [floatOrder_finite hfin, floatVal_eq_fin hfin, floatRat_eq_floatInt]
    rfl

theorem floatOrder_eq_iff (ha : ¬ IsNaNPattern a) (hb : ¬ IsNaNPattern b) :
    floatOrder a = floatOrder b ↔ (floatVal a).rank infinityUnits = (floatVal b).rank infinityUnits := by
  rw [floatOrder_eq_rank ha, floatOrder_eq_rank hb, div_left_inj' (pow_ne_zero _ two_ne_zero), Int.cast_inj]

theorem floatOrder_lt_iff (ha : ¬ IsNaNPattern a) (hb : ¬ IsNaNPattern b) :
    floatOrder a < floatOrder b ↔ (floatVal a).rank infinityUnits < (floatVal b).rank infinityUnits := by
  rw [floatOrder_eq_rank ha, floatOrder_eq_rank hb, div_lt_div_iff_of_pos_right (pow_pos two_pos _), Int.cast_lt]

theorem feq_iff (a b : Word) :
    feq a b = true ↔ ¬ IsNaNPattern a ∧ ¬ IsNaNPattern b ∧ floatOrder a = floatOrder b := by
  simp only [feq, FloatVal.eq_iff_rank infinityUnits_pos (floatVal_bounded a) (floatVal_bounded b), ne_eq,
    floatVal_eq_nan_iff]
  exact and_congr_right fun ha => and_congr_right fun hb => (floatOrder_eq_iff ha hb).symm

theorem flt_iff (a b : Word) :
    flt a b = true ↔ ¬ IsNaNPattern a ∧ ¬ IsNaNPattern b ∧ floatOrder a < floatOrder b := by
  simp only [flt, FloatVal.lt_iff_rank infinityUnits_pos (floatVal_bounded a) (floatVal_bounded b), ne_eq,
    floatVal_eq_nan_iff]
  exact and_congr_right fun ha => and_congr_right fun hb => (floatOrder_lt_iff ha hb).symm

theorem fgt_iff (a b : Word) :
    fgt a b = true ↔ ¬ IsNaNPattern a ∧ ¬ IsNaNPattern b ∧ floatOrder a > floatOrder b :=
  (flt_iff b a).trans and_left_comm

/-- Settles O41: each instruction's test on patterns is its relation of the exact values. -/
theorem floatComparisons : Obligations.FloatComparisons := by
  intro op i rel h
  obtain ⟨test, hrun, htest⟩ : ∃ test, RunsBody op [] (compareWords test) i ∧ ∀ a b, test a b = true ↔ rel a b := by
    simp only [List.mem_cons, Prod.mk.injEq, List.not_mem_nil, or_false] at h
    obtain ⟨rfl, rfl, rfl⟩ | ⟨rfl, rfl, rfl⟩ | ⟨rfl, rfl, rfl⟩ | ⟨rfl, rfl, rfl⟩ := h
    · exact ⟨feq, ⟨rfl, fun _ => rfl⟩, feq_iff⟩
    · refine ⟨fun a b => !feq a b, ⟨rfl, fun _ => rfl⟩, fun a b => ?_⟩
      rw [Bool.not_eq_true', ← Bool.not_eq_true, feq_iff]
    · exact ⟨fgt, ⟨rfl, fun _ => rfl⟩, fgt_iff⟩
    · exact ⟨flt, ⟨rfl, fun _ => rfl⟩, flt_iff⟩
  obtain ⟨henc, hblocked, hunder, hcomp⟩ := compareWords_instruction hrun
  refine ⟨henc, hblocked, hunder, fun s a b hs ha hsp hheldA hheldB => ?_⟩
  have hpush := hcomp s a b hs ha hsp hheldA hheldB
  rw [← htest]
  exact ⟨fun ht => by rwa [if_pos ht] at hpush, fun hf => by rwa [if_neg hf] at hpush⟩

end Sys2Proof.Machine
end


section
/-! PROOFS, 43_control_flow.md. A taken jump ends in the target check, which redirects or raises, and a call in the push of its return address and that check; both ends are said once. A conditional jump is one body at each width and zero test (R231), reached directly or after its target is popped. -/
namespace Sys2Proof.Machine

variable {s : State} {i : Instr} {op : Byte} {operand : List Byte} {body : State → Res Flow} {t : Word}

/-- Settles O43: the arm of end sets RUNSTATE alone, and the fetch reads it at any 0x00 byte. -/
theorem endHaltsCleanly : Obligations.EndHaltsCleanly :=
  ⟨encodes_of_encode rfl, fun _ => rfl, fun _ => step_of_zero_at_pc⟩

/-! ### The target check (R230) -/

theorem redirectTo_inside (hlo : 0 ≤ t.toInt) (hhi : t.toInt < s.memSize) : redirectTo t s = .ok (.redirect t) s :=
  if_pos ⟨hlo, hhi⟩

theorem redirectTo_outside (h : t.toInt < 0 ∨ s.memSize ≤ t.toInt) : redirectTo t s = .raised .illegalAddress s :=
  if_neg (by unfold legalTarget; omega)

/-- A body that moved SP and then jumps: it stores nothing, and a bad target undoes the move. -/
theorem RunsBody.jumps (h : RunsBody op operand body i) {sp : Nat} (hb : body s = redirectTo t { s with sp := sp }) :
    (0 ≤ t.toInt → t.toInt < s.memSize → CompletesStoringNothing i s t sp) ∧
    (t.toInt < 0 ∨ s.memSize ≤ t.toInt → Raises i s .illegalAddress s.latch) := by
  constructor
  · intro hlo hhi
    have hexec := h.meaning s
    rw [hb, redirectTo_inside (s := { s with sp := sp }) hlo hhi, commit_redirect] at hexec
    exact ⟨_, hexec, rfl, rfl, .refl s, fun _ => rfl⟩
  · exact fun hout => h.raises (hb.trans (redirectTo_outside (s := { s with sp := sp }) hout)) rfl

/-! ### Bodies that begin with a pop -/

theorem popByte_bind {α : Type} (s : State) (f : Byte → State → Res α) :
    (popByte s).bind f = (pop 1 s).bind fun v => f (BitVec.ofNat 8 v) := by
  unfold popByte
  cases pop 1 s <;> rfl

theorem popWord_bind {α : Type} (s : State) (f : Word → State → Res α) :
    (popWord s).bind f = (pop 8 s).bind fun v => f (BitVec.ofNat 64 v) := by
  unfold popWord
  cases pop 8 s <;> rfl

/-- What a first pop raises, whatever follows it. -/
theorem RunsBody.pop_raises {n : Nat} {f : Nat → State → Res Flow}
    (h : RunsBody op operand (fun s => (pop n s).bind f) i) : BlockedWhenTripped i ∧ UnderflowsBelow i n := by
  refine ⟨h.blockedWhenTripped fun s hl => ?_, fun s _ ha hunder => ?_⟩
  · rw [pop_blocked hl, Res.bind_raised]
  · exact h.raises (by rw [pop_underflows ha hunder, Res.bind_raised]) rfl

theorem RunsBody.popWord_raises {f : Word → State → Res Flow}
    (h : RunsBody op operand (fun s => (popWord s).bind f) i) : BlockedWhenTripped i ∧ UnderflowsBelow i 8 := by
  simp only [popWord_bind] at h
  exact h.pop_raises

/-! ### ret and jmp (R233, R234) -/

/-- Settles O44: the target check of the popped word, with SP 8 lower. -/
theorem returnJumpsToPoppedAddress : Obligations.ReturnJumpsToPoppedAddress := by
  have hrun : RunsBody 0xE0 [] (fun s => (popWord s).bind fun t s => redirectTo t s) .ret := ⟨rfl, fun _ => rfl⟩
  obtain ⟨hblocked, hunder⟩ := hrun.popWord_raises
  refine ⟨hrun.encodes, hblocked, hunder, fun s t hs ha hsp hheld => ?_⟩
  rw [← ha]
  exact hrun.jumps (by rw [popWord_holds hs ha hsp hheld, Res.bind_ok])

/-- Settles O45: the target check of the literal, with SP where it was. -/
theorem jumpSetsPC : Obligations.JumpSetsPC := by
  intro t
  have hrun : RunsBody 0xE1 (opnd64 t) (redirectTo t) (.jmp t) := runsBody_f8 rfl fun _ => rfl
  exact ⟨hrun.encodes, hrun.operandPastEnd, fun s => hrun.jumps (sp := s.sp) rfl⟩

/-! ### Calls (R247, R248) -/

theorem returnAddress_eq (opw : Nat) (s : State) : returnAddress opw s = s.pc + BitVec.ofNat 64 (1 + opw) :=
  advance_eq s.pc opw

/-- A body that pushes a return address at SP = `p` and then jumps: a bad target undoes the push. -/
theorem RunsBody.calls (h : RunsBody op operand body i) (hs : s.Sane) (ha : s.latch = .active) {p : Nat}
    (hfit : p + 8 ≤ s.stackSize) {ret : Word}
    (hb : body s = (pushWord ret { s with sp := p }).bind fun _ u => redirectTo t u) :
    (0 ≤ t.toInt → t.toInt < s.memSize → Completes i s t (p + 8) (s.slot p) 8 ret.toNat) ∧
    (t.toInt < 0 ∨ s.memSize ≤ t.toInt → Raises i s .illegalAddress .active) := by
  have hsane : State.Sane { s with sp := p } := Sane.withSp hs (by omega)
  rw [pushWord, push_fits hsane ha ret.toNat hfit, Res.bind_ok] at hb
  constructor
  · intro hlo hhi
    have hcheck := redirectTo_inside (s := State.pushed { s with sp := p } 8 ret.toNat) hlo hhi
    have hexec := h.meaning s
    rw [hb, hcheck, commit_redirect] at hexec
    exact ⟨_, hexec, rfl, rfl, .refl s, pushed_holds hsane ret.toNat hfit,
      fun x hx => pushed_outside { s with sp := p } 8 ret.toNat hx⟩
  · intro hout
    have hcheck := redirectTo_outside (s := State.pushed { s with sp := p } 8 ret.toNat) hout
    exact h.raises (hb.trans hcheck) ha

/-- Settles O48: the return address goes where the target was popped, and so it fits. -/
theorem callPushesReturnAddress : Obligations.CallPushesReturnAddress := by
  have hrun : RunsBody 0xF8 [] (fun s => (popWord s).bind fun t s =>
      (pushWord (returnAddress 0 s) s).bind fun _ s => redirectTo t s) .call := ⟨rfl, fun _ => rfl⟩
  obtain ⟨hblocked, hunder⟩ := hrun.popWord_raises
  refine ⟨hrun.encodes, hblocked, hunder, fun s t hs ha hsp hheld => ?_⟩
  have hfit : s.sp - 8 + 8 ≤ s.stackSize := by
    obtain ⟨hwindow, -⟩ := hs
    omega
  have hcall := hrun.calls (t := t) (ret := s.pc + 1) hs ha hfit
    (by rw [popWord_holds hs ha hsp hheld, Res.bind_ok, returnAddress_eq]; rfl)
  rwa [Nat.sub_add_cancel hsp] at hcall

/-- Settles O49: the push is tried before the target is checked (D20). -/
theorem callAddressPushesReturnAddress : Obligations.CallAddressPushesReturnAddress := by
  intro t
  have hrun : RunsBody 0xF9 (opnd64 t) (fun s => (pushWord (returnAddress 8 s) s).bind fun _ s => redirectTo t s)
      (.callAddress t) := runsBody_f8 rfl fun _ => rfl
  refine ⟨hrun.encodes, hrun.operandPastEnd, hrun.blockedWhenTripped fun s hl => ?_, fun s _ ha hover => ?_,
    fun s hs ha hfit => hrun.calls hs ha hfit (by rw [returnAddress_eq]; rfl)⟩
  · rw [pushWord, push_blocked hl, Res.bind_raised]
  · exact hrun.raises (by rw [pushWord, push_overflows ha hover, Res.bind_raised]) rfl

/-! ### The zero tests (R231) -/

/-- Of the float patterns, the two zeros alone are zero. -/
theorem isZeroFloat_iff (p : Word) : isZeroFloat p = true ↔ p = 0 ∨ p = negZero := by
  have hfinite : p = 0 ∨ p = negZero → isFinite p := by
    rw [isFinite]
    rintro (rfl | rfl)
    all_goals decide
  have hval : floatVal 0 = .fin false 0 := rfl
  rw [isZeroFloat, feq, hval]
  obtain hnan | hinf | hfin := pattern_class p
  · have hne : ¬ (p = 0 ∨ p = negZero) := fun h => hfinite h hnan.1
    rw [floatVal_of_nan hnan]
    exact iff_of_false Bool.false_ne_true hne
  · have hne : ¬ (p = 0 ∨ p = negZero) := fun h => hfinite h (by obtain rfl | rfl := hinf <;> rfl)
    rw [floatVal_eq_inf hinf]
    exact iff_of_false Bool.false_ne_true hne
  · have hunits : FloatVal.eq (.fin p.msb (floatUnits p)) (.fin false 0) = true ↔ floatUnits p = 0 := by
      rw [← signedUnits_eq_zero_iff p.msb]
      exact decide_eq_true_iff
    rw [floatVal_eq_fin hfin, hunits, eq_posZero_iff, eq_negZero_iff]
    cases p.msb <;> simp

theorem ofNat_eq_iff {n v : Nat} (hv : v < 2 ^ n) (p : BitVec n) : BitVec.ofNat n v = p ↔ v = p.toNat := by
  rw [BitVec.nat_eq_toNat, and_iff_right hv, eq_comm]

/-- On values of `w` bytes, `test` says whether the jump is taken. -/
def Decides (w : Nat) (test : Nat → Bool) (taken : Nat → Prop) : Prop :=
  ∀ v < 256 ^ w, test v = true ↔ taken v

theorem zeroByte_decides : Decides 1 (fun v => isZeroByte (BitVec.ofNat 8 v)) fun v => v = 0 :=
  fun _ hv => beq_iff_eq.trans (ofNat_eq_iff hv 0)

theorem zeroInt_decides : Decides 8 (fun v => isZeroInt (BitVec.ofNat 64 v)) fun v => v = 0 :=
  fun _ hv => decide_eq_true_iff.trans ((sext64_eq_zero_iff _).trans (ofNat_eq_iff hv 0))

theorem zeroFloat_decides : Decides 8 (fun v => isZeroFloat (BitVec.ofNat 64 v)) fun v => v = 0 ∨ v = 2 ^ 63 :=
  fun _ hv => (isZeroFloat_iff _).trans <| or_congr (ofNat_eq_iff hv 0) (ofNat_eq_iff hv negZero)

/-- jmpnz-T is taken where jmpz-T is not. -/
theorem Decides.not {w : Nat} {test : Nat → Bool} {taken : Nat → Prop} (h : Decides w test taken) :
    Decides w (fun v => !test v) fun v => ¬ taken v := by
  intro v hv
  rw [Bool.not_eq_true', ← Bool.not_eq_true, h v hv]

theorem nonzeroFloat_decides :
    Decides 8 (fun v => !isZeroFloat (BitVec.ofNat 64 v)) fun v => v ≠ 0 ∧ v ≠ 2 ^ 63 :=
  fun v hv => (zeroFloat_decides.not v hv).trans not_or

/-! ### Conditional jumps (R235 to R246) -/

/-- Pop a value of `w` bytes and jump to `t` if the test holds of it. -/
def jumpOnPopped (w : Nat) (test : Nat → Bool) (t : Word) (s : State) : Res Flow :=
  (pop w s).bind fun v s => jumpIf (test v) t s

/-- Pop a target, and then a value of `w` bytes to test. -/
def jumpOnStack (w : Nat) (test : Nat → Bool) (s : State) : Res Flow :=
  (popWord s).bind fun t s => jumpOnPopped w test t s

theorem jumpByteLiteral_eq (cond : Byte → Bool) (t : Word) (s : State) :
    jumpByteLiteral cond t s = jumpOnPopped 1 (fun v => cond (BitVec.ofNat 8 v)) t s :=
  popByte_bind s _

theorem jumpWordLiteral_eq (cond : Word → Bool) (t : Word) (s : State) :
    jumpWordLiteral cond t s = jumpOnPopped 8 (fun v => cond (BitVec.ofNat 64 v)) t s :=
  popWord_bind s _

theorem jumpByteStack_eq (cond : Byte → Bool) (s : State) :
    jumpByteStack cond s = jumpOnStack 1 (fun v => cond (BitVec.ofNat 8 v)) s :=
  congrArg (popWord s).bind (funext₂ fun t u => jumpByteLiteral_eq cond t u)

theorem jumpWordStack_eq (cond : Word → Bool) (s : State) :
    jumpWordStack cond s = jumpOnStack 8 (fun v => cond (BitVec.ofNat 64 v)) s :=
  congrArg (popWord s).bind (funext₂ fun t u => jumpWordLiteral_eq cond t u)

section
variable {w v : Nat} {test : Nat → Bool} {taken : Nat → Prop}

/-- With a value on top of the Stack, what is left is the jump on its test. -/
theorem jumpOnPopped_holds (hs : s.Sane) (ha : s.latch = .active) (hsp : w ≤ s.sp) (hv : v < 256 ^ w)
    (hheld : Holds s (s.slot (s.sp - w)) w v) :
    jumpOnPopped w test t s = jumpIf (test v) t { s with sp := s.sp - w } := by
  rw [jumpOnPopped, pop_holds hs ha hsp hheld, Res.bind_ok, Nat.mod_eq_of_lt hv]

theorem jumpOnStack_holds (hs : s.Sane) (ha : s.latch = .active) (hsp : 8 + w ≤ s.sp) (hv : v < 256 ^ w)
    (htarget : Holds s (s.slot (s.sp - 8)) 8 t.toNat) (hheld : Holds s (s.slot (s.sp - 8 - w)) w v) :
    jumpOnStack w test s = jumpIf (test v) t { s with sp := s.sp - 8 - w } := by
  have hsane : State.Sane { s with sp := s.sp - 8 } := Sane.popped hs 8
  have hvalue : w ≤ s.sp - 8 := by omega
  rw [jumpOnStack, popWord_holds hs ha (by omega) htarget, Res.bind_ok]
  exact jumpOnPopped_holds hsane ha hvalue hv hheld

/-- Either pop can underflow, and LATCH is all that is kept of the raise. -/
theorem jumpOnStack_underflows (hs : s.Sane) (ha : s.latch = .active) (h : s.sp < 8 + w) :
    ∃ u, jumpOnStack w test s = .raised .stackUnderflow u ∧ u.latch = .underflowed := by
  rcases Nat.lt_or_ge s.sp 8 with htop | htop
  · exact ⟨_, by rw [jumpOnStack, popWord_bind, pop_underflows ha htop, Res.bind_raised], rfl⟩
  · obtain ⟨a, hpop⟩ := pop_fits hs ha htop
    have hdeeper : s.sp - 8 < w := by omega
    exact ⟨_, by rw [jumpOnStack, popWord_bind, hpop, Res.bind_ok, jumpOnPopped,
      pop_underflows (s := { s with sp := s.sp - 8 }) ha hdeeper, Res.bind_raised], rfl⟩

/-- A body that moved SP and then jumps on a test of `v`: taken it jumps, and otherwise it falls through, whatever the
target is. -/
theorem RunsBody.jumps_if (h : RunsBody op operand body i) (ha : s.latch = .active) (htest : Decides w test taken)
    (hv : v < 256 ^ w) {sp : Nat} (hb : body s = jumpIf (test v) t { s with sp := sp }) :
    (taken v → 0 ≤ t.toInt → t.toInt < s.memSize → CompletesStoringNothing i s t sp) ∧
    (taken v → (t.toInt < 0 ∨ s.memSize ≤ t.toInt) → Raises i s .illegalAddress .active) ∧
    (¬ taken v → CompletesStoringNothing i s (s.pc + BitVec.ofNat 64 (1 + operand.length)) sp) := by
  rw [← htest v hv]
  have hjump (htaken : test v = true) := h.jumps (hb.trans (if_pos htaken))
  rw [← ha]
  exact ⟨fun htaken => (hjump htaken).1, fun htaken => (hjump htaken).2,
    fun huntaken => h.completesStoringNothing (hb.trans (if_neg huntaken))⟩

end

/-- Settles O46: the target and the value are popped, and the jump is on the zero test of the value. -/
theorem conditionalJumpsWithStackTarget : Obligations.ConditionalJumpsWithStackTarget := by
  intro op i w taken h
  obtain ⟨test, htest, hrun⟩ : ∃ test, Decides w test taken ∧ RunsBody op [] (jumpOnStack w test) i := by
    simp only [List.mem_cons, Prod.mk.injEq, List.not_mem_nil, or_false] at h
    obtain ⟨rfl, rfl, rfl, rfl⟩ | ⟨rfl, rfl, rfl, rfl⟩ | ⟨rfl, rfl, rfl, rfl⟩ | ⟨rfl, rfl, rfl, rfl⟩ |
      ⟨rfl, rfl, rfl, rfl⟩ | ⟨rfl, rfl, rfl, rfl⟩ := h
    · exact ⟨_, zeroByte_decides, rfl, fun s => congrArg (commit 0 s) (jumpByteStack_eq _ s)⟩
    · exact ⟨_, zeroInt_decides, rfl, fun s => congrArg (commit 0 s) (jumpWordStack_eq _ s)⟩
    · exact ⟨_, zeroFloat_decides, rfl, fun s => congrArg (commit 0 s) (jumpWordStack_eq _ s)⟩
    · exact ⟨_, zeroByte_decides.not, rfl, fun s => congrArg (commit 0 s) (jumpByteStack_eq _ s)⟩
    · exact ⟨_, zeroInt_decides.not, rfl, fun s => congrArg (commit 0 s) (jumpWordStack_eq _ s)⟩
    · exact ⟨_, nonzeroFloat_decides, rfl, fun s => congrArg (commit 0 s) (jumpWordStack_eq _ s)⟩
  obtain ⟨hblocked, -⟩ := hrun.popWord_raises
  refine ⟨hrun.encodes, hblocked, fun s hs ha hunder => ?_, fun s t v hs ha hsp hv htarget hheld =>
    hrun.jumps_if ha htest hv (jumpOnStack_holds hs ha hsp hv htarget hheld)⟩
  obtain ⟨u, hbody, hlatch⟩ := jumpOnStack_underflows (test := test) hs ha hunder
  exact hrun.raises hbody hlatch

/-- Settles O47: the value is popped, and the jump to the literal is on its zero test. -/
theorem conditionalJumpsWithLiteralTarget : Obligations.ConditionalJumpsWithLiteralTarget := by
  intro t op i w taken h
  obtain ⟨test, htest, hrun⟩ : ∃ test, Decides w test taken ∧ RunsBody op (opnd64 t) (jumpOnPopped w test t) i := by
    simp only [List.mem_cons, Prod.mk.injEq, List.not_mem_nil, or_false] at h
    obtain ⟨rfl, rfl, rfl, rfl⟩ | ⟨rfl, rfl, rfl, rfl⟩ | ⟨rfl, rfl, rfl, rfl⟩ | ⟨rfl, rfl, rfl, rfl⟩ |
      ⟨rfl, rfl, rfl, rfl⟩ | ⟨rfl, rfl, rfl, rfl⟩ := h
    · exact ⟨_, zeroByte_decides, runsBody_f8 rfl fun s => congrArg (commit 8 s) (jumpByteLiteral_eq _ t s)⟩
    · exact ⟨_, zeroInt_decides, runsBody_f8 rfl fun s => congrArg (commit 8 s) (jumpWordLiteral_eq _ t s)⟩
    · exact ⟨_, zeroFloat_decides, runsBody_f8 rfl fun s => congrArg (commit 8 s) (jumpWordLiteral_eq _ t s)⟩
    · exact ⟨_, zeroByte_decides.not, runsBody_f8 rfl fun s => congrArg (commit 8 s) (jumpByteLiteral_eq _ t s)⟩
    · exact ⟨_, zeroInt_decides.not, runsBody_f8 rfl fun s => congrArg (commit 8 s) (jumpWordLiteral_eq _ t s)⟩
    · exact ⟨_, nonzeroFloat_decides, runsBody_f8 rfl fun s => congrArg (commit 8 s) (jumpWordLiteral_eq _ t s)⟩
  obtain ⟨hblocked, hunder⟩ := hrun.pop_raises
  exact ⟨hrun.encodes, hrun.operandPastEnd, hblocked, hunder, fun s v hs ha hsp hv hheld =>
    hrun.jumps_if ha htest hv (jumpOnPopped_holds hs ha hsp hv hheld)⟩

end Sys2Proof.Machine
end

section
/-! PROOFS, 60_exceptions.md. The error halt restores what the step found (R279), and no step raises Blocked while the invariant holds (R274): both are read off the inversion of the step. The trace port's record is compared with the bytes of Memory (R288), its operand by one field function of the opcode and the operand bytes. -/
namespace Sys2Proof.Machine

variable {s t : State} {op : Byte} {row : OpRow}

/-! ### The error halt (R279) and Blocked (R274) -/

/-- LATCH after a raise, told by the error alone. -/
theorem LatchAfter.by_error {e : ErrorCode} {l : Latch} (h : LatchAfter s e l) :
    (e = .stackOverflow ∧ l = .overflowed) ∨ (e = .stackUnderflow ∧ l = .underflowed) ∨
      (e ≠ .stackOverflow ∧ e ≠ .stackUnderflow ∧ l = s.latch) := by
  obtain ⟨hl, hover, hunder, -⟩ | ⟨-, he, hl⟩ | ⟨-, he, hl⟩ := h
  · exact .inr (.inr ⟨hover, hunder, hl⟩)
  · exact .inl ⟨he, hl⟩
  · exact .inr (.inl ⟨he, hl⟩)

/-- An untripped Stack raises no Blocked. -/
theorem LatchAfter.ne_blocked {e : ErrorCode} {l : Latch} (h : LatchAfter s e l) (ha : s.latch = .active) :
    e ≠ .blocked := by
  obtain ⟨-, -, -, hblocked⟩ | ⟨-, rfl, -⟩ | ⟨-, rfl, -⟩ := h
  · exact fun he => hblocked he ha
  · nofun
  · nofun

/-- Settles O54: of the ways a step of a running engine can go, the raise alone ends in HALTED_ERROR. -/
theorem errorHaltRestoresState : Obligations.ErrorHaltRestoresState := by
  intro s t hr h hhalt
  cases stepTo_of_step h with
  | absorbed hn => exact absurd hr hn
  | ended => exact nomatch hhalt
  | completed _ u p hu =>
    obtain ⟨-, ⟨-, hrun, -⟩, -⟩ := hu
    exact nomatch (hrun.trans hr).symm.trans hhalt
  | raised _ e l hl => exact ⟨e, rfl, hl.by_error⟩

/-- Settles O57: only a raise changes ERR, and while the engine runs its LATCH is ACTIVE. -/
theorem blockedIsUnreachable : Obligations.BlockedIsUnreachable := by
  intro s t hs he h
  cases stepTo_of_step h with
  | absorbed | ended => exact he
  | completed _ u p hu =>
    obtain ⟨-, ⟨-, -, herr, -⟩, -⟩ := hu
    exact fun hb => he (herr.symm.trans hb)
  | raised hr e l hl => exact fun hb => hl.ne_blocked (hs.of_running hr).1 (Option.some.inj hb)

/-! ### The outcome field (R288) -/

/-- In a state that meets the invariant, ERR and RUNSTATE agree on the outcome. -/
theorem traceOutcome_iff (h : t.Inv) :
    (traceOutcome t = .ok ↔ t.runState = .running) ∧ (traceOutcome t = .haltedClean ↔ t.runState = .haltedClean) ∧
      ∀ e, traceOutcome t = .error e ↔ t.err = some e := by
  obtain ⟨-, -, -, herr⟩ := h
  unfold traceOutcome
  cases hr : t.runState with
  | running | haltedClean => simp [herr.mpr (by simp [hr])]
  | haltedError =>
    obtain ⟨e, he⟩ := Option.ne_none_iff_exists'.mp fun hn => herr.mp hn hr
    simp [he]

/-! ### The operand field (R101, R105, R288) -/

/-- The operand field that R288 gives an opcode with the operand bytes `bs`: a u8 for push-byte, a float pattern for
push-float, an s64 for any other F8 opcode, and else none. -/
def operandField (op : Byte) (bs : List Byte) : Option TraceOperand :=
  if op = 0x08 then some (.u8 (BitVec.ofNat 8 (leValue bs)))
  else if f8Opcode op then
    some (if op = 0x0A then .float (BitVec.ofNat 64 (leValue bs)) else .s64 (BitVec.ofNat 64 (leValue bs)).toInt)
  else none

theorem operandField_pushByte (bs : List Byte) : operandField 0x08 bs = some (.u8 (BitVec.ofNat 8 (leValue bs))) :=
  if_pos rfl

theorem operandField_f8 (h : f8Opcode op = true) (bs : List Byte) : operandField op bs =
    some (if op = 0x0A then .float (BitVec.ofNat 64 (leValue bs)) else .s64 (BitVec.ofNat 64 (leValue bs)).toInt) := by
  have hne : op ≠ 0x08 := by
    rintro rfl
    exact absurd h (by decide)
  rw [operandField, if_neg hne, if_pos h]

theorem operandField_none (h : op ≠ 0x08) (h' : f8Opcode op = false) (bs : List Byte) : operandField op bs = none := by
  rw [operandField, if_neg h, h', if_neg Bool.false_ne_true]

/-- An undefined opcode is neither push-byte's nor of format F8. -/
theorem operandField_of_lookup_none (h : lookupOpcode op = none) (bs : List Byte) : operandField op bs = none := by
  have hundef := lookupOpcode_eq_none_iff.mp h
  refine operandField_none ?_ ?_ bs
  · rintro rfl
    exact absurd hundef (by decide)
  · rw [Bool.eq_false_iff]
    intro hf8
    simp [(operandWidthOf_f8 op hf8).1] at hundef

/-- A defined opcode with its operand bytes decodes to an instruction that shows the field of those bytes. -/
theorem decode_operandField (h : lookupOpcode op = some row) {rest : List Byte}
    (hlen : row.shape.operandWidth ≤ rest.length) :
    ∃ i rest', decode (op :: rest) = .ok (i, rest') ∧
      traceOperand i = operandField op (rest.take row.shape.operandWidth) := by
  have hfield := traceOperand_of_row row (List.mem_of_find?_eq_some h)
  obtain rfl := opcode_of_lookup h
  simp only [decode, h, if_neg (Nat.not_lt.mpr hlen)]
  obtain ⟨op, mnemonic, shape⟩ := row
  cases shape with
  | f0 i =>
    obtain ⟨hnone, hne, hf8⟩ := hfield
    exact ⟨i, _, rfl, hnone.trans (operandField_none hne hf8 _).symm⟩
  | f1 mk =>
    obtain ⟨rfl, hu8⟩ := hfield
    exact ⟨_, _, rfl, (hu8 _).trans (operandField_pushByte _).symm⟩
  | f8 mk =>
    obtain ⟨hf8, hword⟩ := hfield
    exact ⟨_, _, rfl, (hword _).trans (operandField_f8 hf8 _).symm⟩

/-- The operand is never longer than the bytes the fetch looks at (R101). -/
theorem operandWidthOf_le (op : Byte) : operandWidthOf op ≤ 8 := by
  unfold operandWidthOf
  split_ifs <;> decide

theorem tracedOperand_of_decode_ok {i : Instr} {rest : List Byte} (h : decode (fetchBytes s) = .ok (i, rest)) :
    tracedOperand s = traceOperand i := by
  rw [tracedOperand, fetch, h]

theorem tracedOperand_of_decode_error {e : DecodeError} (h : decode (fetchBytes s) = .error e) :
    tracedOperand s = none := by
  rw [tracedOperand, fetch, h]

/-- With PC inside Memory the operand is absent where it extends past Memory, and else it is the field of the bytes
after the opcode byte (R107, R288). -/
theorem tracedOperand_inside (hlo : 0 ≤ s.pc.toInt) (hhi : s.pc.toInt < s.memSize)
    (hop : s.byteAt s.pc.toInt.toNat = op) :
    tracedOperand s = if (s.memSize : Int) < s.pc.toInt + (1 + operandWidthOf op : Nat) then none
      else operandField op (s.mem.bytes (s.pc.toInt.toNat + 1) (operandWidthOf op)) := by
  have hbytes := hop ▸ fetchBytes_inside hlo hhi
  have hle := operandWidthOf_le op
  cases hrow : lookupOpcode op with
  | none =>
    have hdecode := hbytes ▸ decode_of_lookup_none hrow _
    rw [tracedOperand_of_decode_error hdecode, operandField_of_lookup_none hrow, ite_self]
  | some row =>
    have hwidth := operandWidth_of_lookup hrow
    rw [← hwidth]
    split
    · have hdecode := hbytes ▸ decode_of_short_operand hrow (by rw [Memory.bytes_length]; omega)
      exact tracedOperand_of_decode_error hdecode
    · have hfits : row.shape.operandWidth ≤ min 8 (s.memSize - s.pc.toInt.toNat - 1) := by omega
      obtain ⟨i, rest, hdecode, hfield⟩ := decode_operandField hrow (hfits.trans_eq (Memory.bytes_length ..).symm)
      rw [tracedOperand_of_decode_ok (hbytes ▸ hdecode), hfield, Memory.bytes_take _ _ hfits]

/-- The word that eight bytes hold is the one the fetch reads from them. -/
theorem ofNat_leValue_of_holds {x : Nat} {v : Word} (h : Holds s x 8 v.toNat) :
    BitVec.ofNat 64 (leValue (s.mem.bytes x 8)) = v := by
  rw [leValue_bytes h, Nat.mod_eq_of_lt (show v.toNat < 256 ^ 8 from v.isLt), BitVec.ofNat_toNat, BitVec.setWidth_eq]

/-! ### The record (R288) -/

/-- Outside Memory there is no opcode byte, and so nothing to show of an instruction. -/
theorem traceRecordOf_outside (t : State) (h : s.pc.toInt < 0 ∨ s.memSize ≤ s.pc.toInt) :
    (traceRecordOf s t).opcode = none ∧ (traceRecordOf s t).mnemonic = none ∧ (traceRecordOf s t).operand = none := by
  have hbytes := fetchBytes_outside h
  have hdecode : decode (fetchBytes s) = .error .noOpcode := by rw [hbytes, decode]
  exact ⟨by rw [traceRecordOf, hbytes]; rfl, by rw [traceRecordOf, hbytes]; rfl, tracedOperand_of_decode_error hdecode⟩

/-- Inside Memory the record shows the byte at PC, and the name that R108 gives it. -/
theorem traceRecordOf_inside (t : State) (hlo : 0 ≤ s.pc.toInt) (hhi : s.pc.toInt < s.memSize)
    (hop : s.byteAt s.pc.toInt.toNat = op) :
    (traceRecordOf s t).opcode = some op ∧ (traceRecordOf s t).mnemonic = mnemonicOf op := by
  have hhead : (fetchBytes s).head? = some op := by rw [fetchBytes_inside hlo hhi, hop, List.head?_cons]
  refine ⟨hhead, ?_⟩
  rw [← lookupOpcode_mnemonic, traceRecordOf, hhead, Option.bind_some]

theorem mnemonicOf_eq_none_iff : mnemonicOf op = none ↔ undefinedOpcode op = true := by
  rw [← lookupOpcode_mnemonic, Option.map_eq_none_iff, lookupOpcode_eq_none_iff]

/-- Settles O59: the outcome is read off ERR and RUNSTATE after the step, and the operand off the bytes after the opcode,
format by format. -/
theorem traceRecordDescribesStep : Obligations.TraceRecordDescribesStep := by
  refine ⟨fun s hs => traceRecord_silent fun h => ?_, fun s t hs ht hr h => ?_⟩
  · obtain hoff | hhalted := hs
    · simp [h.1] at hoff
    · exact hhalted h.2
  obtain ⟨hok, hclean, herror⟩ := traceOutcome_iff (stepKeepsInvariant s t hs h)
  refine ⟨_, traceRecord_of_step ht hr h, rfl, hok, hclean, herror, traceRecordOf_outside t, ?_⟩
  intro op hlo hhi hop
  obtain ⟨hopcode, hmnemonic⟩ := traceRecordOf_inside t hlo hhi hop
  have hoperand : (traceRecordOf s t).operand = _ := tracedOperand_inside hlo hhi hop
  have hf8width (h : f8Opcode op = true) : operandWidthOf op = 8 := (operandWidthOf_f8 op h).2
  refine ⟨hopcode, hmnemonic, hmnemonic ▸ mnemonicOf_eq_none_iff, ?_, ?_, ?_, ?_, ?_, ?_⟩
  all_goals rw [hoperand]
  · rintro rfl hfits
    rw [if_neg (by simp [operandWidthOf]; omega), operandField_pushByte]
    simp [operandWidthOf, Memory.bytes, leValue, State.byteAt]
  · rintro rfl hfits bits hheld
    rw [hf8width rfl, if_neg (by omega), operandField_f8 rfl, if_pos rfl, ofNat_leValue_of_holds hheld]
  · intro hf8 hne hfits v hheld
    rw [hf8width hf8, if_neg (by omega), operandField_f8 hf8, if_neg hne, ofNat_leValue_of_holds hheld]
  · rintro rfl hpast
    exact if_pos (by simp [operandWidthOf]; omega)
  · intro hf8 hpast
    exact if_pos (by rw [hf8width hf8]; omega)
  · intro hne hf8
    rw [operandField_none hne hf8, ite_self]

end Sys2Proof.Machine
end

section
/-! PROOFS, 70_reset_and_hazards.md. Construct, Load and SetPC by the equations of their two branches. A step is a total function of the state that halted states are fixed by, so Run within n steps is the state n steps on, answered once that is halted: what Run answers, and that a state fixed while running is never answered, are both read off that equation. -/
namespace Sys2Proof.Machine

variable {s t : State}

/-! ### Construct (R301) -/

theorem construct_eq_invalid_iff (m n : Int) (trace : Bool) :
    construct m n trace = .invalidConfiguration ↔ validSizes m n = false := by
  cases hv : validSizes m n <;> simp [construct, hv]

/-- Settles O9: the sizes refused are those outside 0 ≤ S ≤ M ≤ 2^63 − 1, and with M = 0 no PC is inside Memory. -/
theorem constructRefusesInvalidSizes : Obligations.ConstructRefusesInvalidSizes := by
  refine ⟨fun m n trace => ?_, fun s hsize hr => ?_⟩
  · rw [construct_eq_invalid_iff, ← Bool.not_eq_true, validSizes_iff]
    unfold Config.maxMemSize
    omega
  · obtain ⟨houtside, -⟩ := fetchPastMemoryHalts
    exact houtside s hr (by omega)

/-! ### Load and SetPC (R303 to R305) -/

theorem hostLoad_fits {bytes : List Byte} (h : bytes.length ≤ s.memSize) :
    hostLoad bytes s = (.ok, { s with mem := s.mem.writeBytes 0 bytes }) :=
  if_pos (decide_eq_true h)

theorem hostLoad_tooLarge {bytes : List Byte} (h : s.memSize < bytes.length) :
    hostLoad bytes s = (.loadTooLarge, s) :=
  if_neg (by simpa [validProgram] using h)

/-- Settles O10: what Load writes is a byte sequence from address 0, whose laws say what each byte then reads as. -/
theorem loadCopiesFromAddressZero : Obligations.LoadCopiesFromAddressZero := by
  intro s bytes hs
  refine ⟨fun hfits => ?_, hostLoad_tooLarge⟩
  have ⟨_, _, _, hwf⟩ := hs
  have hend : 0 + bytes.length ≤ s.memSize := by omega
  refine ⟨_, hostLoad_fits hfits, rfl, rfl, .refl s, Sane.withMem hs (Memory.writeBytes_wf hwf 0 bytes hend), ?_, ?_⟩
  · intro k hk
    simpa only [State.byteAt, Nat.zero_add] using Memory.read_writeBytes_inside hwf 0 bytes hk hend
  · intro x hx
    exact Memory.read_writeBytes_outside s.mem 0 bytes (.inr (by omega))

/-- Settles O11: SetPC updates the one field, and the fetch that follows finds no opcode byte outside Memory. -/
theorem setPCIsUnchecked : Obligations.SetPCIsUnchecked := by
  intro s v
  obtain ⟨houtside, -⟩ := fetchPastMemoryHalts
  exact ⟨rfl, rfl, .refl s, fun _ => rfl, houtside (hostSetPC v s)⟩

/-! ### Step (R306, R35) -/

theorem step_of_halted (h : s.runState ≠ .running) : step s = .next s := by
  unfold step
  cases hr : s.runState with
  | running => exact absurd hr h
  | haltedClean | haltedError => rfl

theorem stepState_of_step (h : step s = .next t) : stepState s = t := by
  rw [stepState, h]

theorem hostStep_of_step (h : step s = .next t) : hostStep s = (t, decide (t.runState ≠ .running), t.err) := by
  rw [hostStep, stepState_of_step h, stepResponse]

/-- Settles O12: every step answers with a state, and a halted engine with the state it has. -/
theorem hostStepResponds : Obligations.HostStepResponds := by
  refine ⟨fun s => ?_, fun s hhalt => ⟨step_of_halted hhalt, ?_⟩⟩
  · obtain ⟨t, hstep, -⟩ := stepAlwaysAnswers s
    exact ⟨t, hstep, hostStep_of_step hstep⟩
  · rw [hostStep_of_step (step_of_halted hhalt), decide_eq_true hhalt]

/-! ### Run (R307) -/

/-- A halted engine absorbs any number of steps. -/
theorem iterate_stepState_of_halted (h : s.runState ≠ .running) (n : Nat) : stepState^[n] s = s :=
  Function.iterate_fixed (stepState_of_step (step_of_halted h)) n

theorem hostRun_of_halted (h : s.runState ≠ .running) (n : Nat) : hostRun n s = some (s, s.err) := by
  cases n <;> exact if_pos h

theorem hostRun_zero_of_running (h : s.runState = .running) : hostRun 0 s = none :=
  if_neg (not_not.mpr h)

theorem hostRun_succ_of_running (h : s.runState = .running) (n : Nat) :
    hostRun (n + 1) s = hostRun n (stepState s) :=
  if_neg (not_not.mpr h)

/-- Run within `n` steps answers the state `n` steps on, if that is halted: a Run that stops earlier loses nothing, as the
steps after its end change nothing. -/
theorem hostRun_eq_iterate (n : Nat) (s : State) :
    hostRun n s = if (stepState^[n] s).runState ≠ .running then some (stepState^[n] s, (stepState^[n] s).err)
      else none := by
  induction n generalizing s with
  | zero =>
    split
    · next hhalt => exact hostRun_of_halted hhalt 0
    · next hrun => exact hostRun_zero_of_running (not_not.mp hrun)
  | succ n ih =>
    by_cases hrun : s.runState = .running
    · rw [hostRun_succ_of_running hrun, ih, Function.iterate_succ_apply]
    · rw [hostRun_of_halted hrun, iterate_stepState_of_halted hrun, if_pos hrun]

/-- Settles O13: Run's answer is the state `n` steps on, and past a halted state that is the halted state itself. -/
theorem runRespondsWithFinalError : Obligations.RunRespondsWithFinalError := by
  constructor
  · intro n s t e h
    rw [hostRun_eq_iterate] at h
    split at h
    · next hhalt =>
      obtain ⟨rfl, rfl⟩ := Prod.mk.inj (Option.some.inj h)
      exact ⟨hhalt, rfl, n, le_rfl, rfl⟩
    · exact nomatch h
  · intro k n s t hreach hhalt hkn
    have hlater : stepState^[n] s = t := by
      rw [← Nat.sub_add_cancel hkn, Function.iterate_add_apply, hreach, iterate_stepState_of_halted hhalt]
    rw [hostRun_eq_iterate, hlater, if_pos hhalt]

/-! ### A jump to itself (R317) -/

/-- A jmp that stands in Memory at its own target is a legal jump to where PC is: the step changes nothing. -/
theorem step_of_jmp_to_itself (hr : s.runState = .running) (h : InstrAtPC (.jmp s.pc) s) : step s = .next s := by
  have hexec : step s = commit 8 s (redirectTo s.pc s) := step_of_instrAtPC hr (Laws.TableRow.jmp s.pc) h
  obtain ⟨hlo, hend, -⟩ := h
  have hhi : s.pc.toInt < s.memSize := by
    rw [encode, List.length_cons] at hend
    omega
  rw [hexec, redirectTo_inside hlo hhi, commit_redirect]

/-- Settles O14: the running state is fixed by the step, and so no number of steps reaches a halted one. -/
theorem jumpToItselfNeverResponds : Obligations.JumpToItselfNeverResponds := by
  intro s hr h n
  have hfixed : stepState^[n] s = s := Function.iterate_fixed (stepState_of_step (step_of_jmp_to_itself hr h)) n
  rw [hostRun_eq_iterate, hfixed, if_neg (not_not.mpr hr)]

end Sys2Proof.Machine
end
